-- ==== Sys2Proof/Word.lean ====
section
/-!
DEFINITION. The value types of the block: bytes, words, codes, colours, strings of palette
indices, and the small closed sets of names that instructions and registers use.
-/

namespace Sys2Proof

/-- A byte of IN or of the canvas, and a palette index (00_scope.md section 4). -/
abbrev Byte := BitVec 8

/-- A register value: the host reaches the block through 32-bit registers (10_state.md R30). -/
abbrev Word := BitVec 32

/-- A code, at most 12 bits wide (00_scope.md R7, 10_state.md R46). -/
abbrev Code := BitVec 12

/-- A palette entry: R in bits 23 to 16, G in 15 to 8, B in 7 to 0 (10_state.md R37). -/
abbrev Colour := BitVec 24

/-- A string: a finite NON-EMPTY list of palette indices (00_scope.md section 4), so its first
element is a field of its own. -/
structure Str where
  first : Byte
  rest : List Byte
  deriving DecidableEq, Repr, Inhabited

/-- The code table: 4096 entries, each an option of a string (10_state.md R47). -/
abbrev Dict := Vector (Option Str) 4096

/-- The palette register file (10_state.md R37). -/
abbrev Palette := Vector Colour 256

/-- PHASE (10_state.md R43). -/
inductive Phase where
  | decode
  | drain
  deriving DecidableEq, Repr, Inhabited

/-- STATUS.STATE (10_state.md R38). -/
inductive JobState where
  | idle
  | busy
  | done
  | error
  deriving DecidableEq, Repr

/-- The error kinds of 60_exceptions.md R310. Three of them belong to the host's parser and the
block never raises them (60_exceptions.md R311). -/
inductive ErrorKind where
  | badSignature
  | unexpectedEof
  | unknownBlock
  | unknownExtensionLabel
  | invalidLzwCodeSize
  | invalidCode
  | kwkwkWithoutPrevious
  | paletteIndexOutOfRange
  | truncatedImage
  | excessImageData
  | imageOutOfBounds
  deriving DecidableEq, Repr

/-- The ten configuration registers (10_state.md R30, access RW). -/
inductive CfgReg where
  | mincode
  | flags
  | transpIdx
  | screenW
  | screenH
  | left
  | top
  | imgW
  | imgH
  | inLen
  deriving DecidableEq, Repr

/-- The five status registers (10_state.md R30, access RO). -/
inductive StatusReg where
  | status
  | errCode
  | errInfo
  | pixCount
  | bytesConsumed
  deriving DecidableEq, Repr

/-- Every listed register (10_state.md R30). -/
inductive Reg where
  | ctrl
  | status (r : StatusReg)
  | cfg (r : CfgReg)
  | pal (i : Byte)
  deriving DecidableEq, Repr

/-- The registers that the opcode table's row REG_READ reads: CTRL, a configuration register or a
palette entry. -/
inductive ReadReg where
  | ctrl
  | cfg (r : CfgReg)
  | pal (i : Byte)
  deriving DecidableEq, Repr

/-- A host access to a register number (44_host_interface.md R280): any number may be tried. -/
inductive HostAccess where
  | read (k : Nat)
  | write (k : Nat) (v : Word)
  deriving DecidableEq, Repr

/-- What the three layers of the encoding carry (30_encoding.md): a code, a byte in length
position, a host access, and the RESET input, which has no bits at all (30_encoding.md R124). -/
inductive InstrWord where
  | code (c : Code)
  | lengthByte (b : Byte)
  | access (a : HostAccess)
  | resetInput
  deriving DecidableEq, Repr

/-- The table state that gives a code its meaning (30_encoding.md R116, R118): the minimum code
size, nextCode and codeWidth. -/
structure CodeCtx where
  m : Nat
  nextCode : Nat
  codeWidth : Nat
  deriving DecidableEq, Repr

end Sys2Proof
end

