-- ==== Sys2Proof/Config.lean ====
section
/-!
DEFINITION. What is fixed for the block (its parameters) and the FREE VALUES: constants with no
body, so that nothing in Lean can say what they are. RESET reads the free values (assumption log 3).
-/

namespace Sys2Proof.Config

/-- MAX_WIDTH, the widest code (00_scope.md R7). -/
def maxWidth : Nat := 12

/-- DICT_SIZE, the number of code table entries (00_scope.md R8). -/
def dictSize : Nat := 4096

/-- The smallest and the largest legal minimum code size (00_scope.md R6). -/
def minCodeSizeLow : Nat := 2

def minCodeSizeHigh : Nat := 8

/-- How many bytes of IN can ever be addressed: CFG_IN_LEN is at most 2^32 - 1 (00_scope.md R14). -/
def inCapacity : Nat := 2 ^ 32 - 1

/-- How many bytes of the canvas can ever be addressed: 4 * W * H with 16-bit W and H
(20_memory.md R82). -/
def canvasCapacity : Nat := 4 * 65535 * 65535

/-- The word a register's value is drawn from by the n-th RESET (70_reset_and_hazards.md R351):
first argument the draw, second the register's number. -/
opaque freeRegister : Nat → Nat → Word

/-- PHASE after the n-th RESET (70_reset_and_hazards.md R350). -/
opaque freePhase : Nat → Phase

/-- codeWidth after the n-th RESET. -/
opaque freeCodeWidth : Nat → BitVec 4

/-- nextCode after the n-th RESET. -/
opaque freeNextCode : Nat → BitVec 13

/-- prevCode after the n-th RESET. -/
opaque freePrevCode : Nat → Option Code

/-- The code table after the n-th RESET. -/
opaque freeDict : Nat → Dict

/-- acc after the n-th RESET. -/
opaque freeAcc : Nat → Word

/-- nbits after the n-th RESET, within the range 10_state.md R48 gives it. -/
opaque freeNbits : Nat → Fin 20

/-- sbRemain after the n-th RESET. -/
opaque freeSbRemain : Nat → Byte

end Sys2Proof.Config
end

