-- ==== Sys2Proof/Syntax.lean ====
section
/-!
DEFINITION. The instructions: one constructor for each row of spec/opcode_table.json, in the
table's order. The three layers are the code classes (30_encoding.md R116), the framing tokens
(30_encoding.md R111) and the host commands (30_encoding.md R124).
-/

namespace Sys2Proof

inductive Instr where
  /-- CLEAR, the code equal to clearCode (41_lzw_codes.md R174). -/
  | clear
  /-- END, the code equal to endCode (41_lzw_codes.md R175). -/
  | endInfo
  /-- ROOT c, a code below clearCode (41_lzw_codes.md R176). -/
  | root (c : Code)
  /-- DICT c, a code above endCode and below nextCode (41_lzw_codes.md R177). -/
  | dict (c : Code)
  /-- KWKWK c, the code equal to nextCode (41_lzw_codes.md R178). -/
  | kwkwk (c : Code)
  /-- INVALID c, a code above nextCode (41_lzw_codes.md R179). -/
  | invalid (c : Code)
  /-- SB_TERM, the length byte 0 (40_input_stage.md R143). -/
  | sbTerm
  /-- SB_DATA L, a length byte L other than 0 (40_input_stage.md R144). -/
  | sbData (len : Byte)
  /-- START, a write to CTRL with bit 0 set (44_host_interface.md R281, R282); the operand is the
  reserved bits 31 to 1 of the value written, which are ignored. -/
  | start (reserved : BitVec 31)
  /-- CTRL_NOP, a write to CTRL with bit 0 clear (44_host_interface.md R281); the operand is the
  reserved bits 31 to 1. -/
  | ctrlNop (reserved : BitVec 31)
  /-- RESET, the reset input (44_host_interface.md R283). -/
  | reset
  /-- CFG_WRITE, a host write of a configuration register (44_host_interface.md R284). -/
  | cfgWrite (r : CfgReg) (v : Word)
  /-- PAL_WRITE, a host write of a palette entry (44_host_interface.md R284, R286). -/
  | palWrite (i : Byte) (v : Word)
  /-- STATUS_READ, a host read of a status register (44_host_interface.md R285). -/
  | statusRead (r : StatusReg)
  /-- REG_READ, a host read of CTRL, a configuration register or a palette entry
  (44_host_interface.md R280). -/
  | regRead (r : ReadReg)
  /-- RO_WRITE, a host write of a status register (44_host_interface.md R290). -/
  | roWrite (r : StatusReg) (v : Word)
  /-- UNLISTED, an access to a register number that is not in the map (44_host_interface.md R291). -/
  | unlisted (a : HostAccess)
  deriving DecidableEq, Repr

end Sys2Proof
end

