-- ==== Sys2Proof/Decode.lean ====
section
/-!
DEFINITION. The decoder, total on every code, length byte and host access, and after it the
encoder, written from the same tables. A code's meaning depends on the table state as well as on
its bits (30_encoding.md section 2), so both take a CodeCtx.
-/

namespace Sys2Proof

/-- clearCode = 1 << m (41_lzw_codes.md R170). -/
def clearCodeOf (m : Nat) : Nat := 1 <<< m

/-- endCode = clearCode + 1 (41_lzw_codes.md R170). -/
def endCodeOf (m : Nat) : Nat := clearCodeOf m + 1

def CodeCtx.clearCode (x : CodeCtx) : Nat := clearCodeOf x.m

def CodeCtx.endCode (x : CodeCtx) : Nat := endCodeOf x.m

/-- bitlen(v), the number of binary digits of v (30_encoding.md R118). -/
def bitlen (v : Nat) : Nat := if v = 0 then 0 else Nat.log2 v + 1

/-- codeWidth as a function of nextCode (30_encoding.md R118, 41_lzw_codes.md R185). -/
def widthOf (nextCode : Nat) : Nat := min Config.maxWidth (bitlen nextCode)

/-- The table states a job passes through: a legal m, nextCode between endCode + 1 and 4096, and
the width that goes with it (10_state.md R44, R45; 30_encoding.md R118). -/
abbrev CodeCtx.ok (x : CodeCtx) : Prop :=
  Config.minCodeSizeLow ≤ x.m ∧ x.m ≤ Config.minCodeSizeHigh ∧
  x.endCode < x.nextCode ∧ x.nextCode ≤ Config.dictSize ∧ x.codeWidth = widthOf x.nextCode

/-- The code classes, tried in the order of 41_lzw_codes.md R173 (30_encoding.md R116). -/
def decodeCode (x : CodeCtx) (c : Code) : Instr :=
  if c.toNat = x.clearCode then .clear
  else if c.toNat = x.endCode then .endInfo
  else if c.toNat < x.clearCode then .root c
  else if c.toNat < x.nextCode then .dict c
  else if c.toNat = x.nextCode then .kwkwk c
  else .invalid c

/-- A byte in length position (30_encoding.md R111). -/
def decodeLengthByte (b : Byte) : Instr :=
  if b = 0 then .sbTerm else .sbData b

/-- The register numbers of 10_state.md R30. -/
def StatusReg.number : StatusReg → Nat
  | .status => 0x001
  | .errCode => 0x002
  | .errInfo => 0x003
  | .pixCount => 0x004
  | .bytesConsumed => 0x005

def CfgReg.number : CfgReg → Nat
  | .mincode => 0x010
  | .flags => 0x011
  | .transpIdx => 0x012
  | .screenW => 0x013
  | .screenH => 0x014
  | .left => 0x015
  | .top => 0x016
  | .imgW => 0x017
  | .imgH => 0x018
  | .inLen => 0x019

def Reg.number : Reg → Nat
  | .ctrl => 0x000
  | .status r => r.number
  | .cfg r => r.number
  | .pal i => 0x100 + i.toNat

/-- The register a number names, or none for an unlisted number (10_state.md R30;
44_host_interface.md R291). -/
def regOfNumber (k : Nat) : Option Reg :=
  if 0x100 ≤ k then
    if k ≤ 0x1FF then some (.pal (BitVec.ofNat 8 (k - 0x100))) else none
  else match k with
    | 0x000 => some .ctrl
    | 0x001 => some (.status .status)
    | 0x002 => some (.status .errCode)
    | 0x003 => some (.status .errInfo)
    | 0x004 => some (.status .pixCount)
    | 0x005 => some (.status .bytesConsumed)
    | 0x010 => some (.cfg .mincode)
    | 0x011 => some (.cfg .flags)
    | 0x012 => some (.cfg .transpIdx)
    | 0x013 => some (.cfg .screenW)
    | 0x014 => some (.cfg .screenH)
    | 0x015 => some (.cfg .left)
    | 0x016 => some (.cfg .top)
    | 0x017 => some (.cfg .imgW)
    | 0x018 => some (.cfg .imgH)
    | 0x019 => some (.cfg .inLen)
    | _ => none

/-- The register number an access names. -/
def HostAccess.number : HostAccess → Nat
  | .read k => k
  | .write k _ => k

/-- A host access (30_encoding.md R124; 44_host_interface.md R280, R281, R291). -/
def decodeAccess : HostAccess → Instr
  | .read k =>
    match regOfNumber k with
    | none => .unlisted (.read k)
    | some .ctrl => .regRead .ctrl
    | some (.status r) => .statusRead r
    | some (.cfg r) => .regRead (.cfg r)
    | some (.pal i) => .regRead (.pal i)
  | .write k v =>
    match regOfNumber k with
    | none => .unlisted (.write k v)
    | some .ctrl =>
      if v.getLsbD 0 then .start (v.extractLsb' 1 31) else .ctrlNop (v.extractLsb' 1 31)
    | some (.status r) => .roWrite r v
    | some (.cfg r) => .cfgWrite r v
    | some (.pal i) => .palWrite i v

/-- The decoder. Every code, every byte and every access decodes: no encoding is reserved
(30_encoding.md R111, R116, R119). -/
def decode (x : CodeCtx) : InstrWord → Instr
  | .code c => decodeCode x c
  | .lengthByte b => decodeLengthByte b
  | .access a => decodeAccess a
  | .resetInput => .reset

/-- The value written to CTRL: bits 31 to 1 are the reserved bits, bit 0 the START bit
(10_state.md R30, 44_host_interface.md R281). -/
def ctrlValue (reserved : BitVec 31) (start : Bool) : Word :=
  reserved ++ BitVec.ofBool start

/-- The number a REG_READ names. -/
def ReadReg.number : ReadReg → Nat
  | .ctrl => Reg.number .ctrl
  | .cfg r => r.number
  | .pal i => Reg.number (.pal i)

/-- The encoder, from the tables of 30_encoding.md R111, R116 and R124 and 10_state.md R30. -/
def encode (x : CodeCtx) : Instr → InstrWord
  | .clear => .code (BitVec.ofNat 12 x.clearCode)
  | .endInfo => .code (BitVec.ofNat 12 x.endCode)
  | .root c => .code c
  | .dict c => .code c
  | .kwkwk c => .code c
  | .invalid c => .code c
  | .sbTerm => .lengthByte 0
  | .sbData len => .lengthByte len
  | .start reserved => .access (.write (Reg.number .ctrl) (ctrlValue reserved true))
  | .ctrlNop reserved => .access (.write (Reg.number .ctrl) (ctrlValue reserved false))
  | .reset => .resetInput
  | .cfgWrite r v => .access (.write r.number v)
  | .palWrite i v => .access (.write (Reg.number (.pal i)) v)
  | .statusRead r => .access (.read r.number)
  | .regRead r => .access (.read r.number)
  | .roWrite r v => .access (.write r.number v)
  | .unlisted a => .access a

/-! ### Table words

The bits of an instruction as one number, for the two questions the host asks of the opcode table.
The spec lays out a length byte and a code as bits, but not a host access (it gives the pair k, v)
and not the RESET input: how many bits each takes here is the model's choice (assumption log 8). -/

/-- Why a table word is no instruction. -/
inductive WordReject where
  /-- No layer has words of this many bits. -/
  | noSuchLength
  /-- The number has a bit set at or above its length. -/
  | bitsAboveLength
  /-- The code does not fit the width it is read at. -/
  | codeTooWide
  deriving DecidableEq, Repr

/-- The table state a code's table word is read in: m = 2, nextCode = 8, codeWidth = 4, which is
the state after `CLEAR, ROOT 0, KWKWK 6, KWKWK 7` (95_test_vectors.md V-G2) and in which each of
the six classes has a code. -/
def tableCtx : CodeCtx := { m := 2, nextCode := 8, codeWidth := 4 }

/-- The layer's word that a table word spells. -/
def instrWordOf (nbits w : Nat) : Except WordReject InstrWord :=
  if 2 ^ nbits ≤ w then .error .bitsAboveLength
  else match nbits with
    | 0 => .ok .resetInput
    | 8 => .ok (.lengthByte (BitVec.ofNat 8 w))
    | 16 =>
      if 2 ^ tableCtx.codeWidth ≤ w then .error .codeTooWide else .ok (.code (BitVec.ofNat 12 w))
    | 32 => .ok (.access (.read w))
    | 64 => .ok (.access (.write (w % 2 ^ 32) (BitVec.ofNat 32 (w / 2 ^ 32))))
    | _ => .error .noSuchLength

/-- The instruction a table word decodes to, or the name of the reason it is rejected. -/
def decodeWord (nbits w : Nat) : Except WordReject Instr :=
  match instrWordOf nbits w with
  | .error r => .error r
  | .ok word => .ok (decode tableCtx word)

/-- The host's question: the instruction the decoder reads from a table word. -/
def decodeTableWord (nbits w : Nat) : Option Instr :=
  match decodeWord nbits w with
  | .error _ => none
  | .ok i => some i

end Sys2Proof
end

