-- ==== Sys2Proof/Machine/State.lean ====
section
/-!
DEFINITION. The state of the machine as plain data: the host-written configuration, the status
registers, the datapath, the memories IN and CANVAS, the moves the host still has to make, and the
counter of free draws; the reasons a step can stop; and the state after reset.
-/

namespace Sys2Proof.Machine

/-- A memory: cells with rising addresses, none of which equals what an unlisted address reads as
(assumption log 4). -/
abbrev Memory := List Host.Cell

/-- The configuration registers CFG_* (10_state.md R31 to R36), a field each; reserved bits are not
stored (R30, R34). -/
structure Cfg where
  mincode : BitVec 8
  interlace : Bool
  transpEn : Bool
  palPresent : Bool
  palSize : BitVec 3
  transpIdx : BitVec 8
  screenW : BitVec 16
  screenH : BitVec 16
  left : BitVec 16
  top : BitVec 16
  imgW : BitVec 16
  imgH : BitVec 16
  inLen : BitVec 32
  deriving DecidableEq, Repr

/-- A move of the world outside the block; each takes one machine step (assumption log 1). -/
inductive HostMove where
  /-- A register access (44_host_interface.md R280). -/
  | access (a : HostAccess)
  /-- The platform asserts the reset input (44_host_interface.md R283). -/
  | reset
  /-- The host stores a byte of IN (20_memory.md R80, 70_reset_and_hazards.md R354 step 4). -/
  | inWrite (offset : Nat) (b : Byte)
  /-- The host stores a byte of the canvas (20_memory.md R80, 70_reset_and_hazards.md R355). -/
  | canvasWrite (offset : Nat) (b : Byte)
  /-- The host reads a byte of the canvas (20_memory.md R80). -/
  | canvasRead (offset : Nat)
  /-- The host makes no move, so that the step is the block's (44_host_interface.md R287). -/
  | pass
  deriving DecidableEq, Repr

/-- The state. -/
structure State where
  /-- CFG_* (10_state.md R31 to R36). -/
  cfg : Cfg
  /-- PAL (10_state.md R37). -/
  pal : Palette
  /-- STATUS.STATE (10_state.md R38). -/
  jobState : JobState
  /-- ERR_CODE.CODE (10_state.md R39). -/
  errCode : BitVec 8
  /-- ERR_INFO.INFO (10_state.md R40). -/
  errInfo : BitVec 16
  /-- PIX_COUNT.COUNT (10_state.md R41). -/
  pixCount : Word
  /-- BYTES_CONSUMED.COUNT (10_state.md R42). -/
  bytesConsumed : Word
  /-- PHASE (10_state.md R43). -/
  phase : Phase
  /-- codeWidth (10_state.md R44). -/
  codeWidth : BitVec 4
  /-- nextCode (10_state.md R45). -/
  nextCode : BitVec 13
  /-- prevCode (10_state.md R46). -/
  prevCode : Option Code
  /-- dict (10_state.md R47). -/
  dict : Dict
  /-- acc, the bit accumulator (10_state.md R48). -/
  acc : Word
  /-- nbits, the number of valid bits of acc (10_state.md R48). -/
  nbits : Nat
  /-- sbRemain (10_state.md R49). -/
  sbRemain : Byte
  /-- The IN space (20_memory.md R81). -/
  input : Memory
  /-- The CANVAS space (20_memory.md R82). -/
  canvas : Memory
  /-- The moves the host and the platform still make, oldest first (assumption log 1). -/
  host : List HostMove
  /-- What the last host read returned (44_host_interface.md R280, R285; assumption log 7). -/
  readData : Option Word
  /-- The model's own counter: how many RESETs have drawn free values (assumption log 3). -/
  draws : Nat
  deriving DecidableEq, Repr

/-- Where the machine stops because a host move reaches no storage at all. -/
inductive Fault where
  /-- Raised by a host write of IN at an offset that CFG_IN_LEN can never make part of IN
  (20_memory.md R80, 00_scope.md R14; assumption log 5). Safe. -/
  | noSuchInputByte
  /-- Raised by a host access to the canvas at an offset that no screen size makes part of the
  canvas (20_memory.md R82; assumption log 5). Safe. -/
  | noSuchCanvasByte
  deriving DecidableEq, Repr

/-- Where the spec gives a move no meaning. -/
inductive Refusal where
  /-- Raised by an arm of exec whose instruction has no meaning yet. Safe. -/
  | notModelled (mnemonic : String)
  /-- Raised by UNLISTED: an access to a register number outside the map is refused
  (44_host_interface.md R291). Safe. -/
  | unlistedRegister
  /-- Raised by CFG_WRITE while BUSY, which is no move (44_host_interface.md R284;
  93_implementation_defined.md U15). Safe. -/
  | cfgWriteWhileBusy
  /-- Raised by PAL_WRITE while BUSY, which is no move (44_host_interface.md R284). Safe. -/
  | palWriteWhileBusy
  /-- Raised by START while BUSY, which is no move (44_host_interface.md R289). Safe. -/
  | startWhileBusy
  /-- Raised by a host write of IN while BUSY, which is no move (70_reset_and_hazards.md R356). Safe. -/
  | inWriteWhileBusy
  /-- Raised by a host access to the canvas while BUSY, which is no move
  (70_reset_and_hazards.md R356). Safe. -/
  | canvasAccessWhileBusy
  deriving DecidableEq, Repr

/-- Every configuration register at the value the model names for power-on (assumption log 2). -/
def Cfg.zero : Cfg where
  mincode := 0
  interlace := false
  transpEn := false
  palPresent := false
  palSize := 0
  transpIdx := 0
  screenW := 0
  screenH := 0
  left := 0
  top := 0
  imgW := 0
  imgH := 0
  inLen := 0

/-- The machine right after reset (10_state.md section 6, 70_reset_and_hazards.md R350): IDLE with
zero status; what the spec leaves unspecified is at the values assumption log 2 names; the host has
placed nothing. -/
def State.reset : State where
  cfg := Cfg.zero
  pal := Vector.replicate 256 0
  jobState := .idle
  errCode := 0
  errInfo := 0
  pixCount := 0
  bytesConsumed := 0
  phase := .decode
  codeWidth := 0
  nextCode := 0
  prevCode := none
  dict := Vector.replicate 4096 none
  acc := 0
  nbits := 0
  sbRemain := 0
  input := []
  canvas := []
  host := []
  readData := none
  draws := 0

end Sys2Proof.Machine
end

