-- ==== Sys2Proof/Machine/Ops.lean ====
section
/-!
DEFINITION. The named operations: memory, strings, the code table, raising an error (the block's
one kind of exception, 60_exceptions.md R312), the sequential input read, and the free values a
RESET draws.
-/

namespace Sys2Proof

/-! ### Strings (00_scope.md section 4) -/

/-- The one-element string `[v]`. -/
def Str.single (v : Byte) : Str := { first := v, rest := [] }

/-- `s ++ [v]`. -/
def Str.snoc (s : Str) (v : Byte) : Str := { first := s.first, rest := s.rest ++ [v] }

/-- The elements of a string in order. -/
def Str.toList (s : Str) : List Byte := s.first :: s.rest

/-- `len(s)`. -/
def Str.length (s : Str) : Nat := s.rest.length + 1

/-! ### The code table (10_state.md R47) -/

/-- `dict[c]`. -/
def Dict.get (d : Dict) (c : Code) : Option Str := d[c.toNat]

/-- `dict[k] <- Some(s)`, for k below 4096. -/
def Dict.put (d : Dict) (k : Nat) (s : Str) : Dict :=
  if h : k < 4096 then d.set k (some s) h else d

/-- Entries numbered from `i` on, those below `clear` replaced by their root strings. -/
def rootEntries (clear : Nat) : Nat → List (Option Str) → List (Option Str)
  | _, [] => []
  | i, e :: es =>
    (if i < clear then some (Str.single (BitVec.ofNat 8 i)) else e) :: rootEntries clear (i + 1) es

theorem rootEntries_length (clear i : Nat) (es : List (Option Str)) :
    (rootEntries clear i es).length = es.length := by
  induction es generalizing i with
  | nil => rfl
  | cons e es ih => simp [rootEntries, ih]

/-- `for c in 0 .. clear - 1: dict[c] <- Some([c])`; the other entries stay (41_lzw_codes.md R171,
93_implementation_defined.md U11). -/
def Dict.withRoots (d : Dict) (clear : Nat) : Dict :=
  ⟨⟨rootEntries clear 0 d.toList⟩, by
    have h : (rootEntries clear 0 d.toList).length = 4096 := by
      rw [rootEntries_length]; simp
    exact h⟩

namespace Machine

/-! ### Memory (20_memory.md R80 to R82) -/

/-- What a byte that is not listed reads as (assumption log 4). -/
def Memory.unlisted : Byte := 0

/-- The canonical form: addresses strictly rising, no entry equal to an unlisted byte. -/
abbrev Memory.wf (m : Memory) : Prop :=
  m.Pairwise (fun c d => c.1 < d.1) ∧ ∀ c ∈ m, c.2 ≠ Memory.unlisted

/-- The byte at an address. -/
def Memory.read : Memory → Nat → Byte
  | [], _ => Memory.unlisted
  | (k, b) :: m, a => if k = a then b else Memory.read m a

/-- The memory with no entry for an address. -/
def Memory.erase (m : Memory) (a : Nat) : Memory := m.filter (fun c => c.1 != a)

/-- Put a cell before the first cell with a larger address. -/
def Memory.insert (a : Nat) (b : Byte) : Memory → Memory
  | [] => [(a, b)]
  | (k, c) :: m => if a < k then (a, b) :: (k, c) :: m else (k, c) :: Memory.insert a b m

/-- Store a byte, keeping the canonical form. -/
def Memory.write (m : Memory) (a : Nat) (b : Byte) : Memory :=
  if b = Memory.unlisted then m.erase a else Memory.insert a b (m.erase a)

/-- Store bytes at rising addresses. -/
def Memory.writeList (m : Memory) (a : Nat) : List Byte → Memory
  | [] => m
  | b :: bs => Memory.writeList (m.write a b) (a + 1) bs

/-! ### Results of operations that may raise an error -/

/-- What a part of a step gives: a value and the state to go on from, or the state that `raise`
left, with which the step ends (60_exceptions.md R312). -/
inductive Ran (α : Type) where
  | ok (a : α) (s : State)
  | raised (s : State)

/-- Go on unless an error was raised. -/
def Ran.andThen {α β : Type} : Ran α → (α → State → Ran β) → Ran β
  | .ok a s, f => f a s
  | .raised s, _ => .raised s

/-- The outcome of a step that ran to its end or raised: a next state either way, since an error
is an entry into STATE = ERROR (60_exceptions.md R312). -/
def Ran.toNext : Ran Unit → Host.Outcome State Fault Refusal
  | .ok _ s => .next s
  | .raised s => .next s

/-! ### Raising an error: the block's one exception entry (60_exceptions.md R310, R312) -/

/-- The numbers of 60_exceptions.md R310. -/
def errorNumber : ErrorKind → BitVec 8
  | .badSignature => 1
  | .unexpectedEof => 2
  | .unknownBlock => 3
  | .unknownExtensionLabel => 4
  | .invalidLzwCodeSize => 5
  | .invalidCode => 6
  | .kwkwkWithoutPrevious => 7
  | .paletteIndexOutOfRange => 8
  | .truncatedImage => 9
  | .excessImageData => 10
  | .imageOutOfBounds => 11

/-- `raise E(info)`: ERR_CODE, ERR_INFO and STATE are written; everything the step did before
stays (60_exceptions.md R312). There is no return from it: START and RESET leave ERROR (R324). That
the datapath keeps these values while in ERROR is a DESIGN CHOICE (assumption log 21). -/
def State.raise (s : State) (e : ErrorKind) (info : BitVec 16) : State :=
  { s with errCode := errorNumber e, errInfo := info, jobState := .error }

/-! ### Sequential input read (40_input_stage.md R140) -/

/-- The bytes of IN that the job has not read yet. -/
def State.inRemaining (s : State) : Nat := s.cfg.inLen.toNat - s.bytesConsumed.toNat

/-- The state after the read of one byte of IN. -/
def State.countByte (s : State) : State := { s with bytesConsumed := s.bytesConsumed + 1 }

/-- `InRead()`. -/
def inRead (s : State) : Ran Byte :=
  if s.cfg.inLen.toNat ≤ s.bytesConsumed.toNat then .raised (s.raise .unexpectedEof 0)
  else .ok (s.input.read s.bytesConsumed.toNat) s.countByte

/-! ### Free values after RESET (70_reset_and_hazards.md R350, R351; assumption log 3) -/

/-- The configuration the n-th RESET leaves: each field the bits of a free word. -/
def drawCfg (n : Nat) : Cfg where
  mincode := (Config.freeRegister n 0x010).setWidth 8
  interlace := (Config.freeRegister n 0x011).getLsbD 0
  transpEn := (Config.freeRegister n 0x011).getLsbD 1
  palPresent := (Config.freeRegister n 0x011).getLsbD 2
  palSize := (Config.freeRegister n 0x011).extractLsb' 4 3
  transpIdx := (Config.freeRegister n 0x012).setWidth 8
  screenW := (Config.freeRegister n 0x013).setWidth 16
  screenH := (Config.freeRegister n 0x014).setWidth 16
  left := (Config.freeRegister n 0x015).setWidth 16
  top := (Config.freeRegister n 0x016).setWidth 16
  imgW := (Config.freeRegister n 0x017).setWidth 16
  imgH := (Config.freeRegister n 0x018).setWidth 16
  inLen := Config.freeRegister n 0x019

/-- The palette the n-th RESET leaves. -/
def drawPal (n : Nat) : Palette :=
  Vector.ofFn fun i => (Config.freeRegister n (0x100 + i.val)).setWidth 24

end Machine
end Sys2Proof
end

