-- ==== Sys2Proof/Machine/Operands.lean ====
section
/-!
DEFINITION. The operand forms: the field layout of every register, which values a host write
stores and which word a host read returns (10_state.md R30, R31 to R42; 44_host_interface.md R280),
and the table state a code is read in.
-/

namespace Sys2Proof.Machine

/-- The number STATUS.STATE shows (10_state.md R38). -/
def jobStateBits : JobState → BitVec 2
  | .idle => 0
  | .busy => 1
  | .done => 2
  | .error => 3

/-- The word a read of CFG_FLAGS returns: bit 0 INTERLACE, bit 1 TRANSP_EN, bit 2 PAL_PRESENT, bits
6 to 4 PAL_SIZE, every other bit 0 (10_state.md R34). -/
def flagsWord (c : Cfg) : Word :=
  (c.palSize ++ 0#1 ++ BitVec.ofBool c.palPresent ++ BitVec.ofBool c.transpEn ++
    BitVec.ofBool c.interlace).setWidth 32

/-- `k.fields`, reserved bits 0, for a configuration register (44_host_interface.md R280). -/
def Cfg.word (c : Cfg) : CfgReg → Word
  | .mincode => c.mincode.setWidth 32
  | .flags => flagsWord c
  | .transpIdx => c.transpIdx.setWidth 32
  | .screenW => c.screenW.setWidth 32
  | .screenH => c.screenH.setWidth 32
  | .left => c.left.setWidth 32
  | .top => c.top.setWidth 32
  | .imgW => c.imgW.setWidth 32
  | .imgH => c.imgH.setWidth 32
  | .inLen => c.inLen

/-- `k.fields <- v masked to k's fields; reserved bits dropped` (44_host_interface.md R280). -/
def Cfg.store (c : Cfg) (r : CfgReg) (v : Word) : Cfg :=
  match r with
  | .mincode => { c with mincode := v.setWidth 8 }
  | .flags =>
    { c with
      interlace := v.getLsbD 0
      transpEn := v.getLsbD 1
      palPresent := v.getLsbD 2
      palSize := v.extractLsb' 4 3 }
  | .transpIdx => { c with transpIdx := v.setWidth 8 }
  | .screenW => { c with screenW := v.setWidth 16 }
  | .screenH => { c with screenH := v.setWidth 16 }
  | .left => { c with left := v.setWidth 16 }
  | .top => { c with top := v.setWidth 16 }
  | .imgW => { c with imgW := v.setWidth 16 }
  | .imgH => { c with imgH := v.setWidth 16 }
  | .inLen => { c with inLen := v }

/-- `PAL[i]`. -/
def palGet (p : Palette) (i : Byte) : Colour := p[i.toNat]

/-- `PAL[i] <- (R, G, B)`. -/
def palSet (p : Palette) (i : Byte) (c : Colour) : Palette := p.set i.toNat c

/-- The word a read of a status register returns (10_state.md R38 to R42). -/
def statusWord (s : State) : StatusReg → Word
  | .status => (jobStateBits s.jobState).setWidth 32
  | .errCode => s.errCode.setWidth 32
  | .errInfo => s.errInfo.setWidth 32
  | .pixCount => s.pixCount
  | .bytesConsumed => s.bytesConsumed

/-- The word a read of CTRL, a configuration register or a palette entry returns; CTRL is
write-only and reads 0 (44_host_interface.md R280, R281). -/
def readRegWord (s : State) : ReadReg → Word
  | .ctrl => 0
  | .cfg r => s.cfg.word r
  | .pal i => (palGet s.pal i).setWidth 32

/-- The table state (30_encoding.md R116, R118). -/
def State.codeCtx (s : State) : CodeCtx where
  m := s.cfg.mincode.toNat
  nextCode := s.nextCode.toNat
  codeWidth := s.codeWidth.toNat

/-- `N = Iw * Ih`, exactly (42_row_address.md R220). -/
def Cfg.pixels (c : Cfg) : Nat := c.imgW.toNat * c.imgH.toNat

/-- PAL_LEN (43_palette_mux.md R250). -/
def Cfg.palLen (c : Cfg) : Nat := if c.palPresent then 1 <<< (c.palSize.toNat + 1) else 0

/-- The R, G and B components of a palette entry (43_palette_mux.md R252). -/
def colourRed (c : Colour) : Byte := c.extractLsb' 16 8

def colourGreen (c : Colour) : Byte := c.extractLsb' 8 8

def colourBlue (c : Colour) : Byte := c.extractLsb' 0 8

end Sys2Proof.Machine
end

