-- ==== Sys2Proof/Machine/Flags.lean ====
section
/-!
DEFINITION. The one-bit conditions the rules test (10_state.md R51; the block has no condition-code
register): what each check of a step asks of the state.
-/

namespace Sys2Proof.Machine

/-- STATE == BUSY. -/
def State.isBusy (s : State) : Bool := decide (s.jobState = .busy)

/-- The image does not fit on the screen; the sums are exact (44_host_interface.md R282). -/
def Cfg.outOfBounds (c : Cfg) : Bool :=
  decide (c.screenW.toNat < c.left.toNat + c.imgW.toNat) ||
    decide (c.screenH.toNat < c.top.toNat + c.imgH.toNat)

/-- m is outside 2 to 8 (00_scope.md R6, 44_host_interface.md R282). -/
def Cfg.badMinCode (c : Cfg) : Bool :=
  decide (c.mincode.toNat < Config.minCodeSizeLow) ||
    decide (Config.minCodeSizeHigh < c.mincode.toNat)

/-- PIX_COUNT >= N (42_row_address.md R229); its negation is the shortage that END and the
terminator check for (41_lzw_codes.md R175, R184). -/
def State.allPixelsIn (s : State) : Bool := decide (s.cfg.pixels ≤ s.pixCount.toNat)

/-- idx >= PAL_LEN (43_palette_mux.md R251). -/
def Cfg.indexOutOfRange (c : Cfg) (idx : Byte) : Bool := decide (c.palLen ≤ idx.toNat)

/-- The multiplexer's select `skip` (43_palette_mux.md R253). -/
def Cfg.transparent (c : Cfg) (idx : Byte) : Bool := c.transpEn && decide (idx = c.transpIdx)

/-- The table is full: nextCode = 4096 (41_lzw_codes.md R181). -/
def State.tableFull (s : State) : Bool := decide (Config.dictSize ≤ s.nextCode.toNat)

/-- The growth test, made after nextCode has advanced to `next` (41_lzw_codes.md R180). -/
def growsWidth (next : Nat) (codeWidth : BitVec 4) : Bool :=
  decide (next = 1 <<< codeWidth.toNat) && decide (codeWidth.toNat < Config.maxWidth)

end Sys2Proof.Machine
end

