-- ==== Sys2Proof/Machine/Pixel.lean ====
section
/-!
DEFINITION. The pixel pipeline: the pixel counter and the interlaced row address generator
(42_row_address.md), the palette lookup and the transparency multiplexer (43_palette_mux.md).
-/

namespace Sys2Proof.Machine

/-! ### Row address generator -/

/-- `RowMapInterlaced(r, Ih)` (42_row_address.md R223). -/
def rowMapInterlaced (r ih : Nat) : Nat :=
  let n1 := (ih + 7) / 8
  let n2 := (ih + 3) / 8
  let n3 := (ih + 1) / 4
  if r < n1 then 8 * r
  else if r - n1 < n2 then 8 * (r - n1) + 4
  else if r - n1 - n2 < n3 then 4 * (r - n1 - n2) + 2
  else 2 * (r - n1 - n2 - n3) + 1

/-- ROWMAP (42_row_address.md R222, R223). -/
def Cfg.rowMap (c : Cfg) (r : Nat) : Nat :=
  if c.interlace then rowMapInterlaced r c.imgH.toNat else r

/-- PIXEL_ADDRESS, the canvas column of the p-th accepted index (42_row_address.md R225). -/
def Cfg.pixelX (c : Cfg) (p : Nat) : Nat := c.left.toNat + p % c.imgW.toNat

/-- PIXEL_ADDRESS, the canvas row of the p-th accepted index (42_row_address.md R225). -/
def Cfg.pixelY (c : Cfg) (p : Nat) : Nat := c.top.toNat + c.rowMap (p / c.imgW.toNat)

/-- The canvas byte offset of pixel (px, py) (20_memory.md R82, 42_row_address.md R226). -/
def Cfg.byteOffset (c : Cfg) (px py : Nat) : Nat := 4 * (py * c.screenW.toNat + px)

/-- The canvas byte offset of the p-th accepted index's pixel. -/
def Cfg.pixelOffset (c : Cfg) (p : Nat) : Nat := c.byteOffset (c.pixelX p) (c.pixelY p)

/-! ### The sequential generator (42_row_address.md R228)

An allowed implementation of ROWMAP; its state is no part of the machine's. -/

/-- The pass (1 to 4) and the output row. -/
structure RowGen where
  pass : Nat
  y : Nat
  deriving DecidableEq, Repr

def RowGen.start : RowGen := { pass := 1, y := 0 }

/-- The row step of a pass (42_row_address.md R224). -/
def passStep : Nat → Nat
  | 1 => 8
  | 2 => 8
  | 3 => 4
  | _ => 2

/-- The first output row of a pass (42_row_address.md R224). -/
def passFirst : Nat → Nat
  | 1 => 0
  | 2 => 4
  | 3 => 2
  | _ => 1

/-- The `while` loop of R228: pass over the passes that have no row left; three rounds are enough
to reach pass 4. -/
def RowGen.settle (ih : Nat) : Nat → RowGen → RowGen
  | 0, g => g
  | n + 1, g =>
    if ih ≤ g.y ∧ g.pass < 4 then
      RowGen.settle ih n { pass := g.pass + 1, y := passFirst (g.pass + 1) }
    else g

/-- What the generator does after the last column of a logical row. -/
def RowGen.next (ih : Nat) (g : RowGen) : RowGen :=
  RowGen.settle ih 3 { g with y := g.y + passStep g.pass }

/-- The generator's state at logical row r. -/
def RowGen.at (ih : Nat) : Nat → RowGen
  | 0 => RowGen.start
  | r + 1 => (RowGen.at ih r).next ih

/-! ### Palette lookup, transparency multiplexer, canvas write -/

/-- The four bytes of a written pixel: R, G, B, 255 (43_palette_mux.md R254, 20_memory.md R86). -/
def pixelBytes (c : Colour) : List Byte := [colourRed c, colourGreen c, colourBlue c, 255]

/-- CANVAS_WRITE for the next accepted index (43_palette_mux.md R252, R254). -/
def State.paintPixel (s : State) (idx : Byte) : State :=
  { s with
    canvas := s.canvas.writeList (s.cfg.pixelOffset s.pixCount.toNat)
      (pixelBytes (palGet s.pal idx)) }

/-- `PIX_COUNT <- PIX_COUNT + 1` (42_row_address.md R230). -/
def State.countPixel (s : State) : State := { s with pixCount := s.pixCount + 1 }

/-- `emit(idx)`: excess check, range check, transparency, write, count (43_palette_mux.md R257;
60_exceptions.md R317). -/
def emit (idx : Byte) (s : State) : Ran Unit :=
  if s.allPixelsIn then .raised (s.raise .excessImageData 0)
  else if s.cfg.indexOutOfRange idx then
    .raised (s.raise .paletteIndexOutOfRange (idx.setWidth 16))
  else if s.cfg.transparent idx then .ok () s.countPixel
  else .ok () (s.paintPixel idx).countPixel

/-- `EmitString(s)` (41_lzw_codes.md R189). -/
def emitList : List Byte → State → Ran Unit
  | [], s => .ok () s
  | idx :: rest, s => (emit idx s).andThen fun _ s1 => emitList rest s1

end Sys2Proof.Machine
end

