-- ==== Sys2Proof/Machine/Lzw.lean ====
section
/-!
DEFINITION. The LZW decompressor (41_lzw_codes.md): table reset, insertion and growth, and the
meanings of the six code classes. A meaning starts from the state in which its code has been read.
-/

namespace Sys2Proof.Machine

/-! ### Updates -/

/-- `InitTable()` (41_lzw_codes.md R171). -/
def State.initTable (s : State) : State :=
  { s with
    dict := s.dict.withRoots s.codeCtx.clearCode
    nextCode := BitVec.ofNat 13 (s.codeCtx.endCode + 1)
    codeWidth := BitVec.ofNat 4 (s.cfg.mincode.toNat + 1)
    prevCode := none }

/-- `Insert(s)`, increment before the growth test (41_lzw_codes.md R180). -/
def State.insertEntry (s : State) (str : Str) : State :=
  { s with
    dict := s.dict.put s.nextCode.toNat str
    nextCode := s.nextCode + 1
    codeWidth :=
      if growsWidth (s.nextCode.toNat + 1) s.codeWidth then s.codeWidth + 1 else s.codeWidth }

/-- `prevCode <- Some(c)` (41_lzw_codes.md R182). -/
def State.setPrev (s : State) (c : Code) : State := { s with prevCode := some c }

/-- `PHASE <- DRAIN` (41_lzw_codes.md R175). -/
def State.beginDrain (s : State) : State := { s with phase := .drain }

/-! ### Shared operations -/

/-- The information word that names a code (60_exceptions.md R314). -/
def codeInfo (c : Code) : BitVec 16 := c.setWidth 16

/-- A code that references an empty slot: InvalidCode (60_exceptions.md R310 kind 6,
93_implementation_defined.md U7; assumption log 11). -/
def emptySlot {α : Type} (c : Code) (s : State) : Ran α := .raised (s.raise .invalidCode (codeInfo c))

/-- `if prevCode != None and nextCode < 4096: Insert(dict[prevCode] ++ [v])` (41_lzw_codes.md R176,
R181). -/
def insertAfterPrev (c : Code) (v : Byte) (s : State) : Ran Unit :=
  match s.prevCode with
  | none => .ok () s
  | some p =>
    if s.tableFull then .ok () s
    else match s.dict.get p with
      | none => emptySlot c s
      | some ps => .ok () (s.insertEntry (ps.snoc v))

/-- The case `c < nextCode` of the source, shared by ROOT and DICT (41_lzw_codes.md R176, R177). -/
def tableCode (c : Code) (s : State) : Ran Unit :=
  match s.dict.get c with
  | none => emptySlot c s
  | some str =>
    (emitList str.toList s).andThen fun _ s1 =>
      (insertAfterPrev c str.first s1).andThen fun _ s2 => .ok () (s2.setPrev c)

/-- The case `c == nextCode` (41_lzw_codes.md R178). -/
def kwkwkCode (c : Code) (s : State) : Ran Unit :=
  match s.prevCode with
  | none => .raised (s.raise .kwkwkWithoutPrevious (codeInfo c))
  | some p =>
    match s.dict.get p with
    | none => emptySlot c s
    | some ps =>
      (emitList (ps.snoc ps.first).toList s).andThen fun _ s1 =>
        .ok () ((s1.insertEntry (ps.snoc ps.first)).setPrev c)

/-! ### The code classes -/

/-- CLEAR (41_lzw_codes.md R174). -/
def execClear (s : State) : Host.Outcome State Fault Refusal := .next s.initTable

/-- END (41_lzw_codes.md R175): the count check comes before the drain. -/
def execEndInfo (s : State) : Host.Outcome State Fault Refusal :=
  if s.allPixelsIn then .next s.beginDrain else .next (s.raise .truncatedImage 0)

/-- ROOT c (41_lzw_codes.md R176). -/
def execRoot (c : Code) (s : State) : Host.Outcome State Fault Refusal := (tableCode c s).toNext

/-- DICT c (41_lzw_codes.md R177). -/
def execDict (c : Code) (s : State) : Host.Outcome State Fault Refusal := (tableCode c s).toNext

/-- KWKWK c (41_lzw_codes.md R178). -/
def execKwkwk (c : Code) (s : State) : Host.Outcome State Fault Refusal := (kwkwkCode c s).toNext

/-- INVALID c raises InvalidCode (41_lzw_codes.md R179). -/
def execInvalid (c : Code) (s : State) : Host.Outcome State Fault Refusal :=
  .next (s.raise .invalidCode (codeInfo c))

end Sys2Proof.Machine
end

