-- ==== Sys2Proof/Machine/HostCommands.lean ====
section
/-!
DEFINITION. The host commands (44_host_interface.md): START, the RESET input, and the register
reads and writes. A command the spec gives no move while BUSY is refused under a name of its own
(93_implementation_defined.md U15; assumption log 6).
-/

namespace Sys2Proof.Machine

/-! ### Updates -/

/-- The first two lines of START: status to zero (44_host_interface.md R282). -/
def State.clearStatus (s : State) : State :=
  { s with errCode := 0, errInfo := 0, pixCount := 0, bytesConsumed := 0 }

/-- The last lines of START: the input stage cleared, PHASE and STATE set. -/
def State.beginJob (s : State) : State :=
  { s with acc := 0, nbits := 0, sbRemain := 0, phase := .decode, jobState := .busy }

/-- RESET (44_host_interface.md R283, 70_reset_and_hazards.md R350): IDLE, zero status, free values
for what the spec leaves unspecified; IN and the canvas are not changed. -/
def State.resetInput (s : State) : State :=
  { s with
    cfg := drawCfg s.draws
    pal := drawPal s.draws
    jobState := .idle
    errCode := 0
    errInfo := 0
    pixCount := 0
    bytesConsumed := 0
    phase := Config.freePhase s.draws
    codeWidth := Config.freeCodeWidth s.draws
    nextCode := Config.freeNextCode s.draws
    prevCode := Config.freePrevCode s.draws
    dict := Config.freeDict s.draws
    acc := Config.freeAcc s.draws
    nbits := (Config.freeNbits s.draws).val
    sbRemain := Config.freeSbRemain s.draws
    draws := s.draws + 1 }

/-- A configuration register takes the fields of a written word (44_host_interface.md R280). -/
def State.storeCfg (s : State) (r : CfgReg) (v : Word) : State := { s with cfg := s.cfg.store r v }

/-- A palette entry takes bits 23 to 0 of a written word (10_state.md R37). -/
def State.storePal (s : State) (i : Byte) (v : Word) : State :=
  { s with pal := palSet s.pal i (v.setWidth 24) }

/-- A word is returned to the host. -/
def State.reply (s : State) (v : Word) : State := { s with readData := some v }

/-- `START()` without the BUSY duty (44_host_interface.md R282; order of the checks R315). -/
def startJob (s : State) : Ran Unit :=
  if s.cfg.outOfBounds then .raised (s.clearStatus.raise .imageOutOfBounds 0)
  else if s.cfg.badMinCode then
    .raised (s.clearStatus.raise .invalidLzwCodeSize (s.cfg.mincode.setWidth 16))
  else .ok () s.clearStatus.initTable.beginJob

/-! ### The commands -/

/-- START (44_host_interface.md R281, R282); no move while BUSY (R289). The reserved bits of the
value are ignored. -/
def execStart (_reserved : BitVec 31) (s : State) : Host.Outcome State Fault Refusal :=
  if s.isBusy then .refused .startWhileBusy else (startJob s).toNext

/-- CTRL_NOP does nothing, in every state (44_host_interface.md R281, R289). -/
def execCtrlNop (_reserved : BitVec 31) (s : State) : Host.Outcome State Fault Refusal := .next s

/-- RESET, in any state (44_host_interface.md R283). -/
def execReset (s : State) : Host.Outcome State Fault Refusal := .next s.resetInput

/-- CFG_WRITE (44_host_interface.md R280, R284). -/
def execCfgWrite (r : CfgReg) (v : Word) (s : State) : Host.Outcome State Fault Refusal :=
  if s.isBusy then .refused .cfgWriteWhileBusy else .next (s.storeCfg r v)

/-- PAL_WRITE (44_host_interface.md R280, R284). -/
def execPalWrite (i : Byte) (v : Word) (s : State) : Host.Outcome State Fault Refusal :=
  if s.isBusy then .refused .palWriteWhileBusy else .next (s.storePal i v)

/-- STATUS_READ, in every state (44_host_interface.md R285). -/
def execStatusRead (r : StatusReg) (s : State) : Host.Outcome State Fault Refusal :=
  .next (s.reply (statusWord s r))

/-- REG_READ, in every state (44_host_interface.md R280; 70_reset_and_hazards.md R356). -/
def execRegRead (r : ReadReg) (s : State) : Host.Outcome State Fault Refusal :=
  .next (s.reply (readRegWord s r))

/-- RO_WRITE changes nothing and is no error (44_host_interface.md R290). -/
def execRoWrite (_r : StatusReg) (_v : Word) (s : State) : Host.Outcome State Fault Refusal := .next s

/-- UNLISTED is refused (44_host_interface.md R291). -/
def execUnlisted (_a : HostAccess) (_s : State) : Host.Outcome State Fault Refusal :=
  .refused .unlistedRegister

end Sys2Proof.Machine
end

