-- ==== Sys2Proof/Machine/InputStage.lean ====
section
/-!
DEFINITION. The input stage (40_input_stage.md): the sub-block de-framer, the LSB-first bit reader,
the end of a chain, the drain, and the meanings of the framing tokens SB_TERM and SB_DATA.
-/

namespace Sys2Proof.Machine

/-! ### Updates -/

/-- `sbRemain <- L` (40_input_stage.md R144). -/
def State.openSubBlock (s : State) (len : Byte) : State := { s with sbRemain := len }

/-- `sbRemain <- sbRemain - 1`. -/
def State.useDataByte (s : State) : State := { s with sbRemain := s.sbRemain - 1 }

/-- A data byte enters the accumulator above the bits already held (40_input_stage.md R146, R147). -/
def State.pushByte (s : State) (b : Byte) : State :=
  { s with acc := s.acc ||| (b.setWidth 32 <<< s.nbits), nbits := s.nbits + 8 }

/-- `acc <- acc >> w; nbits <- nbits - w` (40_input_stage.md R146). -/
def State.dropBits (s : State) (w : Nat) : State :=
  { s with acc := s.acc >>> w, nbits := s.nbits - w }

/-- `STATE <- DONE`. DESIGN CHOICE (assumption log 21): the datapath keeps the values the job's last
step left, where 44_host_interface.md R288 and 93_implementation_defined.md U13 leave them open. -/
def State.finishJob (s : State) : State := { s with jobState := .done }

/-! ### The de-framer (40_input_stage.md R142) -/

/-- The arm of NextDataByte that reads a data byte of the current sub-block. -/
def dataByte (s : State) : Ran (Option Byte) :=
  (inRead s).andThen fun b s1 => .ok (some b) s1.useDataByte

/-- `NextDataByte()`: a data byte, or none for TERM. -/
def nextDataByte (s : State) : Ran (Option Byte) :=
  if s.sbRemain = 0 then
    (inRead s).andThen fun len s1 =>
      if len = 0 then .ok none s1 else dataByte (s1.openSubBlock len)
  else dataByte s

/-! ### The bit reader (40_input_stage.md R146) -/

/-- The refill loop of ReadCode: true once `w` bits are held, false when the terminator came first.
Each round adds 8 bits, so `w` rounds are always enough. -/
def refill : Nat → Nat → State → Ran Bool
  | 0, _, s => .ok true s
  | rounds + 1, w, s =>
    if w ≤ s.nbits then .ok true s
    else (nextDataByte s).andThen fun b s1 =>
      match b with
      | none => .ok false s1
      | some b => refill rounds w (s1.pushByte b)

/-- `acc[w-1:0]` as a code. -/
def State.lowCode (s : State) (w : Nat) : Code := BitVec.ofNat 12 (s.acc.toNat % 2 ^ w)

/-- `ReadCode(w)`: a code, or none for TERM. -/
def readCode (w : Nat) (s : State) : Ran (Option Code) :=
  (refill w w s).andThen fun full s1 =>
    if full then .ok (some (s1.lowCode w)) (s1.dropBits w) else .ok none s1

/-! ### The end of a chain -/

/-- `TerminateAtTerminator()` (41_lzw_codes.md R184). -/
def terminateAtTerminator (s : State) : Ran Unit :=
  if s.allPixelsIn then .ok () s.finishJob else .raised (s.raise .truncatedImage 0)

/-- What follows a terminator that has just been consumed: in DECODE the job ends by
41_lzw_codes.md R184, in DRAIN by R183. -/
def endOfChain (s : State) : Ran Unit :=
  match s.phase with
  | .decode => terminateAtTerminator s
  | .drain => .ok () s.finishJob

/-- The loop of `SkipToEnd()` with at most `n` bytes of IN left (40_input_stage.md R151): each round
reads one byte, so with none left the read raises. -/
def skipFrom : Nat → State → Ran Unit
  | 0, s => .raised (s.raise .unexpectedEof 0)
  | n + 1, s =>
    (inRead s).andThen fun b s1 =>
      if s.sbRemain = 0 then
        if b = 0 then .ok () s1 else skipFrom n (s1.openSubBlock b)
      else skipFrom n s1.useDataByte

/-- `SkipToEnd()`. -/
def skipToEnd (s : State) : Ran Unit := skipFrom s.inRemaining s

/-- `DrainStep()` (41_lzw_codes.md R183). -/
def drainStep (s : State) : Ran Unit :=
  (skipToEnd s).andThen fun _ s1 => .ok () s1.finishJob

/-! ### The framing tokens as instructions (assumption log 10) -/

/-- SB_TERM (40_input_stage.md R143): the length byte is read, and the chain is at its end. -/
def execSbTerm (s : State) : Host.Outcome State Fault Refusal :=
  ((inRead s).andThen fun _ s1 => endOfChain s1).toNext

/-- SB_DATA (40_input_stage.md R144): the length byte is read and opens a sub-block; each of the
next L data byte reads returns one of its bytes. -/
def execSbData (len : Byte) (s : State) : Host.Outcome State Fault Refusal :=
  ((inRead s).andThen fun _ s1 => .ok () (s1.openSubBlock len)).toNext

end Sys2Proof.Machine
end

