-- ==== Sys2Proof/Machine/Dispatch.lean ====
section
/-!
DEFINITION. exec: one arm per instruction, each one call of its meaning.
-/

namespace Sys2Proof.Machine

def exec (i : Instr) (s : State) : Host.Outcome State Fault Refusal :=
  match i with
  | .clear => Sys2Proof.Machine.execClear s
  | .endInfo => Sys2Proof.Machine.execEndInfo s
  | .root c => Sys2Proof.Machine.execRoot c s
  | .dict c => Sys2Proof.Machine.execDict c s
  | .kwkwk c => Sys2Proof.Machine.execKwkwk c s
  | .invalid c => Sys2Proof.Machine.execInvalid c s
  | .sbTerm => Sys2Proof.Machine.execSbTerm s
  | .sbData len => Sys2Proof.Machine.execSbData len s
  | .start reserved => Sys2Proof.Machine.execStart reserved s
  | .ctrlNop reserved => Sys2Proof.Machine.execCtrlNop reserved s
  | .reset => Sys2Proof.Machine.execReset s
  | .cfgWrite r v => Sys2Proof.Machine.execCfgWrite r v s
  | .palWrite p v => Sys2Proof.Machine.execPalWrite p v s
  | .statusRead r => Sys2Proof.Machine.execStatusRead r s
  | .regRead r => Sys2Proof.Machine.execRegRead r s
  | .roWrite r v => Sys2Proof.Machine.execRoWrite r v s
  | .unlisted a => Sys2Proof.Machine.execUnlisted a s

end Sys2Proof.Machine
end

