-- ==== Sys2Proof/Machine/BlockStep.lean ====
section
/-!
DEFINITION. The two kinds of machine step: a step of the block (44_host_interface.md R287) and a
move of the host or the platform.
-/

namespace Sys2Proof.Machine

/-- `CodeStep()` (41_lzw_codes.md R173): read a code, decode it in the table state, run it. A
terminator met during the read ends the job (R184). -/
def codeStep (s : State) : Host.Outcome State Fault Refusal :=
  match readCode s.codeWidth.toNat s with
  | .raised s1 => .next s1
  | .ok none s1 => (terminateAtTerminator s1).toNext
  | .ok (some c) s1 => exec (decodeCode s1.codeCtx c) s1

/-- `BlockStep()` (44_host_interface.md R287). The block has no step outside BUSY: it waits, and the
state stays as it is (assumption log 1). -/
def blockStep (s : State) : Host.Outcome State Fault Refusal :=
  match s.jobState with
  | .busy =>
    match s.phase with
    | .decode => codeStep s
    | .drain => (drainStep s).toNext
  | .idle => .next s
  | .done => .next s
  | .error => .next s

/-- A host write of a byte of IN, before START only (20_memory.md R80, 70_reset_and_hazards.md
R356). -/
def hostInWrite (offset : Nat) (b : Byte) (s : State) : Host.Outcome State Fault Refusal :=
  if s.isBusy then .refused .inWriteWhileBusy
  else if offset < Config.inCapacity then .next { s with input := s.input.write offset b }
  else .fault .noSuchInputByte

/-- A host write of a byte of the canvas, except while BUSY (20_memory.md R80). -/
def hostCanvasWrite (offset : Nat) (b : Byte) (s : State) : Host.Outcome State Fault Refusal :=
  if s.isBusy then .refused .canvasAccessWhileBusy
  else if offset < Config.canvasCapacity then .next { s with canvas := s.canvas.write offset b }
  else .fault .noSuchCanvasByte

/-- A host read of a byte of the canvas, except while BUSY (20_memory.md R80). -/
def hostCanvasRead (offset : Nat) (s : State) : Host.Outcome State Fault Refusal :=
  if s.isBusy then .refused .canvasAccessWhileBusy
  else if offset < Config.canvasCapacity then
    .next { s with readData := some ((s.canvas.read offset).setWidth 32) }
  else .fault .noSuchCanvasByte

/-- A move of the host or the platform; a pass leaves the step to the block. -/
def hostMove (mv : HostMove) (s : State) : Host.Outcome State Fault Refusal :=
  match mv with
  | .access a => exec (decodeAccess a) s
  | .reset => exec .reset s
  | .inWrite offset b => hostInWrite offset b s
  | .canvasWrite offset b => hostCanvasWrite offset b s
  | .canvasRead offset => hostCanvasRead offset s
  | .pass => blockStep s

/-- The state once the oldest move has been taken from the list. -/
def State.afterMove (s : State) (rest : List HostMove) : State := { s with host := rest }

/-- The next step: the oldest move the host still makes, or, when there is none, the block's. -/
def nextStep (s : State) : Host.Outcome State Fault Refusal :=
  match s.host with
  | [] => blockStep s
  | mv :: rest => hostMove mv (s.afterMove rest)

end Sys2Proof.Machine
end

