-- ==== Sys2Proof/Machine/Load.lean ====
section
/-!
DEFINITION. Placing one instruction so that the very next step runs it (assumption logs 8 and 9):
a host access or the RESET input becomes the oldest host move, a length byte stands at offset 0 of
IN for a draining job, a code stands in the bit accumulator of a decoding job.
-/

namespace Sys2Proof.Machine

/-- A length byte `len` at offset 0, its data bytes and the terminator after it all zero, for a job
in DRAIN, where nothing but framing tokens is run (40_input_stage.md R151). -/
def State.placeLengthByte (s : State) (len : Byte) : State :=
  { s with
    host := .pass :: s.host
    jobState := .busy
    phase := .drain
    sbRemain := 0
    bytesConsumed := 0
    cfg := { s.cfg with inLen := BitVec.ofNat 32 (len.toNat + 2) }
    input := s.input.writeList 0 (len :: List.replicate (len.toNat + 1) 0) }

/-- A code in the accumulator of a job in DECODE, in the table state `tableCtx`: entries 0 to 3, 6
and 7 as the first four codes of program P2 leave them (95_test_vectors.md P2), prevCode 7. -/
def State.placeCode (s : State) (c : Code) : State :=
  { s with
    host := .pass :: s.host
    jobState := .busy
    phase := .decode
    cfg := { s.cfg with mincode := BitVec.ofNat 8 tableCtx.m }
    nextCode := BitVec.ofNat 13 tableCtx.nextCode
    codeWidth := BitVec.ofNat 4 tableCtx.codeWidth
    prevCode := some 7
    dict := ((s.dict.withRoots tableCtx.clearCode).put 6 { first := 0, rest := [0] }).put 7
      { first := 0, rest := [0, 0] }
    acc := c.setWidth 32
    nbits := tableCtx.codeWidth }

/-- Place a table word; a word that is no instruction places nothing. -/
def State.placeTableWord (s : State) (nbits w : Nat) : State :=
  match instrWordOf nbits w with
  | .error _ => s
  | .ok (.code c) => s.placeCode c
  | .ok (.lengthByte b) => s.placeLengthByte b
  | .ok (.access a) => { s with host := .access a :: s.host }
  | .ok .resetInput => { s with host := .reset :: s.host }

end Sys2Proof.Machine
end

