-- ==== Sys2Proof/Machine/Step.lean ====
section
/-!
DEFINITION. One step of the machine, and the host's way to place one instruction.
-/

namespace Sys2Proof.Machine

/-- One step: the oldest move the host still makes, or, when there is none, the block's
(44_host_interface.md R287; assumption log 1). -/
def step (s : State) : Host.Outcome State Fault Refusal := nextStep s

/-- The state in which the next step runs exactly the instruction that a table word spells
(assumption logs 8 and 9). -/
def State.withFetchWord (s : State) (nbits w : Nat) : State := s.placeTableWord nbits w

end Sys2Proof.Machine
end

