-- ==== Sys2Proof/Machine/Assemble.lean ====
section
/-!
DEFINITION. The spec's assembler (30_encoding.md R122, R123): a program of codes to the bytes of
IN. It is the spec's own notation and no part of the block (assumption log 18).
-/

namespace Sys2Proof.Machine

/-- An instruction of the notation (30_encoding.md R122); `code` is `CODE <c>`, any raw value. -/
inductive AsmOp where
  | clear
  | endInfo
  | root (c : Code)
  | dict (c : Code)
  | kwkwk (c : Code)
  | code (c : Code)
  deriving DecidableEq, Repr

/-- A line: an instruction and its optional width check `@w`. -/
structure AsmLine where
  op : AsmOp
  width : Option Nat
  deriving DecidableEq, Repr

/-- A program with its directives `.m`, `.sub` and `.tail`; `.noend` generates nothing. -/
structure AsmProgram where
  m : Nat
  sub : Nat
  lines : List AsmLine
  tail : List Byte
  deriving DecidableEq, Repr

/-- Why a program does not assemble. -/
inductive AsmError where
  /-- A width check disagrees with the width the rules give. -/
  | widthMismatch
  /-- A mnemonic's class is not the class of its value at that point. -/
  | classMismatch
  /-- The value does not fit the width. -/
  | valueTooWide
  /-- `.sub` is not 1 to 255. -/
  | badSubLength
  deriving DecidableEq, Repr

/-- The pseudo-instruction `ROOTS <i1> ... <ik>`. -/
def asmRoots (cs : List Code) : List AsmLine := cs.map fun c => { op := .root c, width := none }

/-- The table state that pass 1 tracks: nextCode and whether a data code came since the reset. -/
structure AsmState where
  nextCode : Nat
  started : Bool
  deriving DecidableEq, Repr

/-- The table state after START or CLEAR. -/
def AsmState.fresh (m : Nat) : AsmState := { nextCode := endCodeOf m + 1, started := false }

/-- The state a code is classified in. DESIGN CHOICE (assumption log 18): the spec does not say
whether `.m` outside 2 to 8 is an assembly error; it is accepted here, and the width is that of
nextCode by 30_encoding.md R118, also where that is not m + 1. -/
def AsmState.ctx (a : AsmState) (m : Nat) : CodeCtx where
  m := m
  nextCode := a.nextCode
  codeWidth := widthOf a.nextCode

/-- The value a line writes. -/
def AsmOp.value (m : Nat) : AsmOp → Code
  | .clear => BitVec.ofNat 12 (clearCodeOf m)
  | .endInfo => BitVec.ofNat 12 (endCodeOf m)
  | .root c => c
  | .dict c => c
  | .kwkwk c => c
  | .code c => c

/-- The instruction a mnemonic claims; none for a raw value. -/
def AsmOp.claims : AsmOp → Option Instr
  | .clear => some .clear
  | .endInfo => some .endInfo
  | .root c => some (.root c)
  | .dict c => some (.dict c)
  | .kwkwk c => some (.kwkwk c)
  | .code _ => none

/-- A code that emits pixels (00_scope.md glossary, data code). -/
def isDataCode : Instr → Bool
  | .root _ => true
  | .dict _ => true
  | .kwkwk _ => true
  | .clear => false
  | .endInfo => false
  | .invalid _ => false
  | .sbTerm => false
  | .sbData _ => false
  | .start _ => false
  | .ctrlNop _ => false
  | .reset => false
  | .cfgWrite _ _ => false
  | .palWrite _ _ => false
  | .statusRead _ => false
  | .regRead _ => false
  | .roWrite _ _ => false
  | .unlisted _ => false

/-- The table state after a code (30_encoding.md R123, pass 1). -/
def AsmState.after (a : AsmState) (m : Nat) (i : Instr) : AsmState :=
  if i = .clear then AsmState.fresh m
  else if isDataCode i then
    { nextCode := if a.started && decide (a.nextCode < Config.dictSize) then a.nextCode + 1
        else a.nextCode
      started := true }
  else a

/-- Pass 1: the width and the value of each code. -/
def asmWidths (m : Nat) : AsmState → List AsmLine → Except AsmError (List (Nat × Code))
  | _, [] => .ok []
  | a, l :: ls =>
    let x := a.ctx m
    let c := l.op.value m
    let i := decodeCode x c
    if 2 ^ x.codeWidth ≤ c.toNat then .error .valueTooWide
    else if l.width.any (fun w => w != x.codeWidth) then .error .widthMismatch
    else if l.op.claims.any (fun j => j != i) then .error .classMismatch
    else match asmWidths m (a.after m i) ls with
      | .error e => .error e
      | .ok rest => .ok ((x.codeWidth, c) :: rest)

/-- The low `w` bits of a number, least significant first. -/
def bitsOf (w v : Nat) : List Bool := (List.range w).map v.testBit

/-- The bits of a code stream (30_encoding.md R113). -/
def streamBits (codes : List (Nat × Code)) : List Bool :=
  codes.flatMap fun e => bitsOf e.1 e.2.toNat

/-- Pass 2: bits to bytes, least significant first, the last byte filled with 0 bits; `acc` holds
the first `n` bits of the byte being filled. -/
def packBits : Nat → Nat → List Bool → List Byte
  | acc, n, [] => if n = 0 then [] else [BitVec.ofNat 8 acc]
  | acc, n, b :: bs =>
    let acc' := acc + (if b then 2 ^ n else 0)
    if n = 7 then BitVec.ofNat 8 acc' :: packBits 0 0 bs else packBits acc' (n + 1) bs

/-- Pass 3: cut the data into sub-blocks of `sub` bytes; `cur` holds the sub-block being filled. -/
def frameData (sub : Nat) : List Byte → List Byte → List Byte
  | cur, [] => if cur = [] then [] else BitVec.ofNat 8 cur.length :: cur
  | cur, b :: bs =>
    let cur' := cur ++ [b]
    if sub ≤ cur'.length then BitVec.ofNat 8 cur'.length :: cur' ++ frameData sub [] bs
    else frameData sub cur' bs

/-- The three passes (30_encoding.md R123). -/
def assemble (p : AsmProgram) : Except AsmError (List Byte) :=
  if p.sub = 0 ∨ 255 < p.sub then .error .badSubLength
  else match asmWidths p.m (AsmState.fresh p.m) p.lines with
    | .error e => .error e
    | .ok codes => .ok (frameData p.sub [] (packBits 0 0 (streamBits codes)) ++ 0 :: p.tail)

end Sys2Proof.Machine
end

