-- ==== Sys2Proof/Machine/Job.lean ====
section
/-!
DEFINITION. The host's job sequence (70_reset_and_hazards.md R354, 44_host_interface.md R286, R292)
as lists of host moves.
-/

namespace Sys2Proof.Machine

/-- What the host hands over for one image (44_host_interface.md R292): the configuration, the
palette, the bytes of IN and the bytes of the canvas. -/
structure Job where
  cfg : Cfg
  pal : Palette
  input : List Byte
  canvas : List Byte
  deriving DecidableEq, Repr

/-- The ten configuration registers in register order (10_state.md R30). -/
def cfgRegs : List CfgReg :=
  [.mincode, .flags, .transpIdx, .screenW, .screenH, .left, .top, .imgW, .imgH, .inLen]

/-- The write of a register. -/
def writeMove (k : Nat) (v : Word) : HostMove := .access (.write k v)

/-- Step 2: write all ten CFG registers. -/
def Job.cfgMoves (j : Job) : List HostMove :=
  cfgRegs.map fun r => writeMove r.number (j.cfg.word r)

/-- Step 3: write PAL[0 .. PAL_LEN - 1]. -/
def Job.palMoves (j : Job) : List HostMove :=
  (List.range j.cfg.palLen).map fun i =>
    writeMove (0x100 + i) ((palGet j.pal (BitVec.ofNat 8 i)).setWidth 32)

/-- Step 4: place the sub-block chain at IN offset 0. -/
def Job.inMoves (j : Job) : List HostMove :=
  j.input.zipIdx.map fun e => .inWrite e.2 e.1

/-- Step 5: the canvas holds the composer's current canvas (70_reset_and_hazards.md R355). -/
def Job.canvasMoves (j : Job) : List HostMove :=
  j.canvas.zipIdx.map fun e => .canvasWrite e.2 e.1

/-- Step 6: write CTRL = 1. -/
def startMove : HostMove := writeMove (Reg.number .ctrl) 1

/-- Step 7: one poll of STATUS, after the block has made a step. -/
def pollMoves : List HostMove := [.pass, .access (.read (StatusReg.number .status))]

/-- Step 8: read ERR_CODE, ERR_INFO, PIX_COUNT and BYTES_CONSUMED. -/
def resultMoves : List HostMove :=
  [StatusReg.errCode, .errInfo, .pixCount, .bytesConsumed].map fun r => .access (.read r.number)

/-- Steps 2 to 6 in the order of the rule. -/
def Job.moves (j : Job) : List HostMove :=
  j.cfgMoves ++ j.palMoves ++ j.inMoves ++ j.canvasMoves ++ [startMove]

end Sys2Proof.Machine
end

