-- ==== Sys2Proof/WellFormed.lean ====
section
/-!
DEFINITION. Which instructions are well formed: the condition column of 30_encoding.md R116 for
the code classes (in a table state), L in 1 to 255 for SB_DATA (R111), and an unlisted number for
UNLISTED (44_host_interface.md R291). Register operands are names, so they need no check.
-/

namespace Sys2Proof

/-- The instruction has an encoding in the table state `x`. -/
def Instr.wellFormed (x : CodeCtx) : Instr → Bool
  | .clear => true
  | .endInfo => true
  | .root c => decide (c.toNat < x.clearCode)
  | .dict c => decide (x.endCode < c.toNat) && decide (c.toNat < x.nextCode)
  | .kwkwk c => decide (c.toNat = x.nextCode)
  | .invalid c => decide (x.nextCode < c.toNat) && decide (c.toNat < 2 ^ x.codeWidth)
  | .sbTerm => true
  | .sbData len => decide (len ≠ 0)
  | .start _ => true
  | .ctrlNop _ => true
  | .reset => true
  | .cfgWrite _ _ => true
  | .palWrite _ _ => true
  | .statusRead _ => true
  | .regRead _ => true
  | .roWrite _ _ => true
  | .unlisted a => decide (regOfNumber a.number = none)

end Sys2Proof
end

