-- ==== Sys2Proof/Safety.lean ====
section
/-!
DEFINITION. The terms claims are stated in: the invariant of the machine, the bits and bytes still
to come from IN, what painting a string means, and small helpers on outcomes.
-/

namespace Sys2Proof.Machine

/-! ### Outcomes -/

/-- The outcome with a function applied to the next state. -/
def mapNext (f : State → State) :
    Host.Outcome State Fault Refusal → Host.Outcome State Fault Refusal
  | .next s => .next (f s)
  | .fault r => .fault r
  | .refused r => .refused r

/-- The result of a part of a step with a function applied to the state it leaves. -/
def mapState {α : Type} (f : State → State) : Ran α → Ran α
  | .ok a s => .ok a (f s)
  | .raised s => .raised (f s)

/-- The steps of a running machine, a fault or a refusal ending it. -/
def thenStep (o : Host.Outcome State Fault Refusal)
    (f : State → Host.Outcome State Fault Refusal) : Host.Outcome State Fault Refusal :=
  match o with
  | .next s => f s
  | .fault r => .fault r
  | .refused r => .refused r

/-- `n` steps of the machine, stopping at the first fault or refusal. -/
def runSteps (n : Nat) (s : State) : Host.Outcome State Fault Refusal :=
  Host.Core.run Sys2Proof.core n s

/-! ### Register fields (10_state.md R30) -/

/-- The bits of a configuration register that are fields; the others are reserved. -/
def fieldMask : CfgReg → Word
  | .mincode => 0xFF
  | .flags => 0x77
  | .transpIdx => 0xFF
  | .screenW => 0xFFFF
  | .screenH => 0xFFFF
  | .left => 0xFFFF
  | .top => 0xFFFF
  | .imgW => 0xFFFF
  | .imgH => 0xFFFF
  | .inLen => 0xFFFFFFFF

/-- Register numbers that 10_state.md R30 does not list (44_host_interface.md R291). -/
abbrev unlistedNumber (k : Nat) : Prop :=
  (0x006 ≤ k ∧ k ≤ 0x00F) ∨ (0x01A ≤ k ∧ k ≤ 0x0FF) ∨ 0x200 ≤ k

/-! ### What is still to come from IN (20_memory.md R81, 30_encoding.md R110, R113) -/

/-- The bytes of IN not read yet, in order. -/
def State.inBytes (s : State) : List Byte :=
  (List.range s.inRemaining).map fun i => s.input.read (s.bytesConsumed.toNat + i)

/-- The data bytes of a chain, up to its terminator or to the end of the bytes; `r` data bytes of
the current sub-block are left (30_encoding.md R110). -/
def dataBytes : Nat → List Byte → List Byte
  | _, [] => []
  | 0, len :: bs => if len = 0 then [] else dataBytes len.toNat bs
  | r + 1, b :: bs => b :: dataBytes r bs

/-- How many bytes there are up to and with the terminator, or none when the bytes end before it. -/
def chainLength : Nat → List Byte → Option Nat
  | _, [] => none
  | 0, len :: bs => if len = 0 then some 1 else (chainLength len.toNat bs).map (· + 1)
  | r + 1, _ :: bs => (chainLength r bs).map (· + 1)

/-- The bits of a data byte, bit 0 first (20_memory.md R84). -/
def byteBits (b : Byte) : List Bool := bitsOf 8 b.toNat

/-- The bits the bit reader will take next: those it holds, then those of the data bytes to come
(30_encoding.md R113). -/
def State.pendingBits (s : State) : List Bool :=
  bitsOf s.nbits s.acc.toNat ++ (dataBytes s.sbRemain.toNat s.inBytes).flatMap byteBits

/-! ### Painting -/

/-- Pixel (px, py) lies in the image rectangle (20_memory.md R83). -/
abbrev Cfg.inRectangle (c : Cfg) (px py : Nat) : Prop :=
  c.left.toNat ≤ px ∧ px < c.left.toNat + c.imgW.toNat ∧
  c.top.toNat ≤ py ∧ py < c.top.toNat + c.imgH.toNat

/-- The four bytes at a canvas offset are those of an opaque pixel (43_palette_mux.md R254). -/
abbrev Memory.holdsPixel (m : Memory) (off : Nat) (c : Colour) : Prop :=
  m.read off = colourRed c ∧ m.read (off + 1) = colourGreen c ∧
  m.read (off + 2) = colourBlue c ∧ m.read (off + 3) = 255

/-- The address `a` is one of the four bytes of the pixel at `off`. -/
abbrev inPixel (off a : Nat) : Prop := off ≤ a ∧ a < off + 4

/-- From `s` to `t` the indices `idxs` were accepted in order: each one that is not transparent is
painted at the address of its ordinal, every other byte of the canvas is as before, and PIX_COUNT
has advanced by their number (43_palette_mux.md R257, 41_lzw_codes.md R189). -/
structure Painted (s t : State) (idxs : List Byte) : Prop where
  count : t.pixCount.toNat = s.pixCount.toNat + idxs.length
  written : ∀ (i : Nat) (h : i < idxs.length), s.cfg.transparent idxs[i] = false →
    t.canvas.holdsPixel (s.cfg.pixelOffset (s.pixCount.toNat + i)) (palGet s.pal idxs[i])
  others : ∀ a : Nat,
    (∀ (i : Nat) (h : i < idxs.length), s.cfg.transparent idxs[i] = false →
      ¬ inPixel (s.cfg.pixelOffset (s.pixCount.toNat + i)) a) →
    t.canvas.read a = s.canvas.read a

/-- All of `idxs` can be accepted: there is room for them and each is below PAL_LEN. -/
abbrev State.accepts (s : State) (idxs : List Byte) : Prop :=
  s.pixCount.toNat + idxs.length ≤ s.cfg.pixels ∧ ∀ v ∈ idxs, v.toNat < s.cfg.palLen

/-- From `s` to `t` the string `str` was inserted at nextCode, nextCode advanced by one, and the
width grew exactly when nextCode reached a power of two below 4096 (41_lzw_codes.md R180). -/
structure Inserted (s t : State) (str : Str) : Prop where
  entry : ∀ c : Code, c.toNat = s.nextCode.toNat → t.dict.get c = some str
  others : ∀ c : Code, c.toNat ≠ s.nextCode.toNat → t.dict.get c = s.dict.get c
  nextCode : t.nextCode.toNat = s.nextCode.toNat + 1
  codeWidth : t.codeWidth.toNat =
    if s.nextCode.toNat + 1 = 2 ^ s.codeWidth.toNat ∧ s.codeWidth.toNat < 12 then
      s.codeWidth.toNat + 1
    else s.codeWidth.toNat

/-- `InitTable()` from `s` to `t` (41_lzw_codes.md R171): the roots, nextCode, codeWidth and prevCode
are reset, the entries from clearCode on are as before. -/
structure TableReset (s t : State) : Prop where
  roots : ∀ c : Code, c.toNat < s.codeCtx.clearCode →
    t.dict.get c = some (Str.single (BitVec.ofNat 8 c.toNat))
  others : ∀ c : Code, s.codeCtx.clearCode ≤ c.toNat → t.dict.get c = s.dict.get c
  nextCode : t.nextCode.toNat = s.codeCtx.endCode + 1
  codeWidth : t.codeWidth.toNat = s.cfg.mincode.toNat + 1
  prevCode : t.prevCode = none

/-- The pass of the schedule an output row belongs to (42_row_address.md R224). -/
def passOfRow (y : Nat) : Nat :=
  if y % 8 = 0 then 1 else if y % 8 = 4 then 2 else if y % 4 = 2 then 3 else 4

/-- The state with CFG_FLAGS.TRANSP_EN at another value. -/
def State.withTranspEn (s : State) (b : Bool) : State :=
  { s with cfg := { s.cfg with transpEn := b } }

/-! ### The invariant -/

/-- The error kinds that the block raises (60_exceptions.md R311). -/
def blockErrors : List ErrorKind :=
  [.unexpectedEof, .invalidLzwCodeSize, .invalidCode, .kwkwkWithoutPrevious,
    .paletteIndexOutOfRange, .truncatedImage, .excessImageData, .imageOutOfBounds]

/-- The code table of a running job (10_state.md R44 to R47; 41_lzw_codes.md R172, R185, R186). -/
structure TableInv (s : State) : Prop where
  ctx : s.codeCtx.ok
  roots : ∀ c : Code, c.toNat < s.codeCtx.clearCode →
    s.dict.get c = some (Str.single (BitVec.ofNat 8 c.toNat))
  entries : ∀ c : Code, s.codeCtx.endCode < c.toNat → c.toNat < s.nextCode.toNat →
    ∃ str, s.dict.get c = some str ∧ (∀ v ∈ str.toList, v.toNat < s.codeCtx.clearCode) ∧
      str.length ≤ c.toNat - s.codeCtx.endCode + 1
  prevNone : s.prevCode = none → s.nextCode.toNat = s.codeCtx.endCode + 1
  prevSome : ∀ p, s.prevCode = some p → p.toNat < s.nextCode.toNat ∧
    p.toNat ≠ s.codeCtx.clearCode ∧ p.toNat ≠ s.codeCtx.endCode

/-- What holds of a state whose job runs. -/
structure JobInv (s : State) : Prop where
  table : TableInv s
  bits : s.nbits ≤ 7
  held : s.acc.toNat < 2 ^ s.nbits
  bytes : s.bytesConsumed.toNat ≤ s.cfg.inLen.toNat
  fits : s.cfg.outOfBounds = false
  pixels : s.pixCount.toNat ≤ s.cfg.pixels
  drained : s.phase = .drain → s.cfg.pixels ≤ s.pixCount.toNat

/-- The invariant of the machine: both memories are in canonical form, ERR_CODE is one the block
raises and is 0 exactly outside ERROR, and a running job is as JobInv says. -/
structure Inv (s : State) : Prop where
  input : s.input.wf
  canvas : s.canvas.wf
  errCode : s.errCode = 0 ∨ ∃ e ∈ blockErrors, s.errCode = errorNumber e
  errState : s.jobState = .error ↔ s.errCode ≠ 0
  job : s.jobState = .busy → JobInv s

end Sys2Proof.Machine
end

