-- ==== Sys2Proof/Certificates/Slice0/Obligations.lean ====
section
/-!
DEFINITION. The statements about the machine, each a Prop for the provers.
-/

open Sys2Proof Sys2Proof.Machine

/-! ### Encoding -/

/-- 30_encoding.md R111, R116, R124: decoding the encoding of a well-formed instruction gives it
back, in every table state a job passes through. -/
def Obligations.DecodeOfEncode : Prop :=
  ∀ (x : CodeCtx) (i : Instr), x.ok → i.wellFormed x = true → decode x (encode x i) = i

/-- The other direction: every code that fits the width (30_encoding.md R116, R119), every length
byte (R111) and every host access (R124; 10_state.md R30; 44_host_interface.md R281, R291) is the
encoding of the instruction it decodes to, which is well formed. That a write to CTRL encodes back to
the same word rests on the operand of START and CTRL_NOP, which is the model's choice (assumption log
19). -/
def Obligations.EncodeOfDecode : Prop :=
  ∀ (x : CodeCtx) (w : InstrWord), x.ok → (∀ c, w = .code c → c.toNat < 2 ^ x.codeWidth) →
    (decode x w).wellFormed x = true ∧ encode x (decode x w) = w

/-- 30_encoding.md R116: the six conditions, each exactly when its class is decoded; and R119: with
the table full no code is KWKWK or INVALID. -/
def Obligations.CodeClassesAreExclusive : Prop :=
  ∀ (x : CodeCtx) (c : Code), x.ok →
    (decodeCode x c = .clear ↔ c.toNat = x.clearCode) ∧
    (decodeCode x c = .endInfo ↔ c.toNat = x.endCode) ∧
    (decodeCode x c = .root c ↔ c.toNat < x.clearCode) ∧
    (decodeCode x c = .dict c ↔ x.endCode < c.toNat ∧ c.toNat < x.nextCode) ∧
    (decodeCode x c = .kwkwk c ↔ c.toNat = x.nextCode) ∧
    (decodeCode x c = .invalid c ↔ x.nextCode < c.toNat) ∧
    (x.nextCode = 4096 → decodeCode x c ≠ .kwkwk c ∧ decodeCode x c ≠ .invalid c)

/-- 10_state.md R30 and 44_host_interface.md R291: each listed register has the number of R30's table,
a number names the register whose number it is, and exactly the numbers R291 gives are unlisted. -/
def Obligations.RegisterMapIsExact : Prop :=
  [Reg.ctrl, .status .status, .status .errCode, .status .errInfo, .status .pixCount,
      .status .bytesConsumed, .cfg .mincode, .cfg .flags, .cfg .transpIdx, .cfg .screenW,
      .cfg .screenH, .cfg .left, .cfg .top, .cfg .imgW, .cfg .imgH, .cfg .inLen].map Reg.number =
    [0x000, 0x001, 0x002, 0x003, 0x004, 0x005, 0x010, 0x011, 0x012, 0x013, 0x014, 0x015, 0x016,
      0x017, 0x018, 0x019] ∧
  (∀ i : Byte, (Reg.pal i).number = 0x100 + i.toNat) ∧
  (∀ r : Reg, regOfNumber r.number = some r) ∧
  (∀ (k : Nat) (r : Reg), regOfNumber k = some r → r.number = k) ∧
  (∀ k : Nat, regOfNumber k = none ↔ unlistedNumber k)

/-- 30_encoding.md R118, 41_lzw_codes.md R180, R185: an insertion that starts with codeWidth at the
width of nextCode ends with codeWidth at the width of the new nextCode, so that the growth test of
Insert is the width function. That function is min(12, bitlen(nextCode)): nextCode below 4096 has
exactly that many binary digits, and 4096 has width 12. -/
def Obligations.WidthFollowsNextCode : Prop :=
  (∀ (s : State) (str : Str), 0 < s.nextCode.toNat → s.nextCode.toNat < 4096 →
    s.codeWidth.toNat = widthOf s.nextCode.toNat →
    (s.insertEntry str).nextCode.toNat = s.nextCode.toNat + 1 ∧
    (s.insertEntry str).codeWidth.toNat = widthOf (s.insertEntry str).nextCode.toNat) ∧
  (∀ n : Nat, 0 < n → n < 4096 →
    2 ^ (widthOf n - 1) ≤ n ∧ n < 2 ^ widthOf n ∧ 1 ≤ widthOf n ∧
    widthOf (n + 1) =
      if n + 1 = 2 ^ widthOf n ∧ widthOf n < 12 then widthOf n + 1 else widthOf n) ∧
  widthOf 4096 = 12

/-- Words written out from 30_encoding.md R117 and R111, 10_state.md R30 and 95_test_vectors.md
(P2's codes at width 4, m = 2, nextCode 8). -/
def Obligations.SampleWordsDecode : Prop :=
  decodeCode { m := 8, nextCode := 258, codeWidth := 9 } 0b000100000000 = .clear ∧
  decodeCode { m := 8, nextCode := 258, codeWidth := 9 } 0b000100000001 = .endInfo ∧
  decodeCode { m := 2, nextCode := 8, codeWidth := 4 } 0b000000000001 = .root 1 ∧
  decodeCode { m := 2, nextCode := 9, codeWidth := 4 } 0b000000001000 = .dict 8 ∧
  decodeCode { m := 2, nextCode := 6, codeWidth := 3 } 0b000000000110 = .kwkwk 6 ∧
  decodeCode { m := 2, nextCode := 6, codeWidth := 3 } 0b000000000111 = .invalid 7 ∧
  decodeLengthByte 0b00000000 = .sbTerm ∧
  decodeLengthByte 0b11111111 = .sbData 255 ∧
  decodeAccess (.write 0x000 0x00000001) = .start 0 ∧
  decodeAccess (.write 0x000 0x00000000) = .ctrlNop 0 ∧
  decodeAccess (.write 0x011 0xFFFFFFFF) = .cfgWrite .flags 0xFFFFFFFF ∧
  decodeAccess (.write 0x105 0xAB123456) = .palWrite 5 0xAB123456 ∧
  decodeAccess (.read 0x004) = .statusRead .pixCount ∧
  decodeAccess (.read 0x019) = .regRead (.cfg .inLen) ∧
  decodeAccess (.write 0x001 3) = .roWrite .status 3 ∧
  decodeAccess (.read 0x006) = .unlisted (.read 0x006)

/-! ### A step runs the decoded instruction -/

/-- 44_host_interface.md R280, R287; 20_memory.md R80: the oldest move of the host is the next step: a
register access is decoded and run, the reset input runs RESET, a store to IN or the canvas and a
read of the canvas act on that byte, a pass leaves the step to the block; and with no move left the
step is the block's. The order of moves is the model's (assumption log 1), and so is their size of
one byte (assumption log 20). -/
def Obligations.StepTakesOldestHostMove : Prop :=
  ∀ (s : State) (rest : List HostMove),
    (∀ a, s.host = .access a :: rest → step s = exec (decodeAccess a) (s.afterMove rest)) ∧
    (s.host = .reset :: rest → step s = exec .reset (s.afterMove rest)) ∧
    (∀ off b, s.host = .inWrite off b :: rest → step s = hostInWrite off b (s.afterMove rest)) ∧
    (∀ off b, s.host = .canvasWrite off b :: rest →
      step s = hostCanvasWrite off b (s.afterMove rest)) ∧
    (∀ off, s.host = .canvasRead off :: rest → step s = hostCanvasRead off (s.afterMove rest)) ∧
    (s.host = .pass :: rest → step s = blockStep (s.afterMove rest)) ∧
    (s.host = [] → step s = blockStep s) ∧
    s.afterMove rest = { s with host := rest }

/-- 41_lzw_codes.md R173: a block step in DECODE reads a code of codeWidth bits and runs the
instruction that the code decodes to in the table state, on the state in which it has been read;
the read leaves the table state as it was. A terminator met in the read, or the end of IN, ends the
job instead. -/
def Obligations.CodeStepRunsDecodedCode : Prop :=
  ∀ s : State, s.jobState = .busy → s.phase = .decode →
    (∀ c t, readCode s.codeWidth.toNat s = .ok (some c) t →
      blockStep s = exec (decodeCode s.codeCtx c) t ∧ t.codeCtx = s.codeCtx) ∧
    (∀ t, readCode s.codeWidth.toNat s = .ok none t →
      blockStep s = (terminateAtTerminator t).toNext) ∧
    (∀ t, readCode s.codeWidth.toNat s = .raised t → blockStep s = .next t)

/-- 40_input_stage.md R142 to R144, R151; 41_lzw_codes.md R183, R184: where a block step needs a byte
and stands at a length byte, it runs the framing token that the byte decodes to: SB_TERM ends the
step, and after SB_DATA the same step goes on. That SB_TERM and SB_DATA as instructions include the
read of the byte, and SB_TERM the end of the job, is the model's deduction (assumption log 10). -/
def Obligations.BlockStepRunsFramingToken : Prop :=
  ∀ s : State, s.jobState = .busy → s.sbRemain = 0 →
    s.bytesConsumed.toNat < s.cfg.inLen.toNat →
    (s.phase = .drain ∨ s.nbits < s.codeWidth.toNat) →
    (decodeLengthByte (s.input.read s.bytesConsumed.toNat) = .sbTerm →
      blockStep s = exec .sbTerm s) ∧
    (∀ len, decodeLengthByte (s.input.read s.bytesConsumed.toNat) = .sbData len →
      blockStep s = thenStep (exec (.sbData len) s) blockStep)

/-! ### The input stage -/

/-- 40_input_stage.md R140: InRead reads the byte at BYTES_CONSUMED and advances by one, or raises
UnexpectedEof and changes nothing else. -/
def Obligations.InReadReadsOrRaises : Prop :=
  ∀ s : State,
    (s.bytesConsumed.toNat < s.cfg.inLen.toNat → ∃ t,
      inRead s = .ok (s.input.read s.bytesConsumed.toNat) t ∧
      t = { s with bytesConsumed := t.bytesConsumed } ∧
      t.bytesConsumed.toNat = s.bytesConsumed.toNat + 1) ∧
    (s.cfg.inLen.toNat ≤ s.bytesConsumed.toNat →
      inRead s = .raised { s with errCode := 2, errInfo := 0, jobState := .error })

/-- 30_encoding.md R113, 40_input_stage.md R146: with at least w bits still to come, ReadCode takes
the next w of them, least significant first, leaves the rest to come, and holds at most 7 bits
afterwards (R150). It writes only acc, nbits, sbRemain and BYTES_CONSUMED. -/
def Obligations.ReadCodeTakesNextBits : Prop :=
  ∀ (s : State) (w : Nat), w ≤ 12 → s.nbits ≤ 7 → s.acc.toNat < 2 ^ s.nbits →
    w ≤ s.pendingBits.length →
    ∃ c t, readCode w s = .ok (some c) t ∧
      bitsOf w c.toNat = s.pendingBits.take w ∧ c.toNat < 2 ^ w ∧
      t.pendingBits = s.pendingBits.drop w ∧
      t.nbits ≤ 7 ∧ t.acc.toNat < 2 ^ t.nbits ∧
      s.bytesConsumed.toNat ≤ t.bytesConsumed.toNat ∧
      t = { s with
            acc := t.acc, nbits := t.nbits, sbRemain := t.sbRemain
            bytesConsumed := t.bytesConsumed }

/-- 40_input_stage.md R149, R152: with fewer than w bits to come, ReadCode answers TERM just past
the terminator when the chain has one, and raises UnexpectedEof at CFG_IN_LEN when it has none. Either
way it writes only acc, nbits, sbRemain and BYTES_CONSUMED (R146), and the error registers and STATE
with the error (60_exceptions.md R312). -/
def Obligations.ReadCodeShortOfBits : Prop :=
  ∀ (s : State) (w : Nat), w ≤ 12 → s.nbits ≤ 7 → s.acc.toNat < 2 ^ s.nbits →
    s.bytesConsumed.toNat ≤ s.cfg.inLen.toNat → s.pendingBits.length < w →
    (∀ n, chainLength s.sbRemain.toNat s.inBytes = some n →
      ∃ t, readCode w s = .ok none t ∧
        t.bytesConsumed.toNat = s.bytesConsumed.toNat + n ∧
        t = { s with
              acc := t.acc, nbits := t.nbits, sbRemain := 0
              bytesConsumed := t.bytesConsumed }) ∧
    (chainLength s.sbRemain.toNat s.inBytes = none →
      ∃ t, readCode w s = .raised t ∧
        t = { s with
              errCode := 2, errInfo := 0, jobState := .error
              acc := t.acc, nbits := t.nbits, sbRemain := t.sbRemain
              bytesConsumed := s.cfg.inLen })

/-- 30_encoding.md R112, 40_input_stage.md R145: the framing is invisible at the code layer: two
states with the same bits to come read the same code and have the same bits to come afterwards,
however the bits are cut into sub-blocks. -/
def Obligations.ChunkingDoesNotChangeCodes : Prop :=
  ∀ (s s' : State) (w : Nat), w ≤ 12 → s.nbits ≤ 7 → s'.nbits ≤ 7 →
    s.acc.toNat < 2 ^ s.nbits → s'.acc.toNat < 2 ^ s'.nbits →
    s.pendingBits = s'.pendingBits → w ≤ s.pendingBits.length →
    ∃ c t t', readCode w s = .ok (some c) t ∧ readCode w s' = .ok (some c) t' ∧
      t.pendingBits = t'.pendingBits

/-- 40_input_stage.md R151, 41_lzw_codes.md R183: a drain step reads up to and with the chain's
terminator and ends in DONE, or raises UnexpectedEof at CFG_IN_LEN; acc, nbits, the table and the
pixels stay. That the datapath stays once the job has ended is the model's choice (assumption log
21). -/
def Obligations.DrainStepSkipsToTerminator : Prop :=
  ∀ s : State, s.jobState = .busy → s.phase = .drain →
    s.bytesConsumed.toNat ≤ s.cfg.inLen.toNat →
    (∀ n, chainLength s.sbRemain.toNat s.inBytes = some n →
      ∃ t, blockStep s = .next t ∧ t.bytesConsumed.toNat = s.bytesConsumed.toNat + n ∧
        t = { s with jobState := .done, sbRemain := 0, bytesConsumed := t.bytesConsumed }) ∧
    (chainLength s.sbRemain.toNat s.inBytes = none →
      ∃ t, blockStep s = .next t ∧
        t = { s with
              jobState := .error, errCode := 2, errInfo := 0
              sbRemain := t.sbRemain, bytesConsumed := s.cfg.inLen })

/-- 40_input_stage.md R143: SB_TERM consumes the length byte; in DRAIN the job is DONE
(41_lzw_codes.md R183), in DECODE it is DONE when every pixel is in and TruncatedImage otherwise
(R184). Nothing else changes. With IN exhausted the read raises UnexpectedEof. SB_TERM as an
instruction is the model's deduction (assumption log 10), and that the datapath stays at the end of
the job is its choice (assumption log 21). -/
def Obligations.SbTermEndsTheChain : Prop :=
  ∀ s : State,
    (s.bytesConsumed.toNat < s.cfg.inLen.toNat → ∃ t, exec .sbTerm s = .next t ∧
      t.bytesConsumed.toNat = s.bytesConsumed.toNat + 1 ∧
      ((s.phase = .drain ∨ s.cfg.pixels ≤ s.pixCount.toNat) →
        t = { s with jobState := .done, bytesConsumed := t.bytesConsumed }) ∧
      ((s.phase = .decode ∧ s.pixCount.toNat < s.cfg.pixels) →
        t = { s with
              jobState := .error, errCode := 9, errInfo := 0
              bytesConsumed := t.bytesConsumed })) ∧
    (s.cfg.inLen.toNat ≤ s.bytesConsumed.toNat →
      exec .sbTerm s = .next { s with errCode := 2, errInfo := 0, jobState := .error })

/-- 40_input_stage.md R144: SB_DATA consumes the length byte and sets sbRemain to it; nothing else
changes. With IN exhausted the read raises UnexpectedEof. SB_DATA as an instruction is the model's
deduction (assumption log 10). -/
def Obligations.SbDataOpensSubBlock : Prop :=
  ∀ (s : State) (len : Byte),
    (s.bytesConsumed.toNat < s.cfg.inLen.toNat → ∃ t, exec (.sbData len) s = .next t ∧
      t.bytesConsumed.toNat = s.bytesConsumed.toNat + 1 ∧
      t = { s with sbRemain := len, bytesConsumed := t.bytesConsumed }) ∧
    (s.cfg.inLen.toNat ≤ s.bytesConsumed.toNat →
      exec (.sbData len) s = .next { s with errCode := 2, errInfo := 0, jobState := .error })

/-! ### The LZW decompressor -/

/-- 41_lzw_codes.md R174, R171: CLEAR resets the table and changes nothing else: not the bit
reader, the de-framer, PIX_COUNT, BYTES_CONSUMED or the canvas. -/
def Obligations.ClearResetsTheTable : Prop :=
  ∀ s : State, 2 ≤ s.cfg.mincode.toNat → s.cfg.mincode.toNat ≤ 8 →
    ∃ t, exec .clear s = .next t ∧ TableReset s t ∧
      t = { s with
            dict := t.dict, nextCode := t.nextCode, codeWidth := t.codeWidth
            prevCode := t.prevCode }

/-- 41_lzw_codes.md R175: END raises TruncatedImage when fewer than N indices were accepted, and
otherwise begins the drain; nothing else changes. -/
def Obligations.EndChecksCountThenDrains : Prop :=
  ∀ s : State,
    (s.cfg.imgW.toNat * s.cfg.imgH.toNat ≤ s.pixCount.toNat →
      exec .endInfo s = .next { s with phase := .drain }) ∧
    (s.pixCount.toNat < s.cfg.imgW.toNat * s.cfg.imgH.toNat →
      exec .endInfo s = .next { s with errCode := 9, errInfo := 0, jobState := .error })

/-- 41_lzw_codes.md R176, R177 where nothing is inserted: ROOT and DICT paint the string of their
code and set prevCode when there is no previous code or the table is full (R181). Every canvas byte
outside the painted pixels, the table and every other register is as before. -/
def Obligations.TableCodeEmitsWithoutInsertion : Prop :=
  ∀ (s : State) (c : Code) (str : Str) (i : Instr), (i = .root c ∨ i = .dict c) →
    s.cfg.outOfBounds = false → s.dict.get c = some str → s.accepts str.toList →
    (s.prevCode = none ∨ 4096 ≤ s.nextCode.toNat) →
    ∃ t, exec i s = .next t ∧ Painted s t str.toList ∧
      t = { s with pixCount := t.pixCount, canvas := t.canvas, prevCode := some c }

/-- 41_lzw_codes.md R176, R177, R180, R182: with a previous code and room in the table, ROOT and
DICT paint the string of their code, insert the previous string extended by its first element, and
set prevCode. Every canvas byte outside the painted pixels and every other register is as before. -/
def Obligations.TableCodeEmitsAndInserts : Prop :=
  ∀ (s : State) (c p : Code) (str ps : Str) (i : Instr), (i = .root c ∨ i = .dict c) →
    s.cfg.outOfBounds = false → s.dict.get c = some str → s.accepts str.toList →
    s.prevCode = some p → s.dict.get p = some ps → s.nextCode.toNat < 4096 →
    ∃ t, exec i s = .next t ∧ Painted s t str.toList ∧ Inserted s t (ps.snoc str.first) ∧
      t = { s with
            pixCount := t.pixCount, canvas := t.canvas, dict := t.dict
            nextCode := t.nextCode, codeWidth := t.codeWidth, prevCode := some c }

/-- 41_lzw_codes.md R178: with a previous code, KWKWK paints the previous string extended by its own
first element, inserts that string and sets prevCode; the frame is that of ROOT and DICT. -/
def Obligations.KwkwkEmitsAndInserts : Prop :=
  ∀ (s : State) (c p : Code) (ps : Str),
    s.cfg.outOfBounds = false → s.prevCode = some p → s.dict.get p = some ps →
    s.accepts (ps.snoc ps.first).toList → s.nextCode.toNat < 4096 →
    ∃ t, exec (.kwkwk c) s = .next t ∧ Painted s t (ps.snoc ps.first).toList ∧
      Inserted s t (ps.snoc ps.first) ∧
      t = { s with
            pixCount := t.pixCount, canvas := t.canvas, dict := t.dict
            nextCode := t.nextCode, codeWidth := t.codeWidth, prevCode := some c }

/-- 41_lzw_codes.md R178, R179, 60_exceptions.md R314: KWKWK without a previous code and INVALID
raise before any emission, with the code in ERR_INFO; nothing else changes. -/
def Obligations.IllegalCodesRaise : Prop :=
  ∀ (s : State) (c : Code),
    (s.prevCode = none → exec (.kwkwk c) s =
      .next { s with errCode := 7, errInfo := c.setWidth 16, jobState := .error }) ∧
    exec (.invalid c) s =
      .next { s with errCode := 6, errInfo := c.setWidth 16, jobState := .error }

/-- 41_lzw_codes.md R189, 60_exceptions.md R312, R317: the first element that cannot be accepted
ends a data code: the elements before it are painted, there is no insertion and no prevCode update.
ExcessImageData comes before PaletteIndexOutOfRange. -/
def Obligations.RejectedElementEndsDataCode : Prop :=
  ∀ (s : State) (c : Code) (str : Str) (good bad : List Byte) (idx : Byte) (i : Instr),
    ((i = .root c ∨ i = .dict c) ∧ s.dict.get c = some str) ∨
      (i = .kwkwk c ∧ ∃ p ps, s.prevCode = some p ∧ s.dict.get p = some ps ∧
        str = ps.snoc ps.first) →
    s.cfg.outOfBounds = false → str.toList = good ++ idx :: bad → s.accepts good →
    (s.cfg.pixels ≤ s.pixCount.toNat + good.length →
      ∃ t, exec i s = .next t ∧ Painted s t good ∧
        t = { s with
              errCode := 10, errInfo := 0, jobState := .error
              pixCount := t.pixCount, canvas := t.canvas }) ∧
    (s.pixCount.toNat + good.length < s.cfg.pixels → s.cfg.palLen ≤ idx.toNat →
      ∃ t, exec i s = .next t ∧ Painted s t good ∧
        t = { s with
              errCode := 8, errInfo := idx.setWidth 16, jobState := .error
              pixCount := t.pixCount, canvas := t.canvas })

/-- 93_implementation_defined.md U7: a code that references an empty slot raises InvalidCode. No
running job reaches it (90_conflicts.md C5); assumption log 11. -/
def Obligations.EmptySlotRaisesInvalidCode : Prop :=
  ∀ (s : State) (c : Code) (i : Instr), (i = .root c ∨ i = .dict c) → s.dict.get c = none →
    exec i s = .next { s with errCode := 6, errInfo := c.setWidth 16, jobState := .error }

/-! ### The row address generator and the pixel pipeline -/

/-- 42_row_address.md R222, R223, R227: ROWMAP is the identity with INTERLACE = 0 and the interlaced
map with INTERLACE = 1, and a bijection of the rows below Ih either way. -/
def Obligations.RowMapIsBijection : Prop :=
  ∀ c : Cfg,
    (c.interlace = false → ∀ r, c.rowMap r = r) ∧
    (c.interlace = true → ∀ r, c.rowMap r = rowMapInterlaced r c.imgH.toNat) ∧
    (∀ r, r < c.imgH.toNat → c.rowMap r < c.imgH.toNat) ∧
    (∀ r r', r < c.imgH.toNat → r' < c.imgH.toNat → c.rowMap r = c.rowMap r' → r = r') ∧
    (∀ y, y < c.imgH.toNat → ∃ r, r < c.imgH.toNat ∧ c.rowMap r = y)

/-- 42_row_address.md R224: logical rows are assigned to all of pass 1's rows, then pass 2's, then
pass 3's, then pass 4's, in increasing order within each pass; every output row below Ih is one. -/
def Obligations.InterlaceFollowsPassSchedule : Prop :=
  ∀ ih : Nat,
    (∀ y, y < ih → ∃ r, r < ih ∧ rowMapInterlaced r ih = y) ∧
    (∀ r r' : Nat, r < r' → r' < ih →
      passOfRow (rowMapInterlaced r ih) < passOfRow (rowMapInterlaced r' ih) ∨
      (passOfRow (rowMapInterlaced r ih) = passOfRow (rowMapInterlaced r' ih) ∧
        rowMapInterlaced r ih < rowMapInterlaced r' ih))

/-- 42_row_address.md R228: the sequential generator yields the same output row for every logical
row. -/
def Obligations.SequentialGeneratorAgrees : Prop :=
  ∀ ih r : Nat, r < ih → (RowGen.at ih r).y = rowMapInterlaced r ih

/-- 42_row_address.md R225, R226, R227: each ordinal p below N has the pixel of column p mod Iw and of
the row that INTERLACE gives p div Iw, in the rectangle; its four bytes start at 4 * (py * W + px)
and lie in the canvas, and no two ordinals share one. -/
def Obligations.PixelAddressesAreDistinct : Prop :=
  ∀ (c : Cfg) (p : Nat), c.outOfBounds = false → p < c.pixels →
    c.pixelX p = c.left.toNat + p % c.imgW.toNat ∧
    (c.interlace = false → c.pixelY p = c.top.toNat + p / c.imgW.toNat) ∧
    (c.interlace = true →
      c.pixelY p = c.top.toNat + rowMapInterlaced (p / c.imgW.toNat) c.imgH.toNat) ∧
    c.pixelOffset p = 4 * (c.pixelY p * c.screenW.toNat + c.pixelX p) ∧
    c.inRectangle (c.pixelX p) (c.pixelY p) ∧
    c.pixelOffset p + 3 < 4 * c.screenW.toNat * c.screenH.toNat ∧
    ∀ p', p' < c.pixels → p' ≠ p →
      c.pixelOffset p' + 4 ≤ c.pixelOffset p ∨ c.pixelOffset p + 4 ≤ c.pixelOffset p'

/-- 43_palette_mux.md R257, 60_exceptions.md R317: the per-index operation: excess check, range check
against PAL_LEN (R250: 2^(PAL_SIZE + 1) with PAL_PRESENT = 1, else 0), transparency, write of bits 23
to 16, 15 to 8 and 7 to 0 of PAL[idx] and of 255 (R252, R254), and the count. On an error nothing is written and nothing is counted. -/
def Obligations.EmitFollowsThePipeline : Prop :=
  ∀ (s : State) (idx : Byte),
    (s.cfg.imgW.toNat * s.cfg.imgH.toNat ≤ s.pixCount.toNat →
      emit idx s = .raised { s with errCode := 10, errInfo := 0, jobState := .error }) ∧
    (s.pixCount.toNat < s.cfg.imgW.toNat * s.cfg.imgH.toNat →
      (if s.cfg.palPresent then 2 ^ (s.cfg.palSize.toNat + 1) else 0) ≤ idx.toNat →
      emit idx s =
        .raised { s with errCode := 8, errInfo := idx.setWidth 16, jobState := .error }) ∧
    (s.pixCount.toNat < s.cfg.imgW.toNat * s.cfg.imgH.toNat →
      idx.toNat < (if s.cfg.palPresent then 2 ^ (s.cfg.palSize.toNat + 1) else 0) →
      ∃ t, emit idx s = .ok () t ∧ t.pixCount.toNat = s.pixCount.toNat + 1 ∧
        t = { s with pixCount := t.pixCount, canvas := t.canvas } ∧
        ((s.cfg.transpEn = true ∧ idx = s.cfg.transpIdx) → t.canvas = s.canvas) ∧
        (¬ (s.cfg.transpEn = true ∧ idx = s.cfg.transpIdx) →
          t.canvas.read (s.cfg.pixelOffset s.pixCount.toNat) =
            (palGet s.pal idx).extractLsb' 16 8 ∧
          t.canvas.read (s.cfg.pixelOffset s.pixCount.toNat + 1) =
            (palGet s.pal idx).extractLsb' 8 8 ∧
          t.canvas.read (s.cfg.pixelOffset s.pixCount.toNat + 2) =
            (palGet s.pal idx).extractLsb' 0 8 ∧
          t.canvas.read (s.cfg.pixelOffset s.pixCount.toNat + 3) = 255 ∧
          ∀ a, ¬ inPixel (s.cfg.pixelOffset s.pixCount.toNat) a →
            t.canvas.read a = s.canvas.read a))

/-- 43_palette_mux.md R259: a transparent index at or above PAL_LEN has no effect, whatever TRANSP_EN
says: for every index and every state, emit does the same, up to that flag, with TRANSP_EN at either
value. An index equal to it raises PaletteIndexOutOfRange rather than being skipped, and one below
PAL_LEN is painted and counted. -/
def Obligations.TransparentIndexAbovePaletteIsInert : Prop :=
  ∀ (s : State) (idx : Byte), s.cfg.palLen ≤ s.cfg.transpIdx.toNat →
    (∀ b : Bool,
      emit idx (s.withTranspEn b) = mapState (fun t => t.withTranspEn b) (emit idx s)) ∧
    (s.pixCount.toNat < s.cfg.pixels →
      (idx = s.cfg.transpIdx → emit idx s =
        .raised { s with errCode := 8, errInfo := idx.setWidth 16, jobState := .error }) ∧
      (idx.toNat < s.cfg.palLen →
        ∃ t, emit idx s = .ok () t ∧ t.pixCount.toNat = s.pixCount.toNat + 1 ∧
          t = { s with pixCount := t.pixCount, canvas := t.canvas } ∧
          t.canvas.holdsPixel (s.cfg.pixelOffset s.pixCount.toNat) (palGet s.pal idx) ∧
          ∀ a, ¬ inPixel (s.cfg.pixelOffset s.pixCount.toNat) a →
            t.canvas.read a = s.canvas.read a))

/-! ### The host interface -/

/-- 44_host_interface.md R282, R315: START in a state that is not BUSY. With the rectangle on the
screen and m in 2 to 8 the job begins; otherwise the first failing check is raised, the bounds
first. The configuration, the palette, IN and the canvas stay. -/
def Obligations.StartBeginsJobOrRaises : Prop :=
  ∀ (s : State) (v : BitVec 31), s.jobState ≠ .busy →
    (s.cfg.left.toNat + s.cfg.imgW.toNat ≤ s.cfg.screenW.toNat →
      s.cfg.top.toNat + s.cfg.imgH.toNat ≤ s.cfg.screenH.toNat →
      2 ≤ s.cfg.mincode.toNat → s.cfg.mincode.toNat ≤ 8 →
      ∃ t, exec (.start v) s = .next t ∧ TableReset s t ∧
        t = { s with
              dict := t.dict, nextCode := t.nextCode, codeWidth := t.codeWidth
              prevCode := t.prevCode
              errCode := 0, errInfo := 0, pixCount := 0, bytesConsumed := 0
              acc := 0, nbits := 0, sbRemain := 0, phase := .decode, jobState := .busy }) ∧
    ((s.cfg.screenW.toNat < s.cfg.left.toNat + s.cfg.imgW.toNat ∨
        s.cfg.screenH.toNat < s.cfg.top.toNat + s.cfg.imgH.toNat) →
      exec (.start v) s = .next { s with
        errCode := 11, errInfo := 0, pixCount := 0, bytesConsumed := 0, jobState := .error }) ∧
    (s.cfg.left.toNat + s.cfg.imgW.toNat ≤ s.cfg.screenW.toNat →
      s.cfg.top.toNat + s.cfg.imgH.toNat ≤ s.cfg.screenH.toNat →
      (s.cfg.mincode.toNat < 2 ∨ 8 < s.cfg.mincode.toNat) →
      exec (.start v) s = .next { s with
        errCode := 5, errInfo := s.cfg.mincode.setWidth 16, pixCount := 0, bytesConsumed := 0
        jobState := .error })

/-- 44_host_interface.md R281: bit 0 of a write to CTRL tells START from CTRL_NOP, bits 1 to 31 are
ignored, CTRL_NOP does nothing, and CTRL reads 0. -/
def Obligations.CtrlWritesAndReads : Prop :=
  ∀ (s : State) (v : Word),
    (v.getLsbD 0 = true → decodeAccess (.write 0x000 v) = .start (v.extractLsb' 1 31)) ∧
    (v.getLsbD 0 = false → decodeAccess (.write 0x000 v) = .ctrlNop (v.extractLsb' 1 31) ∧
      exec (decodeAccess (.write 0x000 v)) s = .next s) ∧
    (∀ a b : BitVec 31, exec (.start a) s = exec (.start b) s) ∧
    exec (decodeAccess (.read 0x000)) s = .next { s with readData := some 0 }

/-- 44_host_interface.md R284: a write of a configuration register stores its fields and a write of
a palette entry stores bits 23 to 0, when STATE is not BUSY; every other register and the whole
datapath stay. While BUSY there is no move: the model refuses it (assumption log 6). -/
def Obligations.ConfigurationWrites : Prop :=
  ∀ (s : State) (r : CfgReg) (i : Byte) (v : Word),
    (s.jobState ≠ .busy →
      (∃ t, exec (.cfgWrite r v) s = .next t ∧ t.cfg.word r = v &&& fieldMask r ∧
        (∀ r', r' ≠ r → t.cfg.word r' = s.cfg.word r') ∧ t = { s with cfg := t.cfg }) ∧
      (∃ t, exec (.palWrite i v) s = .next t ∧ palGet t.pal i = v.setWidth 24 ∧
        (∀ i', i' ≠ i → palGet t.pal i' = palGet s.pal i') ∧ t = { s with pal := t.pal })) ∧
    (s.jobState = .busy →
      exec (.cfgWrite r v) s = .refused .cfgWriteWhileBusy ∧
      exec (.palWrite i v) s = .refused .palWriteWhileBusy)

/-- 44_host_interface.md R289: no START while BUSY (the model refuses it, assumption log 6); a write
to CTRL with bit 0 clear does nothing while BUSY. -/
def Obligations.StartWhileBusyIsNoMove : Prop :=
  ∀ (s : State) (v : BitVec 31), s.jobState = .busy →
    exec (.start v) s = .refused .startWhileBusy ∧ exec (.ctrlNop v) s = .next s

/-- 44_host_interface.md R285, 10_state.md R38 to R42: a status read returns the register's current
value, in every state, and has no other effect. -/
def Obligations.StatusReadReturnsValue : Prop :=
  ∀ s : State,
    exec (.statusRead .status) s = .next { s with readData := some (match s.jobState with
      | .idle => 0 | .busy => 1 | .done => 2 | .error => 3) } ∧
    exec (.statusRead .errCode) s = .next { s with readData := some (s.errCode.setWidth 32) } ∧
    exec (.statusRead .errInfo) s = .next { s with readData := some (s.errInfo.setWidth 32) } ∧
    exec (.statusRead .pixCount) s = .next { s with readData := some s.pixCount } ∧
    exec (.statusRead .bytesConsumed) s = .next { s with readData := some s.bytesConsumed }

/-- 44_host_interface.md R280: a read of a configuration register returns the fields last written
with reserved bits 0, and a read of a palette entry returns its 24 bits; a read has no other
effect. -/
def Obligations.RegisterReadsBackWhatWasWritten : Prop :=
  ∀ (s : State) (r : CfgReg) (i : Byte) (v : Word), s.jobState ≠ .busy →
    (∃ t, exec (.cfgWrite r v) s = .next t ∧
      exec (.regRead (.cfg r)) t = .next { t with readData := some (v &&& fieldMask r) }) ∧
    (∃ t, exec (.palWrite i v) s = .next t ∧
      exec (.regRead (.pal i)) t = .next { t with readData := some (v &&& 0xFFFFFF) })

/-- 44_host_interface.md R280, 10_state.md R31 to R37: in every state a register read returns the
register's fields in their places with the reserved bits 0, and has no other effect. -/
def Obligations.RegisterReadReturnsFields : Prop :=
  ∀ (s : State) (i : Byte),
    (∃ v, exec (.regRead (.cfg .flags)) s = .next { s with readData := some v } ∧
      v &&& ~~~(fieldMask .flags) = 0 ∧ v.getLsbD 0 = s.cfg.interlace ∧
      v.getLsbD 1 = s.cfg.transpEn ∧ v.getLsbD 2 = s.cfg.palPresent ∧
      v.extractLsb' 4 3 = s.cfg.palSize) ∧
    [CfgReg.mincode, .transpIdx, .screenW, .screenH, .left, .top, .imgW, .imgH, .inLen].map
        (fun r => exec (.regRead (.cfg r)) s) =
      [s.cfg.mincode.setWidth 32, s.cfg.transpIdx.setWidth 32, s.cfg.screenW.setWidth 32,
        s.cfg.screenH.setWidth 32, s.cfg.left.setWidth 32, s.cfg.top.setWidth 32,
        s.cfg.imgW.setWidth 32, s.cfg.imgH.setWidth 32, s.cfg.inLen].map
        (fun v => .next { s with readData := some v }) ∧
    exec (.regRead (.pal i)) s =
      .next { s with readData := some ((palGet s.pal i).setWidth 32) } ∧
    exec (.regRead .ctrl) s = .next { s with readData := some 0 }

/-- 44_host_interface.md R290: a host write to a read-only register changes nothing. -/
def Obligations.ReadOnlyWritesAreIgnored : Prop :=
  ∀ (s : State) (r : StatusReg) (v : Word),
    decodeAccess (.write r.number v) = .roWrite r v ∧ exec (.roWrite r v) s = .next s

/-- 44_host_interface.md R291: an access to an unlisted register number is refused. -/
def Obligations.UnlistedAccessIsRefused : Prop :=
  ∀ (s : State) (k : Nat) (v : Word), unlistedNumber k →
    exec (decodeAccess (.read k)) s = .refused .unlistedRegister ∧
    exec (decodeAccess (.write k v)) s = .refused .unlistedRegister ∧
    decodeAccess (.read k) = .unlisted (.read k) ∧
    decodeAccess (.write k v) = .unlisted (.write k v)

/-- 44_host_interface.md R283, 70_reset_and_hazards.md R350: RESET in any state goes to IDLE with zero
status, keeps IN and the canvas, and no further write of the canvas happens. What the spec leaves
unspecified is free (assumption log 3). That the host's moves and readData stay is the model's
deduction (assumption log 15), and that the block's step then leaves the state as it is is its choice
(assumption log 1). -/
def Obligations.ResetAbandonsTheJob : Prop :=
  ∀ s : State, ∃ t, exec .reset s = .next t ∧
    t.jobState = .idle ∧ t.errCode = 0 ∧ t.errInfo = 0 ∧ t.pixCount = 0 ∧ t.bytesConsumed = 0 ∧
    t.input = s.input ∧ t.canvas = s.canvas ∧ t.host = s.host ∧ t.readData = s.readData ∧
    blockStep t = .next t

/-- 44_host_interface.md R288, 60_exceptions.md R313: the block takes no step outside BUSY. That the
model's step then leaves the state as it is is its own choice (assumption log 1). -/
def Obligations.BlockWaitsOutsideBusy : Prop :=
  ∀ s : State, s.jobState ≠ .busy → blockStep s = .next s

/-- 20_memory.md R80, 70_reset_and_hazards.md R356: outside BUSY the host stores bytes of IN and
reads and stores bytes of the canvas; while BUSY each of these is refused (assumption log 6). That an
offset exists when some configuration has it, whatever CFG_IN_LEN and the screen size are now, is the
model's deduction (assumption log 5), and the size of one byte (assumption log 20) and the byte read
standing zero-extended in readData (assumption log 7) are its choices. -/
def Obligations.HostMemoryAccess : Prop :=
  ∀ (s : State) (off : Nat) (b : Byte),
    (s.jobState ≠ .busy → off < 2 ^ 32 - 1 → ∃ t, hostInWrite off b s = .next t ∧
      t.input.read off = b ∧ (∀ a, a ≠ off → t.input.read a = s.input.read a) ∧
      t = { s with input := t.input }) ∧
    (s.jobState ≠ .busy → off < 4 * 65535 * 65535 →
      (∃ t, hostCanvasWrite off b s = .next t ∧ t.canvas.read off = b ∧
        (∀ a, a ≠ off → t.canvas.read a = s.canvas.read a) ∧ t = { s with canvas := t.canvas }) ∧
      hostCanvasRead off s =
        .next { s with readData := some ((s.canvas.read off).setWidth 32) }) ∧
    (s.jobState = .busy → hostInWrite off b s = .refused .inWriteWhileBusy ∧
      hostCanvasWrite off b s = .refused .canvasAccessWhileBusy ∧
      hostCanvasRead off s = .refused .canvasAccessWhileBusy)

/-- 70_reset_and_hazards.md R354, 44_host_interface.md R286: the job sequence. From a state that is
not BUSY, the host's moves load the configuration, the palette below PAL_LEN, IN and the canvas, and
the last one is START. The list of moves is the model's choice (assumption log 1), so is storing byte
by byte (assumption log 20), and that bytes beyond CFG_IN_LEN or 4 * W * H can be stored too is its
deduction (assumption log 5). -/
def Obligations.JobSequenceLoadsTheJob : Prop :=
  ∀ (s : State) (j : Job), s.jobState ≠ .busy → s.host = j.moves →
    j.input.length ≤ 2 ^ 32 - 1 → j.canvas.length ≤ 4 * 65535 * 65535 →
    ∃ u, runSteps (j.moves.length - 1) s = .next u ∧ u.cfg = j.cfg ∧
      (∀ i : Byte, i.toNat < j.cfg.palLen → palGet u.pal i = palGet j.pal i) ∧
      (∀ (a : Nat) (h : a < j.input.length), u.input.read a = j.input[a]) ∧
      (∀ (a : Nat) (h : a < j.canvas.length), u.canvas.read a = j.canvas[a]) ∧
      u.jobState = s.jobState ∧ step u = exec (.start 0) { u with host := [] }

/-! ### Errors -/

/-- 60_exceptions.md R310, R312: raising writes the kind's number, the information word and STATE =
ERROR, and nothing else; the numbers are the table's. -/
def Obligations.RaiseWritesTheErrorRegisters : Prop :=
  (∀ (s : State) (e : ErrorKind) (info : BitVec 16),
    s.raise e info = { s with errCode := errorNumber e, errInfo := info, jobState := .error }) ∧
  [ErrorKind.badSignature, .unexpectedEof, .unknownBlock, .unknownExtensionLabel,
    .invalidLzwCodeSize, .invalidCode, .kwkwkWithoutPrevious, .paletteIndexOutOfRange,
    .truncatedImage, .excessImageData, .imageOutOfBounds].map errorNumber =
    [1, 2, 3, 4, 5, 6, 7, 8, 9, 10, 11]

/-- 60_exceptions.md R311: no step of the machine leaves 1, 3, 4 or a number above 11 in ERR_CODE,
from a state whose ERR_CODE is none of them. -/
def Obligations.OnlyBlockErrorsAreRaised : Prop :=
  ∀ s t : State, step s = .next t → s.errCode ∉ [1, 3, 4] → s.errCode.toNat ≤ 11 →
    t.errCode ∉ [1, 3, 4] ∧ t.errCode.toNat ≤ 11

/-- 10_state.md R38, 60_exceptions.md R313: STATE changes only by START out of a state that is not
BUSY, by the block's own steps out of BUSY, and by RESET. -/
def Obligations.JobStateChangesOnlyAsListed : Prop :=
  ∀ s t : State, step s = .next t →
    t.jobState = s.jobState ∨
    (s.jobState = .busy ∧ (t.jobState = .done ∨ t.jobState = .error) ∧
      (s.host = [] ∨ ∃ rest, s.host = .pass :: rest)) ∨
    (s.jobState ≠ .busy ∧ (t.jobState = .busy ∨ t.jobState = .error) ∧
      ∃ v rest, v.getLsbD 0 = true ∧ s.host = .access (.write 0x000 v) :: rest) ∨
    (t.jobState = .idle ∧ ∃ rest, s.host = .reset :: rest)

/-! ### The whole machine -/

/-- 10_state.md section 6: the state after reset has the values the spec gives, and meets the
invariant. -/
def Obligations.ResetMeetsInvariant : Prop :=
  State.reset.jobState = .idle ∧ State.reset.errCode = 0 ∧ State.reset.errInfo = 0 ∧
  State.reset.pixCount = 0 ∧ State.reset.bytesConsumed = 0 ∧ Inv State.reset

/-- Every step, of the block, the host or the platform, keeps the invariant: canonical memories, a
legal ERR_CODE, and for a running job the table of 41_lzw_codes.md R172, R185, R186, the bit
reader's bounds of 40_input_stage.md R150, BYTES_CONSUMED within CFG_IN_LEN and PIX_COUNT within N. -/
def Obligations.StepKeepsInvariant : Prop :=
  ∀ s t : State, Inv s → step s = .next t → Inv t

/-- 41_lzw_codes.md R188: the job always ends, and within the bound: from the state START leaves
(nbits = 0, BYTES_CONSUMED = 0) in at most floor(8 * CFG_IN_LEN / 3) + 2 block steps; and from any
state of a running job in correspondingly fewer. -/
def Obligations.JobEndsWithinBound : Prop :=
  ∀ s : State, Inv s → s.jobState = .busy → s.host = [] →
    ∃ k t, k ≤ (8 * s.inRemaining + s.nbits) / 3 + 2 ∧ runSteps k s = .next t ∧
      (t.jobState = .done ∨ t.jobState = .error)

/-- 44_host_interface.md R288, 40_input_stage.md R148: a block step that ends in DONE has accepted
exactly N indices, and the last byte of IN it read is the chain's terminator: the bytes it read are
those of the chain up to and with the terminator, and BYTES_CONSUMED is the offset just past it. -/
def Obligations.DoneMeansComplete : Prop :=
  ∀ s t : State, Inv s → s.jobState = .busy → blockStep s = .next t → t.jobState = .done →
    t.pixCount.toNat = t.cfg.pixels ∧
    s.bytesConsumed.toNat < t.bytesConsumed.toNat ∧
    chainLength s.sbRemain.toNat s.inBytes =
      some (t.bytesConsumed.toNat - s.bytesConsumed.toNat) ∧
    t.bytesConsumed.toNat ≤ t.cfg.inLen.toNat ∧
    t.input.read (t.bytesConsumed.toNat - 1) = 0 ∧ t.errCode = 0

/-- 10_state.md R42, R50, R51; 20_memory.md R93: a block step changes no configuration register, no
palette entry, no byte of IN and nothing of the host's side, and the position in IN only moves
forward. -/
def Obligations.BlockStepKeepsHostState : Prop :=
  ∀ s t : State, Inv s → s.jobState = .busy → blockStep s = .next t →
    t.cfg = s.cfg ∧ t.pal = s.pal ∧ t.input = s.input ∧ t.host = s.host ∧
    t.readData = s.readData ∧ t.draws = s.draws ∧
    s.bytesConsumed.toNat ≤ t.bytesConsumed.toNat ∧
    t.bytesConsumed.toNat ≤ s.cfg.inLen.toNat ∧ s.pixCount.toNat ≤ t.pixCount.toNat ∧
    t.pixCount.toNat ≤ s.cfg.pixels

/-- While BUSY the block always has a step: it never faults, is never refused, and is never stuck
(44_host_interface.md R287, 41_lzw_codes.md R188). -/
def Obligations.BlockStepIsAlwaysEnabled : Prop :=
  ∀ s : State, ∃ t, blockStep s = .next t ∧ (s.jobState = .busy → Inv s → t ≠ s)

/-- 20_memory.md R83, 43_palette_mux.md R255: a block step writes the canvas only at pixels of the
image rectangle, and each of those pixels keeps its four bytes or has alpha 255. -/
def Obligations.BlockStepPaintsOnlyTheRectangle : Prop :=
  ∀ s t : State, Inv s → s.jobState = .busy → blockStep s = .next t →
    (∀ a, (∀ px py, s.cfg.inRectangle px py → ¬ inPixel (s.cfg.byteOffset px py) a) →
      t.canvas.read a = s.canvas.read a) ∧
    (∀ px py, s.cfg.inRectangle px py →
      t.canvas.read (s.cfg.byteOffset px py + 3) = 255 ∨
      ∀ k, k < 4 → t.canvas.read (s.cfg.byteOffset px py + k) =
        s.canvas.read (s.cfg.byteOffset px py + k))

/-- 70_reset_and_hazards.md R358: while BUSY, pixels already accepted hold their final values, and
the pixels not accepted yet hold their old ones: a block step changes only the pixels whose
ordinals it accepts. -/
def Obligations.AcceptedPixelsAreFinal : Prop :=
  ∀ s t : State, Inv s → s.jobState = .busy → blockStep s = .next t →
    ∀ p, p < s.cfg.pixels → (p < s.pixCount.toNat ∨ t.pixCount.toNat ≤ p) →
      ∀ k, k < 4 → t.canvas.read (s.cfg.pixelOffset p + k) =
        s.canvas.read (s.cfg.pixelOffset p + k)

/-- 43_palette_mux.md R258: palette entries at or above PAL_LEN can hold anything without effect. -/
def Obligations.PaletteAbovePalLenIsUnread : Prop :=
  ∀ (s : State) (pal : Palette),
    (∀ i : Byte, i.toNat < s.cfg.palLen → palGet pal i = palGet s.pal i) →
    blockStep { s with pal := pal } = mapNext (fun t => { t with pal := pal }) (blockStep s)

/-- 20_memory.md R81, 70_reset_and_hazards.md R357: the bytes of IN already read, and those at or
past CFG_IN_LEN, can hold anything without effect. -/
def Obligations.InputOutsideTheJobIsUnread : Prop :=
  ∀ (s : State) (inp : Memory),
    (∀ a, s.bytesConsumed.toNat ≤ a → a < s.cfg.inLen.toNat → inp.read a = s.input.read a) →
    blockStep { s with input := inp } = mapNext (fun t => { t with input := inp }) (blockStep s)

/-- 20_memory.md R83: the block never reads the canvas: what it holds makes no difference to
anything else. -/
def Obligations.CanvasIsNeverRead : Prop :=
  ∀ (s : State) (cv : Memory),
    mapNext (fun t => { t with canvas := [] }) (blockStep { s with canvas := cv }) =
      mapNext (fun t => { t with canvas := [] }) (blockStep s)

/-! ### The assembler (30_encoding.md R123) -/

/-- 30_encoding.md R110, R123 pass 3: cutting data into sub-blocks and de-framing them gives the data
back, whatever follows the terminator, and the chain ends just past it. -/
def Obligations.DeframingInvertsFraming : Prop :=
  ∀ (sub : Nat) (data tail : List Byte), 1 ≤ sub → sub ≤ 255 →
    dataBytes 0 (frameData sub [] data ++ 0 :: tail) = data ∧
    chainLength 0 (frameData sub [] data ++ 0 :: tail) =
      some ((frameData sub [] data).length + 1)

/-- 30_encoding.md R113, R123 pass 2: the bits of the packed bytes are the bits of the stream, least
significant first, followed by at most 7 zero bits. -/
def Obligations.PackingKeepsStreamBits : Prop :=
  ∀ bits : List Bool, ∃ pad, pad ≤ 7 ∧
    (packBits 0 0 bits).flatMap byteBits = bits ++ List.replicate pad false
end

