-- ==== Sys2Proof/Laws/State.lean ====
section
/-!
SUPPORT. What each update of the state leaves in each field: one lemma per field per update, so
that no later proof unfolds a record update.
-/

namespace Sys2Proof.Machine.State

variable (s : State)

/-! ### raise -/

@[simp] theorem raise_cfg (e : ErrorKind) (info : BitVec 16) : (s.raise e info).cfg = s.cfg := rfl
@[simp] theorem raise_pal (e : ErrorKind) (info : BitVec 16) : (s.raise e info).pal = s.pal := rfl
@[simp] theorem raise_jobState (e : ErrorKind) (info : BitVec 16) :
    (s.raise e info).jobState = .error := rfl
@[simp] theorem raise_errCode (e : ErrorKind) (info : BitVec 16) :
    (s.raise e info).errCode = errorNumber e := rfl
@[simp] theorem raise_errInfo (e : ErrorKind) (info : BitVec 16) :
    (s.raise e info).errInfo = info := rfl
@[simp] theorem raise_pixCount (e : ErrorKind) (info : BitVec 16) :
    (s.raise e info).pixCount = s.pixCount := rfl
@[simp] theorem raise_bytesConsumed (e : ErrorKind) (info : BitVec 16) :
    (s.raise e info).bytesConsumed = s.bytesConsumed := rfl
@[simp] theorem raise_phase (e : ErrorKind) (info : BitVec 16) :
    (s.raise e info).phase = s.phase := rfl
@[simp] theorem raise_codeWidth (e : ErrorKind) (info : BitVec 16) :
    (s.raise e info).codeWidth = s.codeWidth := rfl
@[simp] theorem raise_nextCode (e : ErrorKind) (info : BitVec 16) :
    (s.raise e info).nextCode = s.nextCode := rfl
@[simp] theorem raise_prevCode (e : ErrorKind) (info : BitVec 16) :
    (s.raise e info).prevCode = s.prevCode := rfl
@[simp] theorem raise_dict (e : ErrorKind) (info : BitVec 16) :
    (s.raise e info).dict = s.dict := rfl
@[simp] theorem raise_acc (e : ErrorKind) (info : BitVec 16) : (s.raise e info).acc = s.acc := rfl
@[simp] theorem raise_nbits (e : ErrorKind) (info : BitVec 16) :
    (s.raise e info).nbits = s.nbits := rfl
@[simp] theorem raise_sbRemain (e : ErrorKind) (info : BitVec 16) :
    (s.raise e info).sbRemain = s.sbRemain := rfl
@[simp] theorem raise_input (e : ErrorKind) (info : BitVec 16) :
    (s.raise e info).input = s.input := rfl
@[simp] theorem raise_canvas (e : ErrorKind) (info : BitVec 16) :
    (s.raise e info).canvas = s.canvas := rfl
@[simp] theorem raise_host (e : ErrorKind) (info : BitVec 16) :
    (s.raise e info).host = s.host := rfl
@[simp] theorem raise_readData (e : ErrorKind) (info : BitVec 16) :
    (s.raise e info).readData = s.readData := rfl
@[simp] theorem raise_draws (e : ErrorKind) (info : BitVec 16) :
    (s.raise e info).draws = s.draws := rfl

/-! ### countByte -/

@[simp] theorem countByte_cfg : s.countByte.cfg = s.cfg := rfl
@[simp] theorem countByte_pal : s.countByte.pal = s.pal := rfl
@[simp] theorem countByte_jobState : s.countByte.jobState = s.jobState := rfl
@[simp] theorem countByte_errCode : s.countByte.errCode = s.errCode := rfl
@[simp] theorem countByte_errInfo : s.countByte.errInfo = s.errInfo := rfl
@[simp] theorem countByte_pixCount : s.countByte.pixCount = s.pixCount := rfl
@[simp] theorem countByte_bytesConsumed : s.countByte.bytesConsumed = s.bytesConsumed + 1 := rfl
@[simp] theorem countByte_phase : s.countByte.phase = s.phase := rfl
@[simp] theorem countByte_codeWidth : s.countByte.codeWidth = s.codeWidth := rfl
@[simp] theorem countByte_nextCode : s.countByte.nextCode = s.nextCode := rfl
@[simp] theorem countByte_prevCode : s.countByte.prevCode = s.prevCode := rfl
@[simp] theorem countByte_dict : s.countByte.dict = s.dict := rfl
@[simp] theorem countByte_acc : s.countByte.acc = s.acc := rfl
@[simp] theorem countByte_nbits : s.countByte.nbits = s.nbits := rfl
@[simp] theorem countByte_sbRemain : s.countByte.sbRemain = s.sbRemain := rfl
@[simp] theorem countByte_input : s.countByte.input = s.input := rfl
@[simp] theorem countByte_canvas : s.countByte.canvas = s.canvas := rfl
@[simp] theorem countByte_host : s.countByte.host = s.host := rfl
@[simp] theorem countByte_readData : s.countByte.readData = s.readData := rfl
@[simp] theorem countByte_draws : s.countByte.draws = s.draws := rfl

/-! ### openSubBlock -/

@[simp] theorem openSubBlock_cfg (len : Byte) : (s.openSubBlock len).cfg = s.cfg := rfl
@[simp] theorem openSubBlock_pal (len : Byte) : (s.openSubBlock len).pal = s.pal := rfl
@[simp] theorem openSubBlock_jobState (len : Byte) :
    (s.openSubBlock len).jobState = s.jobState := rfl
@[simp] theorem openSubBlock_errCode (len : Byte) : (s.openSubBlock len).errCode = s.errCode := rfl
@[simp] theorem openSubBlock_errInfo (len : Byte) : (s.openSubBlock len).errInfo = s.errInfo := rfl
@[simp] theorem openSubBlock_pixCount (len : Byte) :
    (s.openSubBlock len).pixCount = s.pixCount := rfl
@[simp] theorem openSubBlock_bytesConsumed (len : Byte) :
    (s.openSubBlock len).bytesConsumed = s.bytesConsumed := rfl
@[simp] theorem openSubBlock_phase (len : Byte) : (s.openSubBlock len).phase = s.phase := rfl
@[simp] theorem openSubBlock_codeWidth (len : Byte) :
    (s.openSubBlock len).codeWidth = s.codeWidth := rfl
@[simp] theorem openSubBlock_nextCode (len : Byte) :
    (s.openSubBlock len).nextCode = s.nextCode := rfl
@[simp] theorem openSubBlock_prevCode (len : Byte) :
    (s.openSubBlock len).prevCode = s.prevCode := rfl
@[simp] theorem openSubBlock_dict (len : Byte) : (s.openSubBlock len).dict = s.dict := rfl
@[simp] theorem openSubBlock_acc (len : Byte) : (s.openSubBlock len).acc = s.acc := rfl
@[simp] theorem openSubBlock_nbits (len : Byte) : (s.openSubBlock len).nbits = s.nbits := rfl
@[simp] theorem openSubBlock_sbRemain (len : Byte) : (s.openSubBlock len).sbRemain = len := rfl
@[simp] theorem openSubBlock_input (len : Byte) : (s.openSubBlock len).input = s.input := rfl
@[simp] theorem openSubBlock_canvas (len : Byte) : (s.openSubBlock len).canvas = s.canvas := rfl
@[simp] theorem openSubBlock_host (len : Byte) : (s.openSubBlock len).host = s.host := rfl
@[simp] theorem openSubBlock_readData (len : Byte) :
    (s.openSubBlock len).readData = s.readData := rfl
@[simp] theorem openSubBlock_draws (len : Byte) : (s.openSubBlock len).draws = s.draws := rfl

/-! ### useDataByte -/

@[simp] theorem useDataByte_cfg : s.useDataByte.cfg = s.cfg := rfl
@[simp] theorem useDataByte_pal : s.useDataByte.pal = s.pal := rfl
@[simp] theorem useDataByte_jobState : s.useDataByte.jobState = s.jobState := rfl
@[simp] theorem useDataByte_errCode : s.useDataByte.errCode = s.errCode := rfl
@[simp] theorem useDataByte_errInfo : s.useDataByte.errInfo = s.errInfo := rfl
@[simp] theorem useDataByte_pixCount : s.useDataByte.pixCount = s.pixCount := rfl
@[simp] theorem useDataByte_bytesConsumed : s.useDataByte.bytesConsumed = s.bytesConsumed := rfl
@[simp] theorem useDataByte_phase : s.useDataByte.phase = s.phase := rfl
@[simp] theorem useDataByte_codeWidth : s.useDataByte.codeWidth = s.codeWidth := rfl
@[simp] theorem useDataByte_nextCode : s.useDataByte.nextCode = s.nextCode := rfl
@[simp] theorem useDataByte_prevCode : s.useDataByte.prevCode = s.prevCode := rfl
@[simp] theorem useDataByte_dict : s.useDataByte.dict = s.dict := rfl
@[simp] theorem useDataByte_acc : s.useDataByte.acc = s.acc := rfl
@[simp] theorem useDataByte_nbits : s.useDataByte.nbits = s.nbits := rfl
@[simp] theorem useDataByte_sbRemain : s.useDataByte.sbRemain = s.sbRemain - 1 := rfl
@[simp] theorem useDataByte_input : s.useDataByte.input = s.input := rfl
@[simp] theorem useDataByte_canvas : s.useDataByte.canvas = s.canvas := rfl
@[simp] theorem useDataByte_host : s.useDataByte.host = s.host := rfl
@[simp] theorem useDataByte_readData : s.useDataByte.readData = s.readData := rfl
@[simp] theorem useDataByte_draws : s.useDataByte.draws = s.draws := rfl

/-! ### pushByte -/

@[simp] theorem pushByte_cfg (b : Byte) : (s.pushByte b).cfg = s.cfg := rfl
@[simp] theorem pushByte_pal (b : Byte) : (s.pushByte b).pal = s.pal := rfl
@[simp] theorem pushByte_jobState (b : Byte) : (s.pushByte b).jobState = s.jobState := rfl
@[simp] theorem pushByte_errCode (b : Byte) : (s.pushByte b).errCode = s.errCode := rfl
@[simp] theorem pushByte_errInfo (b : Byte) : (s.pushByte b).errInfo = s.errInfo := rfl
@[simp] theorem pushByte_pixCount (b : Byte) : (s.pushByte b).pixCount = s.pixCount := rfl
@[simp] theorem pushByte_bytesConsumed (b : Byte) :
    (s.pushByte b).bytesConsumed = s.bytesConsumed := rfl
@[simp] theorem pushByte_phase (b : Byte) : (s.pushByte b).phase = s.phase := rfl
@[simp] theorem pushByte_codeWidth (b : Byte) : (s.pushByte b).codeWidth = s.codeWidth := rfl
@[simp] theorem pushByte_nextCode (b : Byte) : (s.pushByte b).nextCode = s.nextCode := rfl
@[simp] theorem pushByte_prevCode (b : Byte) : (s.pushByte b).prevCode = s.prevCode := rfl
@[simp] theorem pushByte_dict (b : Byte) : (s.pushByte b).dict = s.dict := rfl
@[simp] theorem pushByte_acc (b : Byte) :
    (s.pushByte b).acc = s.acc ||| (b.setWidth 32 <<< s.nbits) := rfl
@[simp] theorem pushByte_nbits (b : Byte) : (s.pushByte b).nbits = s.nbits + 8 := rfl
@[simp] theorem pushByte_sbRemain (b : Byte) : (s.pushByte b).sbRemain = s.sbRemain := rfl
@[simp] theorem pushByte_input (b : Byte) : (s.pushByte b).input = s.input := rfl
@[simp] theorem pushByte_canvas (b : Byte) : (s.pushByte b).canvas = s.canvas := rfl
@[simp] theorem pushByte_host (b : Byte) : (s.pushByte b).host = s.host := rfl
@[simp] theorem pushByte_readData (b : Byte) : (s.pushByte b).readData = s.readData := rfl
@[simp] theorem pushByte_draws (b : Byte) : (s.pushByte b).draws = s.draws := rfl

/-! ### dropBits -/

@[simp] theorem dropBits_cfg (w : Nat) : (s.dropBits w).cfg = s.cfg := rfl
@[simp] theorem dropBits_pal (w : Nat) : (s.dropBits w).pal = s.pal := rfl
@[simp] theorem dropBits_jobState (w : Nat) : (s.dropBits w).jobState = s.jobState := rfl
@[simp] theorem dropBits_errCode (w : Nat) : (s.dropBits w).errCode = s.errCode := rfl
@[simp] theorem dropBits_errInfo (w : Nat) : (s.dropBits w).errInfo = s.errInfo := rfl
@[simp] theorem dropBits_pixCount (w : Nat) : (s.dropBits w).pixCount = s.pixCount := rfl
@[simp] theorem dropBits_bytesConsumed (w : Nat) :
    (s.dropBits w).bytesConsumed = s.bytesConsumed := rfl
@[simp] theorem dropBits_phase (w : Nat) : (s.dropBits w).phase = s.phase := rfl
@[simp] theorem dropBits_codeWidth (w : Nat) : (s.dropBits w).codeWidth = s.codeWidth := rfl
@[simp] theorem dropBits_nextCode (w : Nat) : (s.dropBits w).nextCode = s.nextCode := rfl
@[simp] theorem dropBits_prevCode (w : Nat) : (s.dropBits w).prevCode = s.prevCode := rfl
@[simp] theorem dropBits_dict (w : Nat) : (s.dropBits w).dict = s.dict := rfl
@[simp] theorem dropBits_acc (w : Nat) : (s.dropBits w).acc = s.acc >>> w := rfl
@[simp] theorem dropBits_nbits (w : Nat) : (s.dropBits w).nbits = s.nbits - w := rfl
@[simp] theorem dropBits_sbRemain (w : Nat) : (s.dropBits w).sbRemain = s.sbRemain := rfl
@[simp] theorem dropBits_input (w : Nat) : (s.dropBits w).input = s.input := rfl
@[simp] theorem dropBits_canvas (w : Nat) : (s.dropBits w).canvas = s.canvas := rfl
@[simp] theorem dropBits_host (w : Nat) : (s.dropBits w).host = s.host := rfl
@[simp] theorem dropBits_readData (w : Nat) : (s.dropBits w).readData = s.readData := rfl
@[simp] theorem dropBits_draws (w : Nat) : (s.dropBits w).draws = s.draws := rfl

/-! ### finishJob -/

@[simp] theorem finishJob_cfg : s.finishJob.cfg = s.cfg := rfl
@[simp] theorem finishJob_pal : s.finishJob.pal = s.pal := rfl
@[simp] theorem finishJob_jobState : s.finishJob.jobState = .done := rfl
@[simp] theorem finishJob_errCode : s.finishJob.errCode = s.errCode := rfl
@[simp] theorem finishJob_errInfo : s.finishJob.errInfo = s.errInfo := rfl
@[simp] theorem finishJob_pixCount : s.finishJob.pixCount = s.pixCount := rfl
@[simp] theorem finishJob_bytesConsumed : s.finishJob.bytesConsumed = s.bytesConsumed := rfl
@[simp] theorem finishJob_phase : s.finishJob.phase = s.phase := rfl
@[simp] theorem finishJob_codeWidth : s.finishJob.codeWidth = s.codeWidth := rfl
@[simp] theorem finishJob_nextCode : s.finishJob.nextCode = s.nextCode := rfl
@[simp] theorem finishJob_prevCode : s.finishJob.prevCode = s.prevCode := rfl
@[simp] theorem finishJob_dict : s.finishJob.dict = s.dict := rfl
@[simp] theorem finishJob_acc : s.finishJob.acc = s.acc := rfl
@[simp] theorem finishJob_nbits : s.finishJob.nbits = s.nbits := rfl
@[simp] theorem finishJob_sbRemain : s.finishJob.sbRemain = s.sbRemain := rfl
@[simp] theorem finishJob_input : s.finishJob.input = s.input := rfl
@[simp] theorem finishJob_canvas : s.finishJob.canvas = s.canvas := rfl
@[simp] theorem finishJob_host : s.finishJob.host = s.host := rfl
@[simp] theorem finishJob_readData : s.finishJob.readData = s.readData := rfl
@[simp] theorem finishJob_draws : s.finishJob.draws = s.draws := rfl

/-! ### paintPixel -/

@[simp] theorem paintPixel_cfg (idx : Byte) : (s.paintPixel idx).cfg = s.cfg := rfl
@[simp] theorem paintPixel_pal (idx : Byte) : (s.paintPixel idx).pal = s.pal := rfl
@[simp] theorem paintPixel_jobState (idx : Byte) : (s.paintPixel idx).jobState = s.jobState := rfl
@[simp] theorem paintPixel_errCode (idx : Byte) : (s.paintPixel idx).errCode = s.errCode := rfl
@[simp] theorem paintPixel_errInfo (idx : Byte) : (s.paintPixel idx).errInfo = s.errInfo := rfl
@[simp] theorem paintPixel_pixCount (idx : Byte) : (s.paintPixel idx).pixCount = s.pixCount := rfl
@[simp] theorem paintPixel_bytesConsumed (idx : Byte) :
    (s.paintPixel idx).bytesConsumed = s.bytesConsumed := rfl
@[simp] theorem paintPixel_phase (idx : Byte) : (s.paintPixel idx).phase = s.phase := rfl
@[simp] theorem paintPixel_codeWidth (idx : Byte) :
    (s.paintPixel idx).codeWidth = s.codeWidth := rfl
@[simp] theorem paintPixel_nextCode (idx : Byte) : (s.paintPixel idx).nextCode = s.nextCode := rfl
@[simp] theorem paintPixel_prevCode (idx : Byte) : (s.paintPixel idx).prevCode = s.prevCode := rfl
@[simp] theorem paintPixel_dict (idx : Byte) : (s.paintPixel idx).dict = s.dict := rfl
@[simp] theorem paintPixel_acc (idx : Byte) : (s.paintPixel idx).acc = s.acc := rfl
@[simp] theorem paintPixel_nbits (idx : Byte) : (s.paintPixel idx).nbits = s.nbits := rfl
@[simp] theorem paintPixel_sbRemain (idx : Byte) : (s.paintPixel idx).sbRemain = s.sbRemain := rfl
@[simp] theorem paintPixel_input (idx : Byte) : (s.paintPixel idx).input = s.input := rfl
@[simp] theorem paintPixel_canvas (idx : Byte) :
    (s.paintPixel idx).canvas = s.canvas.writeList (s.cfg.pixelOffset s.pixCount.toNat) (pixelBytes (palGet s.pal idx)) := rfl
@[simp] theorem paintPixel_host (idx : Byte) : (s.paintPixel idx).host = s.host := rfl
@[simp] theorem paintPixel_readData (idx : Byte) : (s.paintPixel idx).readData = s.readData := rfl
@[simp] theorem paintPixel_draws (idx : Byte) : (s.paintPixel idx).draws = s.draws := rfl

/-! ### countPixel -/

@[simp] theorem countPixel_cfg : s.countPixel.cfg = s.cfg := rfl
@[simp] theorem countPixel_pal : s.countPixel.pal = s.pal := rfl
@[simp] theorem countPixel_jobState : s.countPixel.jobState = s.jobState := rfl
@[simp] theorem countPixel_errCode : s.countPixel.errCode = s.errCode := rfl
@[simp] theorem countPixel_errInfo : s.countPixel.errInfo = s.errInfo := rfl
@[simp] theorem countPixel_pixCount : s.countPixel.pixCount = s.pixCount + 1 := rfl
@[simp] theorem countPixel_bytesConsumed : s.countPixel.bytesConsumed = s.bytesConsumed := rfl
@[simp] theorem countPixel_phase : s.countPixel.phase = s.phase := rfl
@[simp] theorem countPixel_codeWidth : s.countPixel.codeWidth = s.codeWidth := rfl
@[simp] theorem countPixel_nextCode : s.countPixel.nextCode = s.nextCode := rfl
@[simp] theorem countPixel_prevCode : s.countPixel.prevCode = s.prevCode := rfl
@[simp] theorem countPixel_dict : s.countPixel.dict = s.dict := rfl
@[simp] theorem countPixel_acc : s.countPixel.acc = s.acc := rfl
@[simp] theorem countPixel_nbits : s.countPixel.nbits = s.nbits := rfl
@[simp] theorem countPixel_sbRemain : s.countPixel.sbRemain = s.sbRemain := rfl
@[simp] theorem countPixel_input : s.countPixel.input = s.input := rfl
@[simp] theorem countPixel_canvas : s.countPixel.canvas = s.canvas := rfl
@[simp] theorem countPixel_host : s.countPixel.host = s.host := rfl
@[simp] theorem countPixel_readData : s.countPixel.readData = s.readData := rfl
@[simp] theorem countPixel_draws : s.countPixel.draws = s.draws := rfl

/-! ### initTable -/

@[simp] theorem initTable_cfg : s.initTable.cfg = s.cfg := rfl
@[simp] theorem initTable_pal : s.initTable.pal = s.pal := rfl
@[simp] theorem initTable_jobState : s.initTable.jobState = s.jobState := rfl
@[simp] theorem initTable_errCode : s.initTable.errCode = s.errCode := rfl
@[simp] theorem initTable_errInfo : s.initTable.errInfo = s.errInfo := rfl
@[simp] theorem initTable_pixCount : s.initTable.pixCount = s.pixCount := rfl
@[simp] theorem initTable_bytesConsumed : s.initTable.bytesConsumed = s.bytesConsumed := rfl
@[simp] theorem initTable_phase : s.initTable.phase = s.phase := rfl
@[simp] theorem initTable_codeWidth :
    s.initTable.codeWidth = BitVec.ofNat 4 (s.cfg.mincode.toNat + 1) := rfl
@[simp] theorem initTable_nextCode :
    s.initTable.nextCode = BitVec.ofNat 13 (s.codeCtx.endCode + 1) := rfl
@[simp] theorem initTable_prevCode : s.initTable.prevCode = none := rfl
@[simp] theorem initTable_dict : s.initTable.dict = s.dict.withRoots s.codeCtx.clearCode := rfl
@[simp] theorem initTable_acc : s.initTable.acc = s.acc := rfl
@[simp] theorem initTable_nbits : s.initTable.nbits = s.nbits := rfl
@[simp] theorem initTable_sbRemain : s.initTable.sbRemain = s.sbRemain := rfl
@[simp] theorem initTable_input : s.initTable.input = s.input := rfl
@[simp] theorem initTable_canvas : s.initTable.canvas = s.canvas := rfl
@[simp] theorem initTable_host : s.initTable.host = s.host := rfl
@[simp] theorem initTable_readData : s.initTable.readData = s.readData := rfl
@[simp] theorem initTable_draws : s.initTable.draws = s.draws := rfl

/-! ### insertEntry -/

@[simp] theorem insertEntry_cfg (str : Str) : (s.insertEntry str).cfg = s.cfg := rfl
@[simp] theorem insertEntry_pal (str : Str) : (s.insertEntry str).pal = s.pal := rfl
@[simp] theorem insertEntry_jobState (str : Str) : (s.insertEntry str).jobState = s.jobState := rfl
@[simp] theorem insertEntry_errCode (str : Str) : (s.insertEntry str).errCode = s.errCode := rfl
@[simp] theorem insertEntry_errInfo (str : Str) : (s.insertEntry str).errInfo = s.errInfo := rfl
@[simp] theorem insertEntry_pixCount (str : Str) : (s.insertEntry str).pixCount = s.pixCount := rfl
@[simp] theorem insertEntry_bytesConsumed (str : Str) :
    (s.insertEntry str).bytesConsumed = s.bytesConsumed := rfl
@[simp] theorem insertEntry_phase (str : Str) : (s.insertEntry str).phase = s.phase := rfl
@[simp] theorem insertEntry_codeWidth (str : Str) :
    (s.insertEntry str).codeWidth = if growsWidth (s.nextCode.toNat + 1) s.codeWidth then s.codeWidth + 1 else s.codeWidth := rfl
@[simp] theorem insertEntry_nextCode (str : Str) :
    (s.insertEntry str).nextCode = s.nextCode + 1 := rfl
@[simp] theorem insertEntry_prevCode (str : Str) : (s.insertEntry str).prevCode = s.prevCode := rfl
@[simp] theorem insertEntry_dict (str : Str) :
    (s.insertEntry str).dict = s.dict.put s.nextCode.toNat str := rfl
@[simp] theorem insertEntry_acc (str : Str) : (s.insertEntry str).acc = s.acc := rfl
@[simp] theorem insertEntry_nbits (str : Str) : (s.insertEntry str).nbits = s.nbits := rfl
@[simp] theorem insertEntry_sbRemain (str : Str) : (s.insertEntry str).sbRemain = s.sbRemain := rfl
@[simp] theorem insertEntry_input (str : Str) : (s.insertEntry str).input = s.input := rfl
@[simp] theorem insertEntry_canvas (str : Str) : (s.insertEntry str).canvas = s.canvas := rfl
@[simp] theorem insertEntry_host (str : Str) : (s.insertEntry str).host = s.host := rfl
@[simp] theorem insertEntry_readData (str : Str) : (s.insertEntry str).readData = s.readData := rfl
@[simp] theorem insertEntry_draws (str : Str) : (s.insertEntry str).draws = s.draws := rfl

/-! ### setPrev -/

@[simp] theorem setPrev_cfg (c : Code) : (s.setPrev c).cfg = s.cfg := rfl
@[simp] theorem setPrev_pal (c : Code) : (s.setPrev c).pal = s.pal := rfl
@[simp] theorem setPrev_jobState (c : Code) : (s.setPrev c).jobState = s.jobState := rfl
@[simp] theorem setPrev_errCode (c : Code) : (s.setPrev c).errCode = s.errCode := rfl
@[simp] theorem setPrev_errInfo (c : Code) : (s.setPrev c).errInfo = s.errInfo := rfl
@[simp] theorem setPrev_pixCount (c : Code) : (s.setPrev c).pixCount = s.pixCount := rfl
@[simp] theorem setPrev_bytesConsumed (c : Code) :
    (s.setPrev c).bytesConsumed = s.bytesConsumed := rfl
@[simp] theorem setPrev_phase (c : Code) : (s.setPrev c).phase = s.phase := rfl
@[simp] theorem setPrev_codeWidth (c : Code) : (s.setPrev c).codeWidth = s.codeWidth := rfl
@[simp] theorem setPrev_nextCode (c : Code) : (s.setPrev c).nextCode = s.nextCode := rfl
@[simp] theorem setPrev_prevCode (c : Code) : (s.setPrev c).prevCode = some c := rfl
@[simp] theorem setPrev_dict (c : Code) : (s.setPrev c).dict = s.dict := rfl
@[simp] theorem setPrev_acc (c : Code) : (s.setPrev c).acc = s.acc := rfl
@[simp] theorem setPrev_nbits (c : Code) : (s.setPrev c).nbits = s.nbits := rfl
@[simp] theorem setPrev_sbRemain (c : Code) : (s.setPrev c).sbRemain = s.sbRemain := rfl
@[simp] theorem setPrev_input (c : Code) : (s.setPrev c).input = s.input := rfl
@[simp] theorem setPrev_canvas (c : Code) : (s.setPrev c).canvas = s.canvas := rfl
@[simp] theorem setPrev_host (c : Code) : (s.setPrev c).host = s.host := rfl
@[simp] theorem setPrev_readData (c : Code) : (s.setPrev c).readData = s.readData := rfl
@[simp] theorem setPrev_draws (c : Code) : (s.setPrev c).draws = s.draws := rfl

/-! ### beginDrain -/

@[simp] theorem beginDrain_cfg : s.beginDrain.cfg = s.cfg := rfl
@[simp] theorem beginDrain_pal : s.beginDrain.pal = s.pal := rfl
@[simp] theorem beginDrain_jobState : s.beginDrain.jobState = s.jobState := rfl
@[simp] theorem beginDrain_errCode : s.beginDrain.errCode = s.errCode := rfl
@[simp] theorem beginDrain_errInfo : s.beginDrain.errInfo = s.errInfo := rfl
@[simp] theorem beginDrain_pixCount : s.beginDrain.pixCount = s.pixCount := rfl
@[simp] theorem beginDrain_bytesConsumed : s.beginDrain.bytesConsumed = s.bytesConsumed := rfl
@[simp] theorem beginDrain_phase : s.beginDrain.phase = .drain := rfl
@[simp] theorem beginDrain_codeWidth : s.beginDrain.codeWidth = s.codeWidth := rfl
@[simp] theorem beginDrain_nextCode : s.beginDrain.nextCode = s.nextCode := rfl
@[simp] theorem beginDrain_prevCode : s.beginDrain.prevCode = s.prevCode := rfl
@[simp] theorem beginDrain_dict : s.beginDrain.dict = s.dict := rfl
@[simp] theorem beginDrain_acc : s.beginDrain.acc = s.acc := rfl
@[simp] theorem beginDrain_nbits : s.beginDrain.nbits = s.nbits := rfl
@[simp] theorem beginDrain_sbRemain : s.beginDrain.sbRemain = s.sbRemain := rfl
@[simp] theorem beginDrain_input : s.beginDrain.input = s.input := rfl
@[simp] theorem beginDrain_canvas : s.beginDrain.canvas = s.canvas := rfl
@[simp] theorem beginDrain_host : s.beginDrain.host = s.host := rfl
@[simp] theorem beginDrain_readData : s.beginDrain.readData = s.readData := rfl
@[simp] theorem beginDrain_draws : s.beginDrain.draws = s.draws := rfl

/-! ### clearStatus -/

@[simp] theorem clearStatus_cfg : s.clearStatus.cfg = s.cfg := rfl
@[simp] theorem clearStatus_pal : s.clearStatus.pal = s.pal := rfl
@[simp] theorem clearStatus_jobState : s.clearStatus.jobState = s.jobState := rfl
@[simp] theorem clearStatus_errCode : s.clearStatus.errCode = 0 := rfl
@[simp] theorem clearStatus_errInfo : s.clearStatus.errInfo = 0 := rfl
@[simp] theorem clearStatus_pixCount : s.clearStatus.pixCount = 0 := rfl
@[simp] theorem clearStatus_bytesConsumed : s.clearStatus.bytesConsumed = 0 := rfl
@[simp] theorem clearStatus_phase : s.clearStatus.phase = s.phase := rfl
@[simp] theorem clearStatus_codeWidth : s.clearStatus.codeWidth = s.codeWidth := rfl
@[simp] theorem clearStatus_nextCode : s.clearStatus.nextCode = s.nextCode := rfl
@[simp] theorem clearStatus_prevCode : s.clearStatus.prevCode = s.prevCode := rfl
@[simp] theorem clearStatus_dict : s.clearStatus.dict = s.dict := rfl
@[simp] theorem clearStatus_acc : s.clearStatus.acc = s.acc := rfl
@[simp] theorem clearStatus_nbits : s.clearStatus.nbits = s.nbits := rfl
@[simp] theorem clearStatus_sbRemain : s.clearStatus.sbRemain = s.sbRemain := rfl
@[simp] theorem clearStatus_input : s.clearStatus.input = s.input := rfl
@[simp] theorem clearStatus_canvas : s.clearStatus.canvas = s.canvas := rfl
@[simp] theorem clearStatus_host : s.clearStatus.host = s.host := rfl
@[simp] theorem clearStatus_readData : s.clearStatus.readData = s.readData := rfl
@[simp] theorem clearStatus_draws : s.clearStatus.draws = s.draws := rfl

/-! ### beginJob -/

@[simp] theorem beginJob_cfg : s.beginJob.cfg = s.cfg := rfl
@[simp] theorem beginJob_pal : s.beginJob.pal = s.pal := rfl
@[simp] theorem beginJob_jobState : s.beginJob.jobState = .busy := rfl
@[simp] theorem beginJob_errCode : s.beginJob.errCode = s.errCode := rfl
@[simp] theorem beginJob_errInfo : s.beginJob.errInfo = s.errInfo := rfl
@[simp] theorem beginJob_pixCount : s.beginJob.pixCount = s.pixCount := rfl
@[simp] theorem beginJob_bytesConsumed : s.beginJob.bytesConsumed = s.bytesConsumed := rfl
@[simp] theorem beginJob_phase : s.beginJob.phase = .decode := rfl
@[simp] theorem beginJob_codeWidth : s.beginJob.codeWidth = s.codeWidth := rfl
@[simp] theorem beginJob_nextCode : s.beginJob.nextCode = s.nextCode := rfl
@[simp] theorem beginJob_prevCode : s.beginJob.prevCode = s.prevCode := rfl
@[simp] theorem beginJob_dict : s.beginJob.dict = s.dict := rfl
@[simp] theorem beginJob_acc : s.beginJob.acc = 0 := rfl
@[simp] theorem beginJob_nbits : s.beginJob.nbits = 0 := rfl
@[simp] theorem beginJob_sbRemain : s.beginJob.sbRemain = 0 := rfl
@[simp] theorem beginJob_input : s.beginJob.input = s.input := rfl
@[simp] theorem beginJob_canvas : s.beginJob.canvas = s.canvas := rfl
@[simp] theorem beginJob_host : s.beginJob.host = s.host := rfl
@[simp] theorem beginJob_readData : s.beginJob.readData = s.readData := rfl
@[simp] theorem beginJob_draws : s.beginJob.draws = s.draws := rfl

/-! ### resetInput -/

@[simp] theorem resetInput_cfg : s.resetInput.cfg = drawCfg s.draws := rfl
@[simp] theorem resetInput_pal : s.resetInput.pal = drawPal s.draws := rfl
@[simp] theorem resetInput_jobState : s.resetInput.jobState = .idle := rfl
@[simp] theorem resetInput_errCode : s.resetInput.errCode = 0 := rfl
@[simp] theorem resetInput_errInfo : s.resetInput.errInfo = 0 := rfl
@[simp] theorem resetInput_pixCount : s.resetInput.pixCount = 0 := rfl
@[simp] theorem resetInput_bytesConsumed : s.resetInput.bytesConsumed = 0 := rfl
@[simp] theorem resetInput_phase : s.resetInput.phase = Config.freePhase s.draws := rfl
@[simp] theorem resetInput_codeWidth : s.resetInput.codeWidth = Config.freeCodeWidth s.draws := rfl
@[simp] theorem resetInput_nextCode : s.resetInput.nextCode = Config.freeNextCode s.draws := rfl
@[simp] theorem resetInput_prevCode : s.resetInput.prevCode = Config.freePrevCode s.draws := rfl
@[simp] theorem resetInput_dict : s.resetInput.dict = Config.freeDict s.draws := rfl
@[simp] theorem resetInput_acc : s.resetInput.acc = Config.freeAcc s.draws := rfl
@[simp] theorem resetInput_nbits : s.resetInput.nbits = (Config.freeNbits s.draws).val := rfl
@[simp] theorem resetInput_sbRemain : s.resetInput.sbRemain = Config.freeSbRemain s.draws := rfl
@[simp] theorem resetInput_input : s.resetInput.input = s.input := rfl
@[simp] theorem resetInput_canvas : s.resetInput.canvas = s.canvas := rfl
@[simp] theorem resetInput_host : s.resetInput.host = s.host := rfl
@[simp] theorem resetInput_readData : s.resetInput.readData = s.readData := rfl
@[simp] theorem resetInput_draws : s.resetInput.draws = s.draws + 1 := rfl

/-! ### storeCfg -/

@[simp] theorem storeCfg_cfg (r : CfgReg) (v : Word) : (s.storeCfg r v).cfg = s.cfg.store r v := rfl
@[simp] theorem storeCfg_pal (r : CfgReg) (v : Word) : (s.storeCfg r v).pal = s.pal := rfl
@[simp] theorem storeCfg_jobState (r : CfgReg) (v : Word) :
    (s.storeCfg r v).jobState = s.jobState := rfl
@[simp] theorem storeCfg_errCode (r : CfgReg) (v : Word) :
    (s.storeCfg r v).errCode = s.errCode := rfl
@[simp] theorem storeCfg_errInfo (r : CfgReg) (v : Word) :
    (s.storeCfg r v).errInfo = s.errInfo := rfl
@[simp] theorem storeCfg_pixCount (r : CfgReg) (v : Word) :
    (s.storeCfg r v).pixCount = s.pixCount := rfl
@[simp] theorem storeCfg_bytesConsumed (r : CfgReg) (v : Word) :
    (s.storeCfg r v).bytesConsumed = s.bytesConsumed := rfl
@[simp] theorem storeCfg_phase (r : CfgReg) (v : Word) : (s.storeCfg r v).phase = s.phase := rfl
@[simp] theorem storeCfg_codeWidth (r : CfgReg) (v : Word) :
    (s.storeCfg r v).codeWidth = s.codeWidth := rfl
@[simp] theorem storeCfg_nextCode (r : CfgReg) (v : Word) :
    (s.storeCfg r v).nextCode = s.nextCode := rfl
@[simp] theorem storeCfg_prevCode (r : CfgReg) (v : Word) :
    (s.storeCfg r v).prevCode = s.prevCode := rfl
@[simp] theorem storeCfg_dict (r : CfgReg) (v : Word) : (s.storeCfg r v).dict = s.dict := rfl
@[simp] theorem storeCfg_acc (r : CfgReg) (v : Word) : (s.storeCfg r v).acc = s.acc := rfl
@[simp] theorem storeCfg_nbits (r : CfgReg) (v : Word) : (s.storeCfg r v).nbits = s.nbits := rfl
@[simp] theorem storeCfg_sbRemain (r : CfgReg) (v : Word) :
    (s.storeCfg r v).sbRemain = s.sbRemain := rfl
@[simp] theorem storeCfg_input (r : CfgReg) (v : Word) : (s.storeCfg r v).input = s.input := rfl
@[simp] theorem storeCfg_canvas (r : CfgReg) (v : Word) : (s.storeCfg r v).canvas = s.canvas := rfl
@[simp] theorem storeCfg_host (r : CfgReg) (v : Word) : (s.storeCfg r v).host = s.host := rfl
@[simp] theorem storeCfg_readData (r : CfgReg) (v : Word) :
    (s.storeCfg r v).readData = s.readData := rfl
@[simp] theorem storeCfg_draws (r : CfgReg) (v : Word) : (s.storeCfg r v).draws = s.draws := rfl

/-! ### storePal -/

@[simp] theorem storePal_cfg (i : Byte) (v : Word) : (s.storePal i v).cfg = s.cfg := rfl
@[simp] theorem storePal_pal (i : Byte) (v : Word) :
    (s.storePal i v).pal = palSet s.pal i (v.setWidth 24) := rfl
@[simp] theorem storePal_jobState (i : Byte) (v : Word) :
    (s.storePal i v).jobState = s.jobState := rfl
@[simp] theorem storePal_errCode (i : Byte) (v : Word) : (s.storePal i v).errCode = s.errCode := rfl
@[simp] theorem storePal_errInfo (i : Byte) (v : Word) : (s.storePal i v).errInfo = s.errInfo := rfl
@[simp] theorem storePal_pixCount (i : Byte) (v : Word) :
    (s.storePal i v).pixCount = s.pixCount := rfl
@[simp] theorem storePal_bytesConsumed (i : Byte) (v : Word) :
    (s.storePal i v).bytesConsumed = s.bytesConsumed := rfl
@[simp] theorem storePal_phase (i : Byte) (v : Word) : (s.storePal i v).phase = s.phase := rfl
@[simp] theorem storePal_codeWidth (i : Byte) (v : Word) :
    (s.storePal i v).codeWidth = s.codeWidth := rfl
@[simp] theorem storePal_nextCode (i : Byte) (v : Word) :
    (s.storePal i v).nextCode = s.nextCode := rfl
@[simp] theorem storePal_prevCode (i : Byte) (v : Word) :
    (s.storePal i v).prevCode = s.prevCode := rfl
@[simp] theorem storePal_dict (i : Byte) (v : Word) : (s.storePal i v).dict = s.dict := rfl
@[simp] theorem storePal_acc (i : Byte) (v : Word) : (s.storePal i v).acc = s.acc := rfl
@[simp] theorem storePal_nbits (i : Byte) (v : Word) : (s.storePal i v).nbits = s.nbits := rfl
@[simp] theorem storePal_sbRemain (i : Byte) (v : Word) :
    (s.storePal i v).sbRemain = s.sbRemain := rfl
@[simp] theorem storePal_input (i : Byte) (v : Word) : (s.storePal i v).input = s.input := rfl
@[simp] theorem storePal_canvas (i : Byte) (v : Word) : (s.storePal i v).canvas = s.canvas := rfl
@[simp] theorem storePal_host (i : Byte) (v : Word) : (s.storePal i v).host = s.host := rfl
@[simp] theorem storePal_readData (i : Byte) (v : Word) :
    (s.storePal i v).readData = s.readData := rfl
@[simp] theorem storePal_draws (i : Byte) (v : Word) : (s.storePal i v).draws = s.draws := rfl

/-! ### reply -/

@[simp] theorem reply_cfg (v : Word) : (s.reply v).cfg = s.cfg := rfl
@[simp] theorem reply_pal (v : Word) : (s.reply v).pal = s.pal := rfl
@[simp] theorem reply_jobState (v : Word) : (s.reply v).jobState = s.jobState := rfl
@[simp] theorem reply_errCode (v : Word) : (s.reply v).errCode = s.errCode := rfl
@[simp] theorem reply_errInfo (v : Word) : (s.reply v).errInfo = s.errInfo := rfl
@[simp] theorem reply_pixCount (v : Word) : (s.reply v).pixCount = s.pixCount := rfl
@[simp] theorem reply_bytesConsumed (v : Word) : (s.reply v).bytesConsumed = s.bytesConsumed := rfl
@[simp] theorem reply_phase (v : Word) : (s.reply v).phase = s.phase := rfl
@[simp] theorem reply_codeWidth (v : Word) : (s.reply v).codeWidth = s.codeWidth := rfl
@[simp] theorem reply_nextCode (v : Word) : (s.reply v).nextCode = s.nextCode := rfl
@[simp] theorem reply_prevCode (v : Word) : (s.reply v).prevCode = s.prevCode := rfl
@[simp] theorem reply_dict (v : Word) : (s.reply v).dict = s.dict := rfl
@[simp] theorem reply_acc (v : Word) : (s.reply v).acc = s.acc := rfl
@[simp] theorem reply_nbits (v : Word) : (s.reply v).nbits = s.nbits := rfl
@[simp] theorem reply_sbRemain (v : Word) : (s.reply v).sbRemain = s.sbRemain := rfl
@[simp] theorem reply_input (v : Word) : (s.reply v).input = s.input := rfl
@[simp] theorem reply_canvas (v : Word) : (s.reply v).canvas = s.canvas := rfl
@[simp] theorem reply_host (v : Word) : (s.reply v).host = s.host := rfl
@[simp] theorem reply_readData (v : Word) : (s.reply v).readData = some v := rfl
@[simp] theorem reply_draws (v : Word) : (s.reply v).draws = s.draws := rfl

/-! ### afterMove -/

@[simp] theorem afterMove_cfg (rest : List HostMove) : (s.afterMove rest).cfg = s.cfg := rfl
@[simp] theorem afterMove_pal (rest : List HostMove) : (s.afterMove rest).pal = s.pal := rfl
@[simp] theorem afterMove_jobState (rest : List HostMove) :
    (s.afterMove rest).jobState = s.jobState := rfl
@[simp] theorem afterMove_errCode (rest : List HostMove) :
    (s.afterMove rest).errCode = s.errCode := rfl
@[simp] theorem afterMove_errInfo (rest : List HostMove) :
    (s.afterMove rest).errInfo = s.errInfo := rfl
@[simp] theorem afterMove_pixCount (rest : List HostMove) :
    (s.afterMove rest).pixCount = s.pixCount := rfl
@[simp] theorem afterMove_bytesConsumed (rest : List HostMove) :
    (s.afterMove rest).bytesConsumed = s.bytesConsumed := rfl
@[simp] theorem afterMove_phase (rest : List HostMove) : (s.afterMove rest).phase = s.phase := rfl
@[simp] theorem afterMove_codeWidth (rest : List HostMove) :
    (s.afterMove rest).codeWidth = s.codeWidth := rfl
@[simp] theorem afterMove_nextCode (rest : List HostMove) :
    (s.afterMove rest).nextCode = s.nextCode := rfl
@[simp] theorem afterMove_prevCode (rest : List HostMove) :
    (s.afterMove rest).prevCode = s.prevCode := rfl
@[simp] theorem afterMove_dict (rest : List HostMove) : (s.afterMove rest).dict = s.dict := rfl
@[simp] theorem afterMove_acc (rest : List HostMove) : (s.afterMove rest).acc = s.acc := rfl
@[simp] theorem afterMove_nbits (rest : List HostMove) : (s.afterMove rest).nbits = s.nbits := rfl
@[simp] theorem afterMove_sbRemain (rest : List HostMove) :
    (s.afterMove rest).sbRemain = s.sbRemain := rfl
@[simp] theorem afterMove_input (rest : List HostMove) : (s.afterMove rest).input = s.input := rfl
@[simp] theorem afterMove_canvas (rest : List HostMove) :
    (s.afterMove rest).canvas = s.canvas := rfl
@[simp] theorem afterMove_host (rest : List HostMove) : (s.afterMove rest).host = rest := rfl
@[simp] theorem afterMove_readData (rest : List HostMove) :
    (s.afterMove rest).readData = s.readData := rfl
@[simp] theorem afterMove_draws (rest : List HostMove) : (s.afterMove rest).draws = s.draws := rfl

end Sys2Proof.Machine.State
end

