-- ==== Sys2Proof/Laws/Bits.lean ====
section
/-!
SUPPORT. The bits of numbers as lists, least significant first, and what the two updates of the
accumulator do to them.
-/

namespace Sys2Proof.Machine

@[simp] theorem bitsOf_length (w v : Nat) : (bitsOf w v).length = w := by simp [bitsOf]

@[simp] theorem bitsOf_getElem (w v i : Nat) (h : i < (bitsOf w v).length) :
    (bitsOf w v)[i] = v.testBit i := by simp [bitsOf]

theorem bitsOf_append (a b v : Nat) : bitsOf (a + b) v = bitsOf a v ++ bitsOf b (v / 2 ^ a) := by
  apply List.ext_getElem
  · simp
  · intro i h1 h2
    rw [bitsOf_getElem, List.getElem_append]
    split
    · simp
    · next h =>
      have h' : a ≤ i := by simpa using h
      rw [bitsOf_getElem, bitsOf_length, Nat.testBit_div_two_pow]
      congr 1
      omega

theorem bitsOf_mod (w v : Nat) : bitsOf w (v % 2 ^ w) = bitsOf w v := by
  apply List.ext_getElem
  · simp
  · intro i h1 h2
    have h' : i < w := by simpa using h1
    simp [Nat.testBit_mod_two_pow, h']

@[simp] theorem byteBits_length (b : Byte) : (byteBits b).length = 8 := bitsOf_length 8 _

/-- The accumulator below 2^n takes a byte above its n bits (40_input_stage.md R146, R147). -/
theorem push_toNat {acc : Word} {b : Byte} {n : Nat} (ha : acc.toNat < 2 ^ n) (hn : n ≤ 24) :
    (acc ||| (b.setWidth 32 <<< n)).toNat = acc.toNat + b.toNat * 2 ^ n := by
  have hb := b.isLt
  have hp : (2:Nat) ^ n * 2 ^ 8 ≤ 2 ^ 32 := by
    rw [← pow_add]
    exact Nat.pow_le_pow_right (by decide) (by omega)
  have hlt : b.toNat * 2 ^ n < 2 ^ 32 := by
    have h2 := Nat.mul_lt_mul_of_pos_right hb (Nat.two_pow_pos n)
    rw [Nat.mul_comm (2 ^ 8)] at h2
    omega
  have hs : (b.setWidth 32 <<< n).toNat = b.toNat <<< n := by
    simp only [BitVec.toNat_shiftLeft, BitVec.toNat_setWidth, Nat.shiftLeft_eq]
    rw [Nat.mod_eq_of_lt (a := b.toNat) (by omega), Nat.mod_eq_of_lt hlt]
  rw [BitVec.toNat_or, hs, Nat.or_comm, ← Nat.shiftLeft_add_eq_or_of_lt ha, Nat.shiftLeft_eq,
    Nat.add_comm]

theorem push_lt {acc : Word} {b : Byte} {n : Nat} (ha : acc.toNat < 2 ^ n) (hn : n ≤ 24) :
    (acc ||| (b.setWidth 32 <<< n)).toNat < 2 ^ (n + 8) := by
  rw [push_toNat ha hn, pow_add]
  have hb : b.toNat + 1 ≤ 2 ^ 8 := b.isLt
  have := Nat.mul_le_mul_right (2 ^ n) hb
  rw [Nat.add_mul, Nat.one_mul, Nat.mul_comm (2 ^ 8)] at this
  omega

theorem push_bits {acc : Word} {b : Byte} {n : Nat} (ha : acc.toNat < 2 ^ n) (hn : n ≤ 24) :
    bitsOf (n + 8) (acc ||| (b.setWidth 32 <<< n)).toNat = bitsOf n acc.toNat ++ byteBits b := by
  rw [push_toNat ha hn, bitsOf_append]
  congr 1
  · rw [← bitsOf_mod, Nat.add_mul_mod_self_right, bitsOf_mod]
  · rw [Nat.add_mul_div_right _ _ (Nat.two_pow_pos n), Nat.div_eq_of_lt ha, Nat.zero_add, byteBits]

/-- Taking the low w of n held bits (40_input_stage.md R146). -/
theorem drop_bits {acc : Word} {n w : Nat} (h : w ≤ n) :
    bitsOf n acc.toNat = bitsOf w (acc.toNat % 2 ^ w) ++ bitsOf (n - w) (acc >>> w).toNat := by
  conv_lhs => rw [show n = w + (n - w) by omega, bitsOf_append]
  rw [bitsOf_mod, BitVec.toNat_ushiftRight, Nat.shiftRight_eq_div_pow]

theorem drop_lt {acc : Word} {n w : Nat} (ha : acc.toNat < 2 ^ n) (h : w ≤ n) :
    (acc >>> w).toNat < 2 ^ (n - w) := by
  rw [BitVec.toNat_ushiftRight, Nat.shiftRight_eq_div_pow]
  rw [Nat.div_lt_iff_lt_mul (Nat.two_pow_pos w), ← pow_add]
  rwa [show n - w + w = n by omega]

theorem lowCode_toNat {s : State} {w : Nat} (h : w ≤ 12) :
    (s.lowCode w).toNat = s.acc.toNat % 2 ^ w := by
  have h1 : s.acc.toNat % 2 ^ w < 2 ^ w := Nat.mod_lt _ (Nat.two_pow_pos w)
  have h2 : (2:Nat) ^ w ≤ 2 ^ 12 := Nat.pow_le_pow_right (by decide) h
  simp only [State.lowCode, BitVec.toNat_ofNat]
  exact Nat.mod_eq_of_lt (by omega)

end Sys2Proof.Machine
end

