-- ==== Sys2Proof/Laws/Decode.lean ====
section
/-!
SUPPORT. The code width function and the fixed codes: the bounds every table state of a job meets.
-/

namespace Sys2Proof

theorem bitlen_eq {v k : Nat} (h : v ≠ 0) (h1 : 2 ^ k ≤ v) (h2 : v < 2 ^ (k + 1)) :
    bitlen v = k + 1 := by
  rw [bitlen, if_neg h, (Nat.log2_eq_iff h).2 ⟨h1, h2⟩]

theorem lt_two_pow_bitlen (v : Nat) : v < 2 ^ bitlen v := by
  unfold bitlen
  split
  · next h => simp [h]
  · exact Nat.lt_log2_self

theorem two_pow_bitlen_le {v : Nat} (h : v ≠ 0) : 2 ^ (bitlen v - 1) ≤ v := by
  rw [bitlen, if_neg h, Nat.add_sub_cancel]
  exact Nat.log2_self_le h

theorem bitlen_mono {v w : Nat} (h : v ≤ w) : bitlen v ≤ bitlen w := by
  by_cases hv : v = 0
  · simp [bitlen, hv]
  · by_contra hlt
    have h1 := two_pow_bitlen_le hv
    have h2 := lt_two_pow_bitlen w
    have h3 : (2:Nat) ^ bitlen w ≤ 2 ^ (bitlen v - 1) := Nat.pow_le_pow_right (by decide) (by omega)
    omega

theorem widthOf_le (n : Nat) : widthOf n ≤ 12 := Nat.min_le_left _ _

theorem widthOf_mono {n k : Nat} (h : n ≤ k) : widthOf n ≤ widthOf k := by
  have := bitlen_mono h
  simp only [widthOf]
  omega

/-- A code at or below nextCode, and below 4096, fits the width (30_encoding.md R114, R118). -/
theorem lt_two_pow_widthOf {c n : Nat} (hc : c ≤ n) (h : c < 4096) : c < 2 ^ widthOf n := by
  rcases Nat.le_total (bitlen n) 12 with hb | hb
  · have : widthOf n = bitlen n := Nat.min_eq_right hb
    rw [this]
    exact hc.trans_lt (lt_two_pow_bitlen n)
  · have : widthOf n = 12 := Nat.min_eq_left hb
    rwa [this]

theorem clearCodeOf_eq (m : Nat) : clearCodeOf m = 2 ^ m := by simp [clearCodeOf, Nat.shiftLeft_eq]

theorem endCodeOf_eq (m : Nat) : endCodeOf m = 2 ^ m + 1 := by rw [endCodeOf, clearCodeOf_eq]

/-- clearCode is 4 to 256 (41_lzw_codes.md R170). -/
theorem clearCodeOf_bounds {m : Nat} (h1 : 2 ≤ m) (h2 : m ≤ 8) :
    4 ≤ clearCodeOf m ∧ clearCodeOf m ≤ 256 := by
  rw [clearCodeOf_eq]
  exact ⟨Nat.pow_le_pow_right (by decide) h1 (n := 2), Nat.pow_le_pow_right (by decide) h2 (n := 2)⟩

/-- The first width is m + 1 (30_encoding.md R117). -/
theorem widthOf_first {m : Nat} (h1 : 2 ≤ m) (h2 : m ≤ 8) : widthOf (endCodeOf m + 1) = m + 1 := by
  have h4 := (clearCodeOf_bounds h1 h2).1
  rw [clearCodeOf_eq] at h4
  have hb : bitlen (endCodeOf m + 1) = m + 1 := by
    rw [endCodeOf_eq]
    refine bitlen_eq (by omega) (by omega) ?_
    rw [Nat.pow_succ]
    omega
  rw [widthOf, hb]
  exact Nat.min_eq_right (by show m + 1 ≤ 12; omega)

/-- The bounds of a table state a job passes through. -/
theorem CodeCtx.ok.bounds {x : CodeCtx} (h : x.ok) :
    4 ≤ x.clearCode ∧ x.clearCode ≤ 256 ∧ x.endCode = x.clearCode + 1 ∧
      x.endCode < x.nextCode ∧ x.nextCode ≤ 4096 ∧ x.codeWidth = widthOf x.nextCode :=
  have hb := clearCodeOf_bounds h.1 h.2.1
  ⟨hb.1, hb.2, rfl, h.2.2.1, h.2.2.2.1, h.2.2.2.2⟩

/-- The width is 3 to 12 (10_state.md R44). -/
theorem CodeCtx.ok.width {x : CodeCtx} (h : x.ok) : 3 ≤ x.codeWidth ∧ x.codeWidth ≤ 12 := by
  obtain ⟨h1, h2, h3, -, h5⟩ := h
  rw [h5]
  refine ⟨?_, widthOf_le _⟩
  have h6 : x.m + 1 = widthOf (endCodeOf x.m + 1) := (widthOf_first h1 h2).symm
  have h7 : widthOf (endCodeOf x.m + 1) ≤ widthOf x.nextCode := widthOf_mono h3
  have h8 : 2 ≤ x.m := h1
  omega

end Sys2Proof
end

