-- ==== Sys2Proof/Laws/Ops.lean ====
section
/-!
SUPPORT. What the shared operations can do: going on after a result, the sequential read, the code
table.
-/

namespace Sys2Proof

namespace Machine

/-! ### Results -/

@[simp] theorem Ran.andThen_ok {α β : Type} (a : α) (s : State) (f : α → State → Ran β) :
    (Ran.ok a s).andThen f = f a s := rfl

@[simp] theorem Ran.andThen_raised {α β : Type} (s : State) (f : α → State → Ran β) :
    (Ran.raised s : Ran α).andThen f = .raised s := rfl

@[simp] theorem Ran.toNext_ok (s : State) : (Ran.ok () s).toNext = .next s := rfl

@[simp] theorem Ran.toNext_raised (s : State) : (Ran.raised s).toNext = .next s := rfl

/-- A result is the end of a step or the start of the next part of it. -/
theorem Ran.andThen_eq_ok {α β : Type} {r : Ran α} {f : α → State → Ran β} {b : β} {t : State}
    (h : r.andThen f = .ok b t) : ∃ a u, r = .ok a u ∧ f a u = .ok b t := by
  cases r with
  | ok a u => exact ⟨a, u, rfl, h⟩
  | raised u => cases h

theorem Ran.andThen_eq_raised {α β : Type} {r : Ran α} {f : α → State → Ran β} {t : State}
    (h : r.andThen f = .raised t) : r = .raised t ∨ ∃ a u, r = .ok a u ∧ f a u = .raised t := by
  cases r with
  | ok a u => exact .inr ⟨a, u, rfl, h⟩
  | raised u => cases h; exact .inl rfl

/-- A step that ran or raised has a next state. -/
theorem Ran.toNext_eq_next (r : Ran Unit) : ∃ t, r.toNext = .next t := by
  cases r with
  | ok a s => exact ⟨s, rfl⟩
  | raised s => exact ⟨s, rfl⟩

/-! ### InRead (40_input_stage.md R140) -/

theorem inRead_ok {s : State} (h : s.bytesConsumed.toNat < s.cfg.inLen.toNat) :
    inRead s = .ok (s.input.read s.bytesConsumed.toNat) s.countByte := by
  simp [inRead, Nat.not_le.2 h]

theorem inRead_eof {s : State} (h : s.cfg.inLen.toNat ≤ s.bytesConsumed.toNat) :
    inRead s = .raised (s.raise .unexpectedEof 0) := by
  simp [inRead, h]

/-- BYTES_CONSUMED does not wrap: it stays at or below CFG_IN_LEN. -/
theorem countByte_toNat {s : State} (h : s.bytesConsumed.toNat < s.cfg.inLen.toNat) :
    (s.bytesConsumed + 1).toNat = s.bytesConsumed.toNat + 1 := by
  have := s.cfg.inLen.isLt
  rw [BitVec.toNat_add]
  simp
  omega

theorem inRemaining_countByte {s : State} (h : s.bytesConsumed.toNat < s.cfg.inLen.toNat) :
    s.inRemaining = s.countByte.inRemaining + 1 := by
  have := countByte_toNat h
  simp only [State.inRemaining, State.countByte_cfg, State.countByte_bytesConsumed, this]
  omega

end Machine

/-! ### The code table -/

theorem rootEntries_getElem (clear i : Nat) (es : List (Option Str)) {k : Nat}
    (h : k < (rootEntries clear i es).length) :
    (rootEntries clear i es)[k] =
      if i + k < clear then some (Str.single (BitVec.ofNat 8 (i + k)))
      else es[k]'(by rwa [rootEntries_length] at h) := by
  induction es generalizing i k with
  | nil => simp [rootEntries] at h
  | cons e es ih =>
    cases k with
    | zero => simp [rootEntries]
    | succ k =>
      have hk : k < (rootEntries clear (i + 1) es).length := by simpa [rootEntries] using h
      simp only [rootEntries, List.getElem_cons_succ]
      rw [ih (i + 1) hk]
      simp only [show i + 1 + k = i + (k + 1) by omega]

theorem Dict.get_withRoots (d : Dict) (clear : Nat) (c : Code) :
    (d.withRoots clear).get c =
      if c.toNat < clear then some (Str.single (BitVec.ofNat 8 c.toNat)) else d.get c := by
  have h := rootEntries_getElem clear 0 d.toList (k := c.toNat)
    (by rw [rootEntries_length]; simpa using c.isLt)
  simp only [Nat.zero_add] at h
  exact h

theorem Dict.get_put_same (d : Dict) {k : Nat} (s : Str) {c : Code} (h : c.toNat = k) :
    (d.put k s).get c = some s := by
  have hk : k < 4096 := h ▸ c.isLt
  subst h
  have : d.put c.toNat s = d.set c.toNat (some s) hk := dif_pos hk
  rw [this]
  exact Vector.getElem_set_self hk

theorem Dict.get_put_other (d : Dict) {k : Nat} (s : Str) {c : Code} (h : c.toNat ≠ k) :
    (d.put k s).get c = d.get c := by
  unfold Dict.put
  split
  · exact Vector.getElem_set_ne (by assumption) _ (Ne.symm h)
  · rfl

/-! ### Strings -/

@[simp] theorem Str.toList_single (v : Byte) : (Str.single v).toList = [v] := rfl

@[simp] theorem Str.toList_snoc (s : Str) (v : Byte) : (s.snoc v).toList = s.toList ++ [v] := rfl

@[simp] theorem Str.first_snoc (s : Str) (v : Byte) : (s.snoc v).first = s.first := rfl

@[simp] theorem Str.first_single (v : Byte) : (Str.single v).first = v := rfl

theorem Str.length_toList (s : Str) : s.toList.length = s.length := rfl

@[simp] theorem Str.length_snoc (s : Str) (v : Byte) : (s.snoc v).length = s.length + 1 := by
  simp [Str.length, Str.snoc]

@[simp] theorem Str.length_single (v : Byte) : (Str.single v).length = 1 := rfl

theorem Str.first_mem (s : Str) : s.first ∈ s.toList := List.mem_cons_self

end Sys2Proof
end

