-- ==== Sys2Proof/Laws/Input.lean ====
section
/-!
SUPPORT. What the input stage can do, said once for each of its operations in terms of the bytes and
bits still to come from IN.
-/

namespace Sys2Proof.Machine

/-! ### The bytes to come -/

theorem inBytes_congr {s t : State} (hc : t.cfg.inLen = s.cfg.inLen)
    (hb : t.bytesConsumed = s.bytesConsumed) (hi : t.input = s.input) : t.inBytes = s.inBytes := by
  simp [State.inBytes, State.inRemaining, hc, hb, hi]

theorem inBytes_cons {s : State} (h : s.bytesConsumed.toNat < s.cfg.inLen.toNat) :
    s.inBytes = s.input.read s.bytesConsumed.toNat :: s.countByte.inBytes := by
  rw [State.inBytes, inRemaining_countByte h, List.range_succ_eq_map, List.map_cons, List.map_map]
  congr 1
  simp only [State.inBytes, State.countByte_input, State.countByte_bytesConsumed,
    countByte_toNat h]
  apply List.map_congr_left
  intro i _
  simp only [Function.comp, Nat.succ_eq_add_one]
  congr 1
  omega

theorem inBytes_nil {s : State} (h : s.cfg.inLen.toNat ≤ s.bytesConsumed.toNat) :
    s.inBytes = [] := by
  simp [State.inBytes, State.inRemaining, Nat.sub_eq_zero_of_le h]

theorem dataBytes_nil (r : Nat) : dataBytes r [] = [] := by cases r <;> rfl

theorem chainLength_nil (r : Nat) : chainLength r [] = none := by cases r <;> rfl

/-- The data bytes to come. -/
def State.dataToCome (s : State) : List Byte := dataBytes s.sbRemain.toNat s.inBytes

/-- The distance to the end of the chain. -/
def State.chainToCome (s : State) : Option Nat := chainLength s.sbRemain.toNat s.inBytes

theorem State.pendingBits_eq (s : State) :
    s.pendingBits = bitsOf s.nbits s.acc.toNat ++ s.dataToCome.flatMap byteBits := rfl

theorem toNat_pos {b : Byte} (h : b ≠ 0) : 0 < b.toNat := by
  rcases Nat.eq_zero_or_pos b.toNat with h0 | h0
  · exact absurd (BitVec.eq_of_toNat_eq (by simpa using h0)) h
  · exact h0

theorem toNat_sub_one {b : Byte} (h : b ≠ 0) : (b - 1).toNat = b.toNat - 1 := by
  have h1 := toNat_pos h
  have h2 := b.isLt
  rw [BitVec.toNat_sub]
  simp
  omega

/-- What the de-framer's read of a data byte gives (40_input_stage.md R142): the next data byte, or
TERM one byte further on, or UnexpectedEof at CFG_IN_LEN. -/
inductive NextByte (s : State) : Ran (Option Byte) → Prop where
  | byte (b : Byte) (n : Nat) (t : State)
      (frame : t = { s with sbRemain := t.sbRemain, bytesConsumed := t.bytesConsumed })
      (read : t.bytesConsumed.toNat = s.bytesConsumed.toNat + n) (some_read : 0 < n)
      (le : t.bytesConsumed.toNat ≤ s.cfg.inLen.toNat)
      (data : s.dataToCome = b :: t.dataToCome)
      (chain : s.chainToCome = t.chainToCome.map (· + n)) : NextByte s (.ok (some b) t)
  | term (t : State) (frame : t = { s with bytesConsumed := t.bytesConsumed })
      (closed : s.sbRemain = 0)
      (read : t.bytesConsumed.toNat = s.bytesConsumed.toNat + 1)
      (le : t.bytesConsumed.toNat ≤ s.cfg.inLen.toNat)
      (zero : s.input.read s.bytesConsumed.toNat = 0)
      (data : s.dataToCome = []) (chain : s.chainToCome = some 1) : NextByte s (.ok none t)
  | eof (t : State)
      (frame : t = { s with
        errCode := 2, errInfo := 0, jobState := .error
        sbRemain := t.sbRemain, bytesConsumed := t.bytesConsumed })
      (at_end : s.bytesConsumed.toNat ≤ s.cfg.inLen.toNat → t.bytesConsumed = s.cfg.inLen)
      (past : s.cfg.inLen.toNat < s.bytesConsumed.toNat → t.bytesConsumed = s.bytesConsumed)
      (data : s.dataToCome = []) (chain : s.chainToCome = none) : NextByte s (.raised t)

theorem dataByte_spec {s : State} (hr : s.sbRemain ≠ 0) : NextByte s (dataByte s) := by
  have hp := toNat_pos hr
  obtain ⟨r, hr'⟩ : ∃ r, s.sbRemain.toNat = r + 1 := ⟨_, (Nat.succ_pred_eq_of_pos hp).symm⟩
  unfold dataByte
  by_cases h : s.bytesConsumed.toNat < s.cfg.inLen.toNat
  · rw [inRead_ok h, Ran.andThen_ok]
    have hs : s.countByte.useDataByte.sbRemain.toNat = r := by
      show (s.sbRemain - 1).toNat = r
      rw [toNat_sub_one hr, hr', Nat.add_sub_cancel]
    have hi : s.countByte.useDataByte.inBytes = s.countByte.inBytes := rfl
    refine .byte _ 1 _ rfl (countByte_toNat h) Nat.one_pos ?_ ?_ ?_
    · show (s.bytesConsumed + 1).toNat ≤ _
      rw [countByte_toNat h]
      omega
    · simp only [State.dataToCome, hs, hi, hr', inBytes_cons h, dataBytes]
    · simp only [State.chainToCome, hs, hi, hr', inBytes_cons h, chainLength]
  · have h' := Nat.not_lt.1 h
    rw [inRead_eof h', Ran.andThen_raised]
    refine .eof _ rfl (fun hle => ?_) (fun _ => rfl) ?_ ?_
    · exact BitVec.eq_of_toNat_eq (Nat.le_antisymm hle h')
    · simp only [State.dataToCome, inBytes_nil h', dataBytes_nil]
    · simp only [State.chainToCome, inBytes_nil h', chainLength_nil]

theorem nextDataByte_spec (s : State) : NextByte s (nextDataByte s) := by
  unfold nextDataByte
  split
  · next h0 =>
    have hz : s.sbRemain.toNat = 0 := by simp [h0]
    by_cases h : s.bytesConsumed.toNat < s.cfg.inLen.toNat
    · have hc := countByte_toNat h
      rw [inRead_ok h, Ran.andThen_ok]
      split
      · next hl =>
        refine .term _ rfl h0 hc ?_ hl ?_ ?_
        · show (s.bytesConsumed + 1).toNat ≤ _
          rw [hc]
          omega
        · simp only [State.dataToCome, hz, inBytes_cons h, dataBytes, hl, if_true]
        · simp only [State.chainToCome, hz, inBytes_cons h, chainLength, hl, if_true]
      · next hl =>
        generalize hL : s.input.read s.bytesConsumed.toNat = len at hl
        have hd : s.dataToCome = (s.countByte.openSubBlock len).dataToCome := by
          simp only [State.dataToCome, hz, inBytes_cons h, dataBytes, hL, hl, if_false]
          rfl
        have hch : s.chainToCome = (s.countByte.openSubBlock len).chainToCome.map (· + 1) := by
          simp only [State.chainToCome, hz, inBytes_cons h, chainLength, hL, hl, if_false]
          rfl
        have spec := dataByte_spec (s := s.countByte.openSubBlock len) hl
        revert spec
        generalize dataByte (s.countByte.openSubBlock len) = r
        rintro (⟨b, n, t, frame, read, pos, le, data, chain⟩ | ⟨t, -, closed, -⟩ |
          ⟨t, frame, at_end, -, data, chain⟩)
        · refine .byte b (n + 1) t ?_ ?_ (Nat.succ_pos n) le (hd.trans data) ?_
          · rw [frame]; rfl
          · rw [read]
            show (s.bytesConsumed + 1).toNat + n = _
            rw [hc]
            omega
          · rw [hch, chain, Option.map_map]
            congr 1
        · exact absurd closed hl
        · refine .eof t ?_ (fun _ => ?_) (fun hlt => absurd hlt (by omega)) (hd.trans data) ?_
          · rw [frame]; rfl
          · refine at_end ?_
            show (s.bytesConsumed + 1).toNat ≤ s.cfg.inLen.toNat
            rw [hc]
            omega
          · rw [hch, chain]; rfl
    · have h' := Nat.not_lt.1 h
      rw [inRead_eof h', Ran.andThen_raised]
      refine .eof _ rfl (fun hle => ?_) (fun _ => rfl) ?_ ?_
      · exact BitVec.eq_of_toNat_eq (Nat.le_antisymm hle h')
      · simp only [State.dataToCome, inBytes_nil h', dataBytes_nil]
      · simp only [State.chainToCome, inBytes_nil h', chainLength_nil]
  · next h => exact dataByte_spec h

/-! ### The refill loop (40_input_stage.md R146) -/

/-- What the refill loop gives: w bits held with the same bits to come, or TERM, or UnexpectedEof,
the last two only with fewer than w bits to come. -/
inductive Refilled (s : State) (w : Nat) : Ran Bool → Prop where
  | full (t : State)
      (frame : t = { s with
        acc := t.acc, nbits := t.nbits, sbRemain := t.sbRemain, bytesConsumed := t.bytesConsumed })
      (enough : w ≤ t.nbits) (bound : t.nbits ≤ s.nbits ∨ t.nbits < w + 8)
      (held : t.acc.toNat < 2 ^ t.nbits) (pending : t.pendingBits = s.pendingBits)
      (mono : s.bytesConsumed.toNat ≤ t.bytesConsumed.toNat)
      (le : s.bytesConsumed.toNat ≤ s.cfg.inLen.toNat →
        t.bytesConsumed.toNat ≤ s.cfg.inLen.toNat)
      (work : s.bytesConsumed.toNat ≤ s.cfg.inLen.toNat →
        8 * t.inRemaining + t.nbits ≤ 8 * s.inRemaining + s.nbits) : Refilled s w (.ok true t)
  | term (t : State)
      (frame : t = { s with
        acc := t.acc, nbits := t.nbits, sbRemain := 0, bytesConsumed := t.bytesConsumed })
      (short : s.pendingBits.length < w)
      (bound : t.nbits ≤ s.nbits ∨ t.nbits < w)
      (held : t.acc.toNat < 2 ^ t.nbits)
      (le : t.bytesConsumed.toNat ≤ s.cfg.inLen.toNat)
      (mono : s.bytesConsumed.toNat < t.bytesConsumed.toNat)
      (zero : s.input.read (t.bytesConsumed.toNat - 1) = 0)
      (chain : s.chainToCome = some (t.bytesConsumed.toNat - s.bytesConsumed.toNat)) :
      Refilled s w (.ok false t)
  | eof (t : State)
      (frame : t = { s with
        errCode := 2, errInfo := 0, jobState := .error
        acc := t.acc, nbits := t.nbits, sbRemain := t.sbRemain, bytesConsumed := t.bytesConsumed })
      (short : s.pendingBits.length < w)
      (at_end : s.bytesConsumed.toNat ≤ s.cfg.inLen.toNat → t.bytesConsumed = s.cfg.inLen)
      (chain : s.chainToCome = none) : Refilled s w (.raised t)

theorem refill_spec {w : Nat} (hw : w ≤ 16) (n : Nat) (s : State) (hn : w ≤ s.nbits + 8 * n)
    (ha : s.acc.toNat < 2 ^ s.nbits) : Refilled s w (refill n w s) := by
  induction n generalizing s with
  | zero =>
    exact .full s rfl (by omega) (.inl le_rfl) ha rfl le_rfl id fun _ => le_rfl
  | succ n ih =>
    unfold refill
    split
    · next h => exact .full s rfl h (.inl le_rfl) ha rfl le_rfl id fun _ => le_rfl
    · next h =>
      have hlt : s.nbits < w := Nat.not_le.1 h
      have spec := nextDataByte_spec s
      revert spec
      generalize nextDataByte s = r
      rintro (⟨b, k, u, frame, read, pos, le, data, chain⟩ |
        ⟨u, frame, closed, read, le, zero, data, chain⟩ | ⟨u, frame, at_end, -, data, chain⟩)
      · -- a data byte goes into the accumulator
        have hua : u.acc = s.acc := by rw [frame]
        have hun : u.nbits = s.nbits := by rw [frame]
        have hui : u.input = s.input := by rw [frame]
        have huc : u.cfg = s.cfg := by rw [frame]
        have hpb : (u.pushByte b).pendingBits = s.pendingBits := by
          have hd : (u.pushByte b).dataToCome = u.dataToCome := rfl
          rw [State.pendingBits_eq, State.pendingBits_eq, hd, data]
          simp only [State.pushByte_nbits, State.pushByte_acc, hua, hun]
          rw [push_bits ha (by omega), List.flatMap_cons, List.append_assoc]
        have hpc : (u.pushByte b).chainToCome = u.chainToCome := rfl
        have hpr : (u.pushByte b).inRemaining = u.inRemaining := rfl
        have hrem : s.bytesConsumed.toNat ≤ s.cfg.inLen.toNat →
            8 * u.inRemaining + 8 ≤ 8 * s.inRemaining := by
          intro _
          simp only [State.inRemaining, huc, read] at le ⊢
          omega
        have step := ih (u.pushByte b)
          (by simp only [State.pushByte_nbits, hun]; omega)
          (by simp only [State.pushByte_nbits, State.pushByte_acc, hun, hua]
              exact push_lt ha (by omega))
        show Refilled s w (refill n w (u.pushByte b))
        revert step
        generalize refill n w (u.pushByte b) = r
        rintro (⟨t, tf, enough, bound, held, pend, mono, tle, work⟩ |
          ⟨t, tf, short, bound, held, tle, mono, tz, tch⟩ | ⟨t, tf, short, tend, tch⟩)
        · refine .full t ?_ enough ?_ held (pend.trans hpb) ?_ ?_ ?_
          · rw [tf, State.pushByte, frame]
          · simp only [State.pushByte_nbits, hun] at bound
            omega
          · simp only [State.pushByte_bytesConsumed] at mono
            omega
          · intro _
            simp only [State.pushByte_bytesConsumed, State.pushByte_cfg, huc] at tle
            exact tle le
          · intro hs
            simp only [State.pushByte_bytesConsumed, State.pushByte_cfg, State.pushByte_nbits, huc,
              hun, hpr] at work
            have := work le
            have := hrem hs
            omega
        · refine .term t ?_ ?_ ?_ held ?_ ?_ ?_ ?_
          · rw [tf, State.pushByte, frame]
          · rw [← hpb]; exact short
          · simp only [State.pushByte_nbits, hun] at bound
            have h1 : t.nbits ≤ s.nbits + 8 ∨ t.nbits < w := bound
            rcases h1 with h1 | h1
            · have h2 : (u.pushByte b).pendingBits.length < w := short
              rw [hpb] at h2
              have h3 : s.pendingBits.length = s.nbits + (s.dataToCome.flatMap byteBits).length := by
                rw [State.pendingBits_eq, List.length_append, bitsOf_length]
              rw [data, List.flatMap_cons, List.length_append, byteBits_length] at h3
              omega
            · exact .inr h1
          · simpa [huc] using tle
          · simp only [State.pushByte_bytesConsumed] at mono
            omega
          · simpa [hui] using tz
          · rw [chain, ← hpc, tch]
            simp only [State.pushByte_bytesConsumed, Option.map_some, Option.some.injEq] at mono ⊢
            omega
        · refine .eof t ?_ ?_ ?_ ?_
          · rw [tf, State.pushByte, frame]
          · rw [← hpb]; exact short
          · intro _
            have := tend (by simpa [huc] using le)
            simpa [huc] using this
          · rw [chain, ← hpc, tch]; rfl
      · -- the terminator
        have hub : s.pendingBits.length = s.nbits := by
          rw [State.pendingBits_eq, data]; simp
        refine .term u ?_ (by omega) (.inl (by rw [frame])) (by rw [frame]; exact ha) le ?_ ?_ ?_
        · rw [frame]
          simp [closed]
        · omega
        · rw [read, Nat.add_sub_cancel]; exact zero
        · rw [chain, read, Nat.add_sub_cancel_left]
      · -- the end of IN
        have hub : s.pendingBits.length = s.nbits := by
          rw [State.pendingBits_eq, data]; simp
        exact .eof u (by rw [frame]) (by omega) at_end chain

/-! ### ReadCode (40_input_stage.md R146, R149) -/

/-- What ReadCode gives. -/
inductive CodeRead (s : State) (w : Nat) : Ran (Option Code) → Prop where
  | code (c : Code) (t : State)
      (frame : t = { s with
        acc := t.acc, nbits := t.nbits, sbRemain := t.sbRemain, bytesConsumed := t.bytesConsumed })
      (value : s.pendingBits = bitsOf w c.toNat ++ t.pendingBits) (fits : c.toNat < 2 ^ w)
      (bound : t.nbits + w ≤ s.nbits ∨ t.nbits < 8) (held : t.acc.toNat < 2 ^ t.nbits)
      (mono : s.bytesConsumed.toNat ≤ t.bytesConsumed.toNat)
      (le : s.bytesConsumed.toNat ≤ s.cfg.inLen.toNat →
        t.bytesConsumed.toNat ≤ s.cfg.inLen.toNat)
      (work : s.bytesConsumed.toNat ≤ s.cfg.inLen.toNat →
        8 * t.inRemaining + t.nbits + w ≤ 8 * s.inRemaining + s.nbits) :
      CodeRead s w (.ok (some c) t)
  | term (t : State)
      (frame : t = { s with
        acc := t.acc, nbits := t.nbits, sbRemain := 0, bytesConsumed := t.bytesConsumed })
      (short : s.pendingBits.length < w)
      (le : t.bytesConsumed.toNat ≤ s.cfg.inLen.toNat)
      (mono : s.bytesConsumed.toNat < t.bytesConsumed.toNat)
      (zero : s.input.read (t.bytesConsumed.toNat - 1) = 0)
      (chain : s.chainToCome = some (t.bytesConsumed.toNat - s.bytesConsumed.toNat)) :
      CodeRead s w (.ok none t)
  | eof (t : State)
      (frame : t = { s with
        errCode := 2, errInfo := 0, jobState := .error
        acc := t.acc, nbits := t.nbits, sbRemain := t.sbRemain, bytesConsumed := t.bytesConsumed })
      (short : s.pendingBits.length < w)
      (at_end : s.bytesConsumed.toNat ≤ s.cfg.inLen.toNat → t.bytesConsumed = s.cfg.inLen)
      (chain : s.chainToCome = none) : CodeRead s w (.raised t)

theorem readCode_spec {s : State} {w : Nat} (hw : w ≤ 12) (ha : s.acc.toNat < 2 ^ s.nbits) :
    CodeRead s w (readCode w s) := by
  have spec := refill_spec (w := w) (by omega) w s (by omega) ha
  unfold readCode
  revert spec
  generalize refill w w s = r
  rintro (⟨t, tf, enough, bound, held, pend, mono, tle, work⟩ |
    ⟨t, tf, short, bound, held, tle, mono, tz, tch⟩ | ⟨t, tf, short, tend, tch⟩)
  · have hcode : (t.lowCode w).toNat = t.acc.toNat % 2 ^ w := lowCode_toNat hw
    refine .code (t.lowCode w) (t.dropBits w) ?_ ?_ ?_ ?_ ?_ mono tle ?_
    · rw [State.dropBits, tf]
    · rw [← pend, State.pendingBits_eq, State.pendingBits_eq, drop_bits enough, hcode,
        List.append_assoc]
      rfl
    · rw [hcode]
      exact Nat.mod_lt _ (Nat.two_pow_pos w)
    · simp only [State.dropBits_nbits]
      omega
    · exact drop_lt held enough
    · intro h
      have := work h
      show 8 * t.inRemaining + (t.nbits - w) + w ≤ _
      omega
  · exact .term t tf short tle mono tz tch
  · exact .eof t tf short tend tch

/-- ReadCode writes acc, nbits, sbRemain and BYTES_CONSUMED only, whatever it starts from. -/
theorem refill_frame (n w : Nat) (s t : State) (full : Bool) (h : refill n w s = .ok full t) :
    t = { s with
      acc := t.acc, nbits := t.nbits, sbRemain := t.sbRemain, bytesConsumed := t.bytesConsumed } := by
  induction n generalizing s with
  | zero => cases h; rfl
  | succ n ih =>
    unfold refill at h
    split at h
    · cases h; rfl
    · have spec := nextDataByte_spec s
      revert spec h
      generalize nextDataByte s = r
      intro h spec
      cases spec with
      | byte b k u frame =>
        have := ih (u.pushByte b) h
        rw [this, State.pushByte, frame]
      | term u frame => cases h; rw [frame]
      | eof u => cases h

theorem readCode_frame {w : Nat} {s t : State} {c : Option Code} (h : readCode w s = .ok c t) :
    t = { s with
      acc := t.acc, nbits := t.nbits, sbRemain := t.sbRemain, bytesConsumed := t.bytesConsumed } := by
  obtain ⟨full, u, hu, hc⟩ := Ran.andThen_eq_ok h
  have hf := refill_frame w w s u full hu
  cases full with
  | true => cases hc; rw [State.dropBits, hf]
  | false => cases hc; exact hf

/-! ### SkipToEnd (40_input_stage.md R151) -/

/-- What the drain's loop gives. -/
inductive Skipped (s : State) : Ran Unit → Prop where
  | done (t : State) (frame : t = { s with sbRemain := 0, bytesConsumed := t.bytesConsumed })
      (le : t.bytesConsumed.toNat ≤ s.cfg.inLen.toNat)
      (mono : s.bytesConsumed.toNat < t.bytesConsumed.toNat)
      (zero : s.input.read (t.bytesConsumed.toNat - 1) = 0)
      (chain : s.chainToCome = some (t.bytesConsumed.toNat - s.bytesConsumed.toNat)) :
      Skipped s (.ok () t)
  | eof (t : State)
      (frame : t = { s with
        errCode := 2, errInfo := 0, jobState := .error
        sbRemain := t.sbRemain, bytesConsumed := t.bytesConsumed })
      (at_end : s.bytesConsumed.toNat ≤ s.cfg.inLen.toNat → t.bytesConsumed = s.cfg.inLen)
      (chain : s.chainToCome = none) : Skipped s (.raised t)

theorem skipFrom_spec (n : Nat) (s : State) (hn : s.inRemaining = n) :
    Skipped s (skipFrom n s) := by
  induction n generalizing s with
  | zero =>
    have h : s.cfg.inLen.toNat ≤ s.bytesConsumed.toNat := by
      simp only [State.inRemaining] at hn
      omega
    refine .eof _ rfl (fun hle => ?_) ?_
    · exact BitVec.eq_of_toNat_eq (Nat.le_antisymm hle h)
    · simp only [State.chainToCome, inBytes_nil h, chainLength_nil]
  | succ n ih =>
    have h : s.bytesConsumed.toNat < s.cfg.inLen.toNat := by
      simp only [State.inRemaining] at hn
      omega
    have hc := countByte_toNat h
    have hrem : s.countByte.inRemaining = n := by
      have := inRemaining_countByte h
      omega
    unfold skipFrom
    rw [inRead_ok h, Ran.andThen_ok]
    generalize hb : s.input.read s.bytesConsumed.toNat = b
    -- one round of the loop goes from `s` to `u`, a byte nearer the end of the chain
    have round : ∀ u : State, u = { s with sbRemain := u.sbRemain, bytesConsumed := u.bytesConsumed } →
        u.bytesConsumed = s.bytesConsumed + 1 → u.inRemaining = n →
        s.chainToCome = u.chainToCome.map (· + 1) → Skipped s (skipFrom n u) := by
      intro u uf ub ur uch
      have spec := ih u ur
      have hui : u.input = s.input := by rw [uf]
      have huc : u.cfg = s.cfg := by rw [uf]
      revert spec
      generalize skipFrom n u = r
      rintro (⟨t, frame, le, mono, zero, chain⟩ | ⟨t, frame, at_end, chain⟩)
      · refine .done t ?_ ?_ ?_ ?_ ?_
        · rw [frame, uf]
        · rwa [huc] at le
        · rw [ub, hc] at mono
          omega
        · rwa [hui] at zero
        · rw [uch, chain]
          rw [ub, hc] at mono ⊢
          simp only [Option.map_some, Option.some.injEq]
          omega
      · refine .eof t ?_ (fun _ => ?_) ?_
        · rw [frame, uf]
        · rw [← huc]
          refine at_end ?_
          rw [ub, hc, huc]
          omega
        · rw [uch, chain]; rfl
    split
    · next h0 =>
      have hz : s.sbRemain.toNat = 0 := by simp [h0]
      split
      · next hb0 =>
        refine .done _ ?_ ?_ ?_ ?_ ?_
        · simp [State.countByte, h0]
        · show (s.bytesConsumed + 1).toNat ≤ _
          rw [hc]
          omega
        · show _ < (s.bytesConsumed + 1).toNat
          rw [hc]
          omega
        · show s.input.read ((s.bytesConsumed + 1).toNat - 1) = 0
          rw [hc, Nat.add_sub_cancel, hb, hb0]
        · show _ = some ((s.bytesConsumed + 1).toNat - _)
          rw [hc, Nat.add_sub_cancel_left]
          simp only [State.chainToCome, hz, inBytes_cons h, chainLength, hb, hb0, if_true]
      · next hb0 =>
        refine round (s.countByte.openSubBlock b) rfl rfl hrem ?_
        simp only [State.chainToCome, hz, inBytes_cons h, chainLength, hb, hb0, if_false]
        rfl
    · next h0 =>
      obtain ⟨r, hr⟩ : ∃ r, s.sbRemain.toNat = r + 1 :=
        ⟨_, (Nat.succ_pred_eq_of_pos (toNat_pos h0)).symm⟩
      refine round s.countByte.useDataByte rfl rfl hrem ?_
      have hs : s.countByte.useDataByte.sbRemain.toNat = r := by
        show (s.sbRemain - 1).toNat = r
        rw [toNat_sub_one h0, hr, Nat.add_sub_cancel]
      have hi : s.countByte.useDataByte.inBytes = s.countByte.inBytes := rfl
      simp only [State.chainToCome, hs, hi, hr, inBytes_cons h, chainLength]

theorem skipToEnd_spec (s : State) : Skipped s (skipToEnd s) := skipFrom_spec _ s rfl

end Sys2Proof.Machine
end

