-- ==== Sys2Proof/Laws/PerInstr.lean ====
section
/-!
SUPPORT. Family Fits: a well-formed instruction whose encoding is a code has a code that fits the
width it is read at (30_encoding.md R113, R114, R118).
-/

namespace Sys2Proof.Laws.Fits

/-- The code that encodes the instruction, if a code does, is below 2^codeWidth. -/
def Statement (i : Instr) : Prop :=
  ∀ (x : CodeCtx) (c : Code), x.ok → i.wellFormed x = true → encode x i = .code c →
    c.toNat < 2 ^ x.codeWidth

/-- A code at or below nextCode fits. -/
theorem fits_of_le {x : CodeCtx} (h : x.ok) {c : Code} (hc : c.toNat ≤ x.nextCode) :
    c.toNat < 2 ^ x.codeWidth := by
  rw [h.bounds.2.2.2.2.2]
  exact lt_two_pow_widthOf hc c.isLt

theorem clear : Statement .clear := by
  intro x c h _ he
  have hb := h.bounds
  cases he
  apply fits_of_le h
  rw [BitVec.toNat_ofNat]
  omega

theorem endInfo : Statement .endInfo := by
  intro x c h _ he
  have hb := h.bounds
  cases he
  apply fits_of_le h
  rw [BitVec.toNat_ofNat]
  omega

theorem root (c : Code) : Statement (.root c) := by
  intro x c' h hw he
  have hb := h.bounds
  cases he
  simp only [Instr.wellFormed, decide_eq_true_eq] at hw
  exact fits_of_le h (by omega)

theorem dict (c : Code) : Statement (.dict c) := by
  intro x c' h hw he
  cases he
  simp only [Instr.wellFormed, Bool.and_eq_true, decide_eq_true_eq] at hw
  exact fits_of_le h hw.2.le

theorem kwkwk (c : Code) : Statement (.kwkwk c) := by
  intro x c' h hw he
  cases he
  simp only [Instr.wellFormed, decide_eq_true_eq] at hw
  exact fits_of_le h hw.le

theorem invalid (c : Code) : Statement (.invalid c) := by
  intro x c' _ hw he
  cases he
  simp only [Instr.wellFormed, Bool.and_eq_true, decide_eq_true_eq] at hw
  exact hw.2

theorem sbTerm : Statement .sbTerm := fun _ _ _ _ he => by cases he

theorem sbData (len : Byte) : Statement (.sbData len) := fun _ _ _ _ he => by cases he

theorem start (reserved : BitVec 31) : Statement (.start reserved) := fun _ _ _ _ he => by cases he

theorem ctrlNop (reserved : BitVec 31) : Statement (.ctrlNop reserved) :=
  fun _ _ _ _ he => by cases he

theorem reset : Statement .reset := fun _ _ _ _ he => by cases he

theorem cfgWrite (r : CfgReg) (v : Word) : Statement (.cfgWrite r v) :=
  fun _ _ _ _ he => by cases he

theorem palWrite (i : Byte) (v : Word) : Statement (.palWrite i v) := fun _ _ _ _ he => by cases he

theorem statusRead (r : StatusReg) : Statement (.statusRead r) := fun _ _ _ _ he => by cases he

theorem regRead (r : ReadReg) : Statement (.regRead r) := fun _ _ _ _ he => by cases he

theorem roWrite (r : StatusReg) (v : Word) : Statement (.roWrite r v) :=
  fun _ _ _ _ he => by cases he

theorem unlisted (a : HostAccess) : Statement (.unlisted a) := fun _ _ _ _ he => by cases he

end Sys2Proof.Laws.Fits
end

