-- ==== Sys2Proof/Laws/Pixel.lean ====
section
/-!
SUPPORT. What the pixel pipeline can do: one index, a list of indices, and the effect on the canvas
that every step's emission has.
-/

namespace Sys2Proof.Machine

theorem pixels_lt (c : Cfg) : c.pixels < 2 ^ 32 := by
  have h1 := c.imgW.isLt
  have h2 := c.imgH.isLt
  have : c.imgW.toNat * c.imgH.toNat ≤ 65535 * 65535 :=
    Nat.mul_le_mul (by omega) (by omega)
  simp only [Cfg.pixels]
  omega

theorem countPixel_toNat {s : State} (h : s.pixCount.toNat < s.cfg.pixels) :
    (s.pixCount + 1).toNat = s.pixCount.toNat + 1 := by
  have := pixels_lt s.cfg
  rw [BitVec.toNat_add]
  simp
  omega

/-- The number of bytes a pixel takes (20_memory.md R88). -/
@[simp] theorem pixelBytes_length (c : Colour) : (pixelBytes c).length = 4 := rfl

theorem holdsPixel_writeList (m : Memory) (off : Nat) (c : Colour) :
    (m.writeList off (pixelBytes c)).holdsPixel off c := by
  have h := fun i (hi : i < 4) => Memory.read_writeList_inside m off (pixelBytes c) (i := i) hi
  exact ⟨h 0 (by omega), h 1 (by omega), h 2 (by omega), h 3 (by omega)⟩

theorem read_writePixel_outside (m : Memory) {off a : Nat} (c : Colour) (h : ¬ inPixel off a) :
    (m.writeList off (pixelBytes c)).read a = m.read a := by
  apply Memory.read_writeList_outside
  rw [pixelBytes_length]
  simp only [inPixel] at h
  omega

/-! ### One index (43_palette_mux.md R257) -/

/-- What `emit(idx)` gives. -/
inductive Emitted (s : State) (idx : Byte) : Ran Unit → Prop where
  | skipped (room : s.pixCount.toNat < s.cfg.pixels) (range : idx.toNat < s.cfg.palLen)
      (select : s.cfg.transparent idx = true) : Emitted s idx (.ok () s.countPixel)
  | painted (room : s.pixCount.toNat < s.cfg.pixels) (range : idx.toNat < s.cfg.palLen)
      (select : s.cfg.transparent idx = false) : Emitted s idx (.ok () (s.paintPixel idx).countPixel)
  | excess (full : s.cfg.pixels ≤ s.pixCount.toNat) :
      Emitted s idx (.raised (s.raise .excessImageData 0))
  | outOfRange (room : s.pixCount.toNat < s.cfg.pixels) (range : s.cfg.palLen ≤ idx.toNat) :
      Emitted s idx (.raised (s.raise .paletteIndexOutOfRange (idx.setWidth 16)))

theorem emit_spec (s : State) (idx : Byte) : Emitted s idx (emit idx s) := by
  unfold emit
  split
  · next h => exact .excess (by simpa [State.allPixelsIn] using h)
  · next h =>
    have h : s.pixCount.toNat < s.cfg.pixels := by simpa [State.allPixelsIn] using h
    split
    · next h2 => exact .outOfRange h (by simpa [Cfg.indexOutOfRange] using h2)
    · next h2 =>
      have h2 : idx.toNat < s.cfg.palLen := by simpa [Cfg.indexOutOfRange] using h2
      split
      · next h3 => exact .skipped h h2 h3
      · next h3 => exact .painted h h2 (by simpa using h3)

/-! ### Lists of indices (41_lzw_codes.md R189) -/

theorem emitList_append (a b : List Byte) (s : State) :
    emitList (a ++ b) s = (emitList a s).andThen fun _ t => emitList b t := by
  induction a generalizing s with
  | nil => rfl
  | cons v a ih =>
    simp only [List.cons_append, emitList]
    cases emit v s with
    | ok _ t => simpa using ih t
    | raised t => rfl

/-- No two pixels of the image share a canvas byte (42_row_address.md R227). -/
def Cfg.distinctPixels (c : Cfg) : Prop :=
  ∀ p p' : Nat, p < c.pixels → p' < c.pixels → p' ≠ p →
    c.pixelOffset p' + 4 ≤ c.pixelOffset p ∨ c.pixelOffset p + 4 ≤ c.pixelOffset p'

/-- Indices that can all be accepted are painted one after another. -/
theorem emitList_painted (l : List Byte) (s : State) (hd : s.cfg.distinctPixels)
    (h : s.accepts l) :
    ∃ t, emitList l s = .ok () t ∧ Painted s t l ∧
      t = { s with pixCount := t.pixCount, canvas := t.canvas } := by
  induction l generalizing s with
  | nil =>
    exact ⟨s, rfl, ⟨by simp, fun i hi => absurd hi (Nat.not_lt_zero i), fun _ _ => rfl⟩, rfl⟩
  | cons v l ih =>
    obtain ⟨hroom, hrange⟩ := h
    have hlen : (v :: l).length = l.length + 1 := rfl
    have hp : s.pixCount.toNat < s.cfg.pixels := by omega
    have hv := hrange v (by simp)
    obtain ⟨u, hu, hun, hcan, huf⟩ : ∃ u, emit v s = .ok () u ∧
        u.pixCount.toNat = s.pixCount.toNat + 1 ∧
        u.canvas = (if s.cfg.transparent v then s.canvas else
          s.canvas.writeList (s.cfg.pixelOffset s.pixCount.toNat) (pixelBytes (palGet s.pal v))) ∧
        u = { s with pixCount := u.pixCount, canvas := u.canvas } := by
      have spec := emit_spec s v
      revert spec
      generalize emit v s = r
      rintro (⟨-, -, hsel⟩ | ⟨-, -, hsel⟩ | ⟨hfull⟩ | ⟨-, hout⟩)
      · exact ⟨_, rfl, countPixel_toNat hp, by simp [hsel], rfl⟩
      · exact ⟨_, rfl, countPixel_toNat hp, by simp [hsel], rfl⟩
      · omega
      · omega
    have hcfg : u.cfg = s.cfg := by rw [huf]
    have hpal : u.pal = s.pal := by rw [huf]
    obtain ⟨t, ht, hpt, htf⟩ := ih u (by rwa [hcfg])
      ⟨by rw [hun, hcfg]; omega, fun w hw => by rw [hcfg]; exact hrange w (by simp [hw])⟩
    refine ⟨t, ?_, ⟨?_, ?_, ?_⟩, ?_⟩
    · simp only [emitList, hu, Ran.andThen_ok, ht]
    · rw [hpt.count, hun, hlen]
      omega
    · intro i hi hsel
      cases i with
      | zero =>
        have hsel' : s.cfg.transparent v = false := hsel
        simp only [hsel', Bool.false_eq_true, if_false] at hcan
        have hhold := holdsPixel_writeList s.canvas (s.cfg.pixelOffset s.pixCount.toNat)
          (palGet s.pal v)
        rw [← hcan] at hhold
        have hkeep : ∀ k, k < 4 →
            t.canvas.read (s.cfg.pixelOffset s.pixCount.toNat + k) =
              u.canvas.read (s.cfg.pixelOffset s.pixCount.toNat + k) := by
          intro k hk
          refine hpt.others _ fun j hj _ hin => ?_
          rw [hun, hcfg] at hin
          have := hd s.pixCount.toNat (s.pixCount.toNat + 1 + j) hp (by omega) (by omega)
          simp only [inPixel] at hin
          omega
        refine ⟨?_, ?_, ?_, ?_⟩
        · exact (hkeep 0 (by omega)).trans hhold.1
        · exact (hkeep 1 (by omega)).trans hhold.2.1
        · exact (hkeep 2 (by omega)).trans hhold.2.2.1
        · exact (hkeep 3 (by omega)).trans hhold.2.2.2
      | succ i =>
        have hi' : i < l.length := by simpa using hi
        have := hpt.written i hi' (by rw [hcfg]; exact hsel)
        rw [hcfg, hpal, hun] at this
        rwa [show s.pixCount.toNat + (i + 1) = s.pixCount.toNat + 1 + i by omega]
    · intro a ha
      rw [hpt.others a fun i hi hsel => ?_]
      · rw [hcan]
        split
        · rfl
        · next hsel =>
          exact read_writePixel_outside _ _ (ha 0 (by simp) (by simpa using hsel))
      · rw [hcfg] at hsel ⊢
        rw [hun, show s.pixCount.toNat + 1 + i = s.pixCount.toNat + (i + 1) by omega]
        exact ha (i + 1) (by simpa using hi) hsel
    · rw [htf, huf]

/-! ### The effect of a step's emission on the canvas -/

/-- What happened to PIX_COUNT and the canvas from `s` to `t`. -/
structure PixelEffect (s t : State) : Prop where
  cfg : t.cfg = s.cfg
  count : s.pixCount.toNat ≤ t.pixCount.toNat
  bound : s.pixCount.toNat ≤ s.cfg.pixels → t.pixCount.toNat ≤ s.cfg.pixels
  wf : s.canvas.wf → t.canvas.wf
  outside : ∀ a, (∀ p, s.pixCount.toNat ≤ p → p < t.pixCount.toNat →
    ¬ inPixel (s.cfg.pixelOffset p) a) → t.canvas.read a = s.canvas.read a
  alpha : ∀ k, t.canvas.read (4 * k + 3) = 255 ∨
    ∀ j, j < 4 → t.canvas.read (4 * k + j) = s.canvas.read (4 * k + j)

/-- Nothing happened to them. -/
theorem PixelEffect.of_eq {s t : State} (hc : t.cfg = s.cfg) (hp : t.pixCount = s.pixCount)
    (hv : t.canvas = s.canvas) : PixelEffect s t :=
  ⟨hc, by rw [hp], by rw [hp]; exact id, by rw [hv]; exact id, fun _ _ => by rw [hv],
    fun _ => .inr fun _ _ => by rw [hv]⟩

theorem PixelEffect.trans {s t u : State} (h : PixelEffect s t) (g : PixelEffect t u) :
    PixelEffect s u := by
  refine ⟨g.cfg.trans h.cfg, h.count.trans g.count, fun hs => ?_, fun hs => g.wf (h.wf hs),
    fun a ha => ?_, fun k => ?_⟩
  · have := g.bound (by rw [h.cfg]; exact h.bound hs)
    rwa [h.cfg] at this
  · rw [g.outside a fun p h1 h2 => ?_, h.outside a fun p h1 h2 => ?_]
    · exact ha p h1 (h2.trans_le g.count)
    · rw [h.cfg]
      exact ha p (h.count.trans h1) h2
  · rcases g.alpha k with hg | hg
    · exact .inl hg
    · rcases h.alpha k with hh | hh
      · exact .inl ((hg 3 (by omega)).trans hh)
      · exact .inr fun j hj => (hg j hj).trans (hh j hj)

theorem pixelEffect_emit {s : State} {idx : Byte} :
    (∀ t, emit idx s = .ok () t → PixelEffect s t) ∧
    (∀ t, emit idx s = .raised t → PixelEffect s t) := by
  have spec := emit_spec s idx
  revert spec
  generalize emit idx s = r
  rintro (⟨room, -, -⟩ | ⟨room, -, -⟩ | ⟨-⟩ | ⟨-, -⟩)
  · refine ⟨fun t ht => ?_, fun t ht => (by cases ht)⟩
    cases ht
    have hn : s.countPixel.pixCount.toNat = s.pixCount.toNat + 1 := countPixel_toNat room
    exact ⟨rfl, by omega, fun _ => by omega, id, fun _ _ => rfl, fun _ => .inr fun _ _ => rfl⟩
  · refine ⟨fun t ht => ?_, fun t ht => (by cases ht)⟩
    cases ht
    have hn : (s.paintPixel idx).countPixel.pixCount.toNat = s.pixCount.toNat + 1 :=
      countPixel_toNat room
    refine ⟨rfl, by omega, fun _ => by omega, fun h => Memory.wf_writeList h _ _, fun a ha => ?_,
      fun k => ?_⟩
    · exact read_writePixel_outside _ _ (ha _ le_rfl (by omega))
    · have hoff : ∃ q, s.cfg.pixelOffset s.pixCount.toNat = 4 * q := ⟨_, rfl⟩
      obtain ⟨q, hq⟩ := hoff
      by_cases hk : q = k
      · subst hk
        left
        have := (holdsPixel_writeList s.canvas (4 * q) (palGet s.pal idx)).2.2.2
        simpa [State.countPixel, State.paintPixel, hq] using this
      · right
        intro j hj
        refine read_writePixel_outside _ _ ?_
        rw [hq]
        simp only [inPixel]
        omega
  · exact ⟨fun t ht => (by cases ht), fun t ht => by cases ht; exact .of_eq rfl rfl rfl⟩
  · exact ⟨fun t ht => (by cases ht), fun t ht => by cases ht; exact .of_eq rfl rfl rfl⟩

/-- What `EmitString` gives, whatever the string: only PIX_COUNT and the canvas change, and an error
is ExcessImageData or PaletteIndexOutOfRange. -/
inductive EmittedList (s : State) : Ran Unit → Prop where
  | ok (t : State) (frame : t = { s with pixCount := t.pixCount, canvas := t.canvas })
      (effect : PixelEffect s t) : EmittedList s (.ok () t)
  | raised (t : State) (e : ErrorKind) (kind : e = .excessImageData ∨ e = .paletteIndexOutOfRange)
      (frame : t = { s with
        pixCount := t.pixCount, canvas := t.canvas
        errCode := errorNumber e, errInfo := t.errInfo, jobState := .error })
      (effect : PixelEffect s t) : EmittedList s (.raised t)

theorem emitList_spec (l : List Byte) (s : State) : EmittedList s (emitList l s) := by
  induction l generalizing s with
  | nil => exact .ok s rfl (.of_eq rfl rfl rfl)
  | cons v l ih =>
    have eff := pixelEffect_emit (s := s) (idx := v)
    have spec := emit_spec s v
    simp only [emitList]
    revert spec eff
    generalize emit v s = r
    intro eff spec
    cases r with
    | ok _ u =>
      have heff := eff.1 u rfl
      have hf : u = { s with pixCount := u.pixCount, canvas := u.canvas } := by
        cases spec <;> rfl
      have step := ih u
      show EmittedList s (emitList l u)
      revert step
      generalize emitList l u = r
      rintro (⟨t, frame, effect⟩ | ⟨t, e, kind, frame, effect⟩)
      · exact .ok t (by rw [frame, hf]) (heff.trans effect)
      · exact .raised t e kind (by rw [frame, hf]) (heff.trans effect)
    | raised u =>
      have heff := eff.2 u rfl
      show EmittedList s (.raised u)
      cases spec with
      | excess => exact .raised _ .excessImageData (.inl rfl) rfl heff
      | outOfRange => exact .raised _ .paletteIndexOutOfRange (.inr rfl) rfl heff

end Sys2Proof.Machine
end

