-- ==== Sys2Proof/Laws/Table.lean ====
section
/-!
SUPPORT. What the table reset and an insertion do to the code table, and that both keep its
invariant.
-/

namespace Sys2Proof.Machine

theorem codeCtx_m (s : State) : s.codeCtx.m = s.cfg.mincode.toNat := rfl

theorem codeCtx_nextCode (s : State) : s.codeCtx.nextCode = s.nextCode.toNat := rfl

theorem codeCtx_codeWidth (s : State) : s.codeCtx.codeWidth = s.codeWidth.toNat := rfl

/-- The fixed codes depend on CFG_MINCODE only. -/
theorem clearCode_congr {s t : State} (h : t.cfg = s.cfg) :
    t.codeCtx.clearCode = s.codeCtx.clearCode := by
  show clearCodeOf t.cfg.mincode.toNat = clearCodeOf s.cfg.mincode.toNat
  rw [h]

theorem endCode_congr {s t : State} (h : t.cfg = s.cfg) :
    t.codeCtx.endCode = s.codeCtx.endCode := by
  show endCodeOf t.cfg.mincode.toNat = endCodeOf s.cfg.mincode.toNat
  rw [h]

/-- The table invariant looks at the configuration and the table only. -/
theorem TableInv.congr {s t : State} (h : TableInv s) (hc : t.cfg = s.cfg) (hd : t.dict = s.dict)
    (hn : t.nextCode = s.nextCode) (hw : t.codeWidth = s.codeWidth)
    (hp : t.prevCode = s.prevCode) : TableInv t := by
  have hx : t.codeCtx = s.codeCtx := by simp [State.codeCtx, hc, hn, hw]
  obtain ⟨h1, h2, h3, h4, h5⟩ := h
  constructor
  · rwa [hx]
  · rwa [hx, hd]
  · rwa [hx, hd, hn]
  · rwa [hx, hn, hp]
  · rwa [hx, hn, hp]

/-! ### Reset -/

theorem initTable_reset {s : State} (h1 : 2 ≤ s.cfg.mincode.toNat) (h2 : s.cfg.mincode.toNat ≤ 8) :
    TableReset s s.initTable := by
  have hb := clearCodeOf_bounds h1 h2
  refine ⟨fun c hc => ?_, fun c hc => ?_, ?_, ?_, rfl⟩
  · simp [Dict.get_withRoots, hc]
  · simp [Dict.get_withRoots, Nat.not_lt.2 hc]
  · show (BitVec.ofNat 13 (endCodeOf s.cfg.mincode.toNat + 1)).toNat = _
    rw [BitVec.toNat_ofNat]
    exact Nat.mod_eq_of_lt (by simp only [endCodeOf]; omega)
  · show (BitVec.ofNat 4 (s.cfg.mincode.toNat + 1)).toNat = _
    rw [BitVec.toNat_ofNat]
    exact Nat.mod_eq_of_lt (by omega)

theorem initTable_inv {s : State} (h1 : 2 ≤ s.cfg.mincode.toNat) (h2 : s.cfg.mincode.toNat ≤ 8) :
    TableInv s.initTable := by
  have hr := initTable_reset h1 h2
  have hb := clearCodeOf_bounds h1 h2
  have hcc : s.initTable.codeCtx.clearCode = s.codeCtx.clearCode := rfl
  have hec : s.initTable.codeCtx.endCode = s.codeCtx.endCode := rfl
  have he : s.codeCtx.endCode = s.codeCtx.clearCode + 1 := rfl
  have hcv : s.codeCtx.clearCode = clearCodeOf s.cfg.mincode.toNat := rfl
  refine ⟨⟨h1, h2, ?_, ?_, ?_⟩, ?_, ?_, ?_, ?_⟩
  · rw [codeCtx_nextCode, hr.nextCode, hec]
    omega
  · rw [codeCtx_nextCode, hr.nextCode, he, hcv]
    show _ ≤ 4096
    omega
  · rw [codeCtx_codeWidth, codeCtx_nextCode, hr.codeWidth, hr.nextCode]
    exact (widthOf_first h1 h2).symm
  · rw [hcc]
    exact hr.roots
  · intro c hc1 hc2
    rw [hr.nextCode] at hc2
    rw [hec] at hc1
    omega
  · intro _
    rw [hr.nextCode, hec]
  · intro p hp
    rw [hr.prevCode] at hp
    cases hp

/-! ### Insertion (41_lzw_codes.md R180) -/

theorem growsWidth_iff (n : Nat) (w : BitVec 4) :
    growsWidth n w = true ↔ n = 2 ^ w.toNat ∧ w.toNat < 12 := by
  simp only [growsWidth, Nat.shiftLeft_eq, Nat.one_mul, Bool.and_eq_true, decide_eq_true_eq]
  rfl

theorem insertEntry_nextCode_toNat {s : State} (hn : s.nextCode.toNat < 4096) :
    (s.nextCode + 1).toNat = s.nextCode.toNat + 1 := by
  rw [BitVec.toNat_add]
  simp
  omega

theorem insertEntry_inserted {s : State} (str : Str) (hn : s.nextCode.toNat < 4096) :
    Inserted s (s.insertEntry str) str := by
  refine ⟨fun c hc => Dict.get_put_same _ _ hc, fun c hc => Dict.get_put_other _ _ hc,
    insertEntry_nextCode_toNat hn, ?_⟩
  rw [State.insertEntry_codeWidth]
  by_cases h : s.nextCode.toNat + 1 = 2 ^ s.codeWidth.toNat ∧ s.codeWidth.toNat < 12
  · rw [if_pos ((growsWidth_iff _ _).2 h), if_pos h, BitVec.toNat_add]
    simp
    omega
  · rw [if_neg (mt (growsWidth_iff _ _).1 h), if_neg h]

/-- The growth test is the width function (41_lzw_codes.md R185). -/
theorem insertEntry_width {s : State} (str : Str) (hn0 : 0 < s.nextCode.toNat)
    (hn : s.nextCode.toNat < 4096) (hw : s.codeWidth.toNat = widthOf s.nextCode.toNat) :
    (s.insertEntry str).codeWidth.toNat = widthOf (s.nextCode.toNat + 1) := by
  have hgrow := (insertEntry_inserted str hn).codeWidth
  generalize hN : s.nextCode.toNat = n at *
  rw [hgrow, hw]
  have hup := lt_two_pow_bitlen n
  have hlo := two_pow_bitlen_le (v := n) (by omega)
  obtain ⟨k, hk⟩ : ∃ k, bitlen n = k + 1 := ⟨Nat.log2 n, by rw [bitlen, if_neg (by omega)]⟩
  rw [hk] at hup hlo
  simp only [Nat.add_sub_cancel] at hlo
  have hwn : widthOf n = min 12 (k + 1) := by simp only [widthOf, hk, Config.maxWidth]
  have hk11 : k ≤ 11 := by
    by_contra hc
    have : (2:Nat) ^ 12 ≤ 2 ^ k := Nat.pow_le_pow_right (by decide) (by omega)
    omega
  have hwk : widthOf n = k + 1 := by omega
  rw [hwk]
  split
  · next h =>
    have hb1 : bitlen (n + 1) = k + 1 + 1 := by
      refine bitlen_eq (by omega) (by omega) ?_
      rw [h.1]
      exact Nat.pow_lt_pow_right (by decide) (by omega)
    simp only [widthOf, hb1, Config.maxWidth]
    omega
  · next h =>
    by_cases hp : n + 1 = 2 ^ (k + 1)
    · have hk12 : k = 11 := by
        by_contra hc
        exact h ⟨hp, by omega⟩
      have hb1 : bitlen (n + 1) = k + 1 + 1 := by
        refine bitlen_eq (by omega) (by omega) ?_
        rw [hp]
        exact Nat.pow_lt_pow_right (by decide) (by omega)
      simp only [widthOf, hb1, Config.maxWidth, hk12]
      omega
    · have hb1 : bitlen (n + 1) = k + 1 := bitlen_eq (by omega) (by omega) (by omega)
      simp only [widthOf, hb1, Config.maxWidth]
      omega

/-- Inserting a short enough string over the alphabet and setting prevCode to a code at or below
the new entry keeps the table's invariant. -/
theorem insertEntry_inv {s : State} (h : TableInv s) (str : Str) (c : Code)
    (hn : s.nextCode.toNat < 4096) (hstr : ∀ v ∈ str.toList, v.toNat < s.codeCtx.clearCode)
    (hlen : str.length ≤ s.nextCode.toNat - s.codeCtx.endCode + 1)
    (hc : c.toNat ≤ s.nextCode.toNat) (hc1 : c.toNat ≠ s.codeCtx.clearCode)
    (hc2 : c.toNat ≠ s.codeCtx.endCode) : TableInv ((s.insertEntry str).setPrev c) := by
  have hi := insertEntry_inserted str hn
  obtain ⟨b1, b2, b3, b4, b5, b6⟩ := h.ctx.bounds
  rw [codeCtx_nextCode] at b4 b5 b6
  rw [codeCtx_codeWidth] at b6
  have hcc : ((s.insertEntry str).setPrev c).codeCtx.clearCode = s.codeCtx.clearCode := rfl
  have hec : ((s.insertEntry str).setPrev c).codeCtx.endCode = s.codeCtx.endCode := rfl
  have hnx : ((s.insertEntry str).setPrev c).nextCode.toNat = s.nextCode.toNat + 1 := hi.nextCode
  refine ⟨⟨h.ctx.1, h.ctx.2.1, ?_, ?_, ?_⟩, ?_, ?_, ?_, ?_⟩
  · rw [hec, codeCtx_nextCode, hnx]
    omega
  · rw [codeCtx_nextCode, hnx]
    exact hn
  · rw [codeCtx_codeWidth, codeCtx_nextCode, hnx]
    exact insertEntry_width str (by omega) hn b6
  · intro d hd
    rw [hcc] at hd
    exact (hi.others d (by omega)).trans (h.roots d hd)
  · intro d hd1 hd2
    rw [hec] at hd1 ⊢
    rw [hcc]
    rw [hnx] at hd2
    by_cases hd : d.toNat = s.nextCode.toNat
    · exact ⟨str, hi.entry d hd, hstr, by rw [hd]; exact hlen⟩
    · obtain ⟨u, hu1, hu2, hu3⟩ := h.entries d hd1 (by omega)
      exact ⟨u, (hi.others d hd).trans hu1, hu2, hu3⟩
  · intro hp
    cases hp
  · intro p hp
    cases hp
    rw [hcc, hec, hnx]
    exact ⟨by omega, hc1, hc2⟩

/-- A data code that inserts nothing: only prevCode changes. -/
theorem setPrev_inv {s : State} (h : TableInv s) (c : Code) (hc : c.toNat < s.nextCode.toNat)
    (hc1 : c.toNat ≠ s.codeCtx.clearCode) (hc2 : c.toNat ≠ s.codeCtx.endCode) :
    TableInv (s.setPrev c) :=
  ⟨h.ctx, h.roots, h.entries, (fun hp => by cases hp), fun p hp => by
    cases hp
    exact ⟨hc, hc1, hc2⟩⟩

/-- A valid code's entry: its string is over the alphabet, and short (41_lzw_codes.md R172, R186). -/
theorem TableInv.entry {s : State} (h : TableInv s) {c : Code} (hc : c.toNat < s.nextCode.toNat)
    (hc1 : c.toNat ≠ s.codeCtx.clearCode) (hc2 : c.toNat ≠ s.codeCtx.endCode) :
    ∃ str, s.dict.get c = some str ∧ (∀ v ∈ str.toList, v.toNat < s.codeCtx.clearCode) ∧
      str.length ≤ max 1 (c.toNat - s.codeCtx.endCode + 1) := by
  obtain ⟨b1, b2, b3, b4, b5, -⟩ := h.ctx.bounds
  rcases Nat.lt_or_ge c.toNat s.codeCtx.clearCode with hlt | hge
  · refine ⟨_, h.roots c hlt, ?_, ?_⟩
    · intro v hv
      rw [Str.toList_single, List.mem_singleton] at hv
      subst hv
      rw [BitVec.toNat_ofNat]
      exact (Nat.mod_le _ _).trans_lt hlt
    · simp
  · obtain ⟨u, hu1, hu2, hu3⟩ := h.entries c (by omega) hc
    exact ⟨u, hu1, hu2, by omega⟩

end Sys2Proof.Machine
end

