-- ==== Sys2Proof/Laws/Step.lean ====
section
/-!
SUPPORT. Said once: everything that running a code can do to a state whose table is as a job's is
(41_lzw_codes.md R174 to R179), and everything a block step of a running job can do (R173, R183).
-/

namespace Sys2Proof.Machine

/-- What running a code does: the frame, the pixels, and either the job goes on with a good table or
an error has been raised. -/
structure CodeEffect (s t : State) : Prop where
  frame : t = { s with
    pixCount := t.pixCount, canvas := t.canvas
    dict := t.dict, nextCode := t.nextCode, codeWidth := t.codeWidth, prevCode := t.prevCode
    phase := t.phase, jobState := t.jobState, errCode := t.errCode, errInfo := t.errInfo }
  pixel : PixelEffect s t
  goesOn : (t.jobState = s.jobState ∧ t.errCode = s.errCode ∧ TableInv t ∧
      (t.phase = s.phase ∨ t.phase = .drain ∧ s.cfg.pixels ≤ t.pixCount.toNat)) ∨
    (t.jobState = .error ∧ t.phase = s.phase ∧ ∃ e ∈ blockErrors, t.errCode = errorNumber e)

/-- Raising one of the block's errors where the code began. -/
theorem CodeEffect.raise (s : State) {e : ErrorKind} (info : BitVec 16) (he : e ∈ blockErrors) :
    CodeEffect s (s.raise e info) :=
  ⟨rfl, .of_eq rfl rfl rfl, .inr ⟨rfl, rfl, e, he, rfl⟩⟩

/-- The errors of the pixel pipeline are the block's. -/
theorem mem_blockErrors_of_pixel {e : ErrorKind}
    (h : e = .excessImageData ∨ e = .paletteIndexOutOfRange) : e ∈ blockErrors := by
  rcases h with rfl | rfl <;> decide

/-- An emission that raised ends the code. -/
theorem CodeEffect.of_raised {s t : State} (h : EmittedList s (.raised t)) : CodeEffect s t := by
  cases h with
  | raised _ e kind frame effect =>
    refine ⟨by rw [frame], effect, .inr ⟨?_, ?_, e, mem_blockErrors_of_pixel kind, ?_⟩⟩ <;>
      rw [frame]

/-- After an emission, a change of the table alone keeps the effect, if the table stays good. -/
theorem CodeEffect.of_emitted {s u t : State} (h : EmittedList s (.ok () u)) (ht : TableInv t)
    (hf : t = { u with
      dict := t.dict, nextCode := t.nextCode, codeWidth := t.codeWidth, prevCode := t.prevCode }) :
    CodeEffect s t := by
  cases h with
  | ok _ frame effect =>
    refine ⟨by rw [hf, frame], effect.trans (.of_eq ?_ ?_ ?_), .inl ⟨?_, ?_, ht, .inl ?_⟩⟩
    all_goals rw [hf]
    all_goals rw [frame]

/-- An emission leaves the table alone. -/
theorem EmittedList.tableInv {s u : State} (h : EmittedList s (.ok () u)) (hs : TableInv s) :
    TableInv u := by
  cases h with
  | ok _ frame effect =>
    rw [frame]
    exact hs.congr rfl rfl rfl rfl rfl

/-- `s ++ [v]` of a valid entry is short enough for the next entry (41_lzw_codes.md R186). -/
theorem snoc_fits {s : State} (h : TableInv s) {p : Code} {ps : Str} (hp : s.prevCode = some p)
    (hg : s.dict.get p = some ps) {v : Byte} (hv : v.toNat < s.codeCtx.clearCode) :
    (∀ x ∈ (ps.snoc v).toList, x.toNat < s.codeCtx.clearCode) ∧
      (ps.snoc v).length ≤ s.nextCode.toNat - s.codeCtx.endCode + 1 := by
  obtain ⟨p1, p2, p3⟩ := h.prevSome p hp
  obtain ⟨str, g1, g2, g3⟩ := h.entry p1 p2 p3
  rw [hg, Option.some.injEq] at g1
  subst g1
  obtain ⟨-, -, -, b4, -, -⟩ := h.ctx.bounds
  rw [codeCtx_nextCode] at b4
  refine ⟨fun x hx => ?_, ?_⟩
  · rw [Str.toList_snoc, List.mem_append, List.mem_singleton] at hx
    rcases hx with hx | rfl
    · exact g2 x hx
    · exact hv
  · simp only [Str.length, Str.snoc, List.length_append, List.length_singleton] at g3 ⊢
    omega

/-- ROOT and DICT: a code below nextCode that is neither clearCode nor endCode. -/
theorem tableCode_effect {s : State} (h : TableInv s) {c : Code} (hc : c.toNat < s.nextCode.toNat)
    (hc1 : c.toNat ≠ s.codeCtx.clearCode) (hc2 : c.toNat ≠ s.codeCtx.endCode) :
    ∃ t, (tableCode c s).toNext = .next t ∧ CodeEffect s t := by
  obtain ⟨str, g1, g2, -⟩ := h.entry hc hc1 hc2
  have spec := emitList_spec str.toList s
  simp only [tableCode, g1]
  revert spec
  generalize emitList str.toList s = r
  intro spec
  cases r with
  | raised u => exact ⟨u, rfl, .of_raised spec⟩
  | ok _ u =>
    have hu := spec.tableInv h
    have huc : u.codeCtx = s.codeCtx ∧ u.nextCode = s.nextCode := by
      cases spec with
      | ok _ frame _ => rw [frame]; exact ⟨rfl, rfl⟩
    rw [Ran.andThen_ok]
    rw [← huc.1] at hc1 hc2 g2
    rw [← huc.2] at hc
    have plain : CodeEffect s (u.setPrev c) := .of_emitted spec (setPrev_inv hu c hc hc1 hc2) rfl
    unfold insertAfterPrev
    split
    · exact ⟨_, rfl, plain⟩
    · next p hp =>
      split
      · exact ⟨_, rfl, plain⟩
      · next hroom =>
        have hroom : u.nextCode.toNat < 4096 := by
          exact Nat.lt_of_not_le fun hle => hroom (decide_eq_true hle)
        obtain ⟨p1, p2, p3⟩ := hu.prevSome p hp
        obtain ⟨ps, g3, -, -⟩ := hu.entry p1 p2 p3
        simp only [g3]
        have hfit := snoc_fits hu hp g3 (v := str.first) (g2 _ (Str.first_mem str))
        exact ⟨_, rfl, .of_emitted spec
          (insertEntry_inv hu _ c hroom hfit.1 hfit.2 hc.le hc1 hc2) rfl⟩

/-- KWKWK: the code equal to nextCode. -/
theorem kwkwkCode_effect {s : State} (h : TableInv s) {c : Code} (hc : c.toNat = s.nextCode.toNat) :
    ∃ t, (kwkwkCode c s).toNext = .next t ∧ CodeEffect s t := by
  unfold kwkwkCode
  split
  · exact ⟨_, rfl, .raise s _ (by decide)⟩
  · next p hp =>
    obtain ⟨p1, p2, p3⟩ := h.prevSome p hp
    obtain ⟨ps, g3, g4, -⟩ := h.entry p1 p2 p3
    simp only [g3]
    have hfit := snoc_fits h hp g3 (v := ps.first) (g4 _ (Str.first_mem ps))
    have spec := emitList_spec (ps.snoc ps.first).toList s
    revert spec
    generalize emitList (ps.snoc ps.first).toList s = r
    intro spec
    cases r with
    | raised u => exact ⟨u, rfl, .of_raised spec⟩
    | ok _ u =>
      have hu := spec.tableInv h
      have huc : u.codeCtx = s.codeCtx ∧ u.nextCode = s.nextCode := by
        cases spec with
        | ok _ frame _ => rw [frame]; exact ⟨rfl, rfl⟩
      obtain ⟨-, -, b3, b4, -, -⟩ := h.ctx.bounds
      rw [codeCtx_nextCode] at b4
      have hlt := c.isLt
      rw [← huc.1] at hfit b3 b4
      rw [← huc.2] at hfit hc b4
      exact ⟨_, rfl, .of_emitted spec
        (insertEntry_inv hu _ c (by omega) hfit.1 hfit.2 hc.le (by omega) (by omega)) rfl⟩

/-- Running any code that has been read, from a good table. -/
theorem execCode_effect {s : State} (h : TableInv s) (c : Code) :
    ∃ t, exec (decodeCode s.codeCtx c) s = .next t ∧ CodeEffect s t := by
  have hx := h.ctx
  unfold decodeCode
  split
  · exact ⟨_, rfl, rfl, .of_eq rfl rfl rfl,
      .inl ⟨rfl, rfl, initTable_inv hx.1 hx.2.1, .inl rfl⟩⟩
  next hc1 =>
  split
  · show ∃ t, execEndInfo s = .next t ∧ _
    unfold execEndInfo
    split
    · next hall =>
      exact ⟨_, rfl, rfl, .of_eq rfl rfl rfl, .inl ⟨rfl, rfl, h.congr rfl rfl rfl rfl rfl,
        .inr ⟨rfl, by simpa [State.allPixelsIn] using hall⟩⟩⟩
    · exact ⟨_, rfl, .raise s _ (by decide)⟩
  next hc2 =>
  split
  · next hc3 =>
    obtain ⟨-, -, b3, b4, -, -⟩ := hx.bounds
    rw [codeCtx_nextCode] at b4
    exact tableCode_effect h (by omega) hc1 hc2
  split
  · next hc4 => exact tableCode_effect h hc4 hc1 hc2
  split
  · next hc5 => exact kwkwkCode_effect h hc5
  · exact ⟨_, rfl, .raise s _ (by decide)⟩

/-! ### The block step -/

/-- The three ways a block step of a running job ends: the job goes on, having used at least three
bits of IN; the job is done; or an error of the block has been raised. -/
inductive BlockResult (s t : State) : Prop where
  | goesOn (busy : t.jobState = .busy) (phase : s.phase = .decode) (err : t.errCode = s.errCode)
      (job : JobInv t) (work : 8 * t.inRemaining + t.nbits + 3 ≤ 8 * s.inRemaining + s.nbits)
  | done (state : t.jobState = .done) (err : t.errCode = s.errCode)
      (full : s.cfg.pixels ≤ t.pixCount.toNat) (read : s.bytesConsumed.toNat < t.bytesConsumed.toNat)
      (zero : s.input.read (t.bytesConsumed.toNat - 1) = 0)
      (chain : s.chainToCome = some (t.bytesConsumed.toNat - s.bytesConsumed.toNat))
  | error (state : t.jobState = .error) (kind : ∃ e ∈ blockErrors, t.errCode = errorNumber e)

/-- What a block step of a running job does: what it may write, where IN stands, the pixels, and how
it ends. -/
structure BlockEffect (s t : State) : Prop where
  frame : t = { s with
    pixCount := t.pixCount, canvas := t.canvas
    dict := t.dict, nextCode := t.nextCode, codeWidth := t.codeWidth, prevCode := t.prevCode
    phase := t.phase, jobState := t.jobState, errCode := t.errCode, errInfo := t.errInfo
    acc := t.acc, nbits := t.nbits, sbRemain := t.sbRemain, bytesConsumed := t.bytesConsumed }
  pixel : PixelEffect s t
  mono : s.bytesConsumed.toNat ≤ t.bytesConsumed.toNat
  le : t.bytesConsumed.toNat ≤ s.cfg.inLen.toNat
  result : BlockResult s t

theorem codeStep_effect {s : State} (hb : s.jobState = .busy) (hp : s.phase = .decode)
    (h : JobInv s) : ∃ t, codeStep s = .next t ∧ BlockEffect s t := by
  have hw := h.table.ctx.width
  rw [codeCtx_codeWidth] at hw
  have spec := readCode_spec (s := s) hw.2 h.held
  unfold codeStep
  revert spec
  generalize readCode s.codeWidth.toNat s = r
  rintro (⟨c, u, frame, -, -, bound, held, mono, le, work⟩ | ⟨u, frame, -, le, mono, zero, chain⟩ |
    ⟨u, frame, -, at_end, -⟩)
  · have hbits := h.bits
    have hnb : u.nbits ≤ 7 := by omega
    have hle := le h.bytes
    have hwork := work h.bytes
    have hcfg : u.cfg = s.cfg := by rw [frame]
    have hut : TableInv u := by rw [frame]; exact h.table.congr rfl rfl rfl rfl rfl
    obtain ⟨t, ht, eff⟩ := execCode_effect hut c
    have hpix : PixelEffect s t :=
      PixelEffect.trans (.of_eq hcfg (by rw [frame]) (by rw [frame])) eff.pixel
    have htf := eff.frame
    have hbc : t.bytesConsumed = u.bytesConsumed := by rw [htf]
    have htn : t.nbits = u.nbits := by rw [htf]
    have hta : t.acc = u.acc := by rw [htf]
    have htr : t.inRemaining = u.inRemaining := by rw [htf]; rfl
    refine ⟨t, ht, by rw [htf, frame], hpix, by rw [hbc]; exact mono, by rw [hbc]; exact hle, ?_⟩
    rcases eff.goesOn with ⟨g1, g2, g3, g4⟩ | ⟨g1, -, g3⟩
    · have hus : u.jobState = .busy := by rw [frame]; exact hb
      have hue : u.errCode = s.errCode := by rw [frame]
      refine .goesOn (g1.trans hus) hp (g2.trans hue) ⟨g3, by omega, by rw [hta, htn]; exact held,
        ?_, ?_, ?_, ?_⟩ (by omega)
      · rw [hbc, hpix.cfg]
        exact hle
      · rw [hpix.cfg]
        exact h.fits
      · rw [hpix.cfg]
        exact hpix.bound h.pixels
      · intro hd
        rw [hpix.cfg]
        rcases g4 with g4 | g4
        · have hup : u.phase = .decode := by rw [frame]; exact hp
          rw [g4, hup] at hd
          cases hd
        · rw [← hcfg]
          exact g4.2
    · exact .error g1 g3
  · show ∃ t, (terminateAtTerminator u).toNext = .next t ∧ _
    unfold terminateAtTerminator
    split
    · next hall =>
      refine ⟨_, rfl, by rw [State.finishJob, frame], .of_eq ?_ ?_ ?_, mono.le, le,
        .done rfl ?_ ?_ mono zero chain⟩
      all_goals rw [frame] at *
      all_goals first | rfl | exact of_decide_eq_true hall
    · exact ⟨_, rfl, by rw [State.raise, frame], .of_eq (by rw [frame]; rfl) (by rw [frame]; rfl)
        (by rw [frame]; rfl), mono.le, le, .error rfl ⟨.truncatedImage, by decide, rfl⟩⟩
  · have hend := at_end h.bytes
    refine ⟨u, rfl, by rw [frame], .of_eq ?_ ?_ ?_, ?_, ?_, .error ?_ ⟨.unexpectedEof, by decide, ?_⟩⟩
    · rw [frame]
    · rw [frame]
    · rw [frame]
    · rw [hend]
      exact h.bytes
    · rw [hend]
    · rw [frame]
    · rw [frame]
      rfl

theorem drainStep_effect {s : State} (hp : s.phase = .drain) (h : JobInv s) :
    ∃ t, (drainStep s).toNext = .next t ∧ BlockEffect s t := by
  have spec := skipToEnd_spec s
  unfold drainStep
  revert spec
  generalize skipToEnd s = r
  rintro (⟨u, frame, le, mono, zero, chain⟩ | ⟨u, frame, at_end, -⟩)
  · refine ⟨u.finishJob, rfl, by rw [State.finishJob, frame], .of_eq ?_ ?_ ?_, mono.le, le,
      .done rfl ?_ ?_ mono zero chain⟩
    · rw [frame]; rfl
    · rw [frame]; rfl
    · rw [frame]; rfl
    · rw [frame]; rfl
    · have hu : u.finishJob.pixCount = s.pixCount := by rw [frame]; rfl
      rw [hu]
      exact h.drained hp
  · have hend := at_end h.bytes
    refine ⟨u, rfl, by rw [frame], .of_eq ?_ ?_ ?_, ?_, ?_, .error ?_ ⟨.unexpectedEof, by decide, ?_⟩⟩
    · rw [frame]
    · rw [frame]
    · rw [frame]
    · rw [hend]
      exact h.bytes
    · rw [hend]
    · rw [frame]
    · rw [frame]
      rfl

theorem blockStep_effect {s : State} (hb : s.jobState = .busy) (h : JobInv s) :
    ∃ t, blockStep s = .next t ∧ BlockEffect s t := by
  unfold blockStep
  rw [hb]
  cases hp : s.phase with
  | decode => exact codeStep_effect hb hp h
  | drain => exact drainStep_effect hp h

end Sys2Proof.Machine
end

