-- ==== Sys2Proof/Tests/Slice0.lean ====
section
/-!
SUPPORT. The author's tests: the smoke test of WellFormed, decodings of words written out from the
spec's encodings, single steps with the results the spec's vectors give, and a state and operands
that meet the hypotheses of each statement.
-/

namespace Sys2Proof.Tests

open Sys2Proof Sys2Proof.Machine

/-! ### WellFormed: each check refuses an ill-formed term -/

theorem test_wf_root : (Instr.root 4).wellFormed tableCtx = false := by decide

theorem test_wf_dict_low : (Instr.dict 5).wellFormed tableCtx = false := by decide

theorem test_wf_dict_high : (Instr.dict 8).wellFormed tableCtx = false := by decide

theorem test_wf_kwkwk : (Instr.kwkwk 7).wellFormed tableCtx = false := by decide

theorem test_wf_invalid_low : (Instr.invalid 8).wellFormed tableCtx = false := by decide

theorem test_wf_invalid_wide : (Instr.invalid 16).wellFormed tableCtx = false := by decide

theorem test_wf_sbData : (Instr.sbData 0).wellFormed tableCtx = false := by decide

theorem test_wf_unlisted : (Instr.unlisted (.read 0x019)).wellFormed tableCtx = false := by decide

/-! ### Decoding: words written out from 30_encoding.md R111, R117 and 10_state.md R30 -/

/-- m = 4: clearCode 16 (R117). -/
theorem test_decode_clear :
    decodeCode { m := 4, nextCode := 18, codeWidth := 5 } 0b10000 = .clear := by decide

/-- m = 4: endCode 17 (R117). -/
theorem test_decode_end :
    decodeCode { m := 4, nextCode := 18, codeWidth := 5 } 0b10001 = .endInfo := by decide

/-- m = 8: the largest root, 255 (R117). -/
theorem test_decode_root :
    decodeCode { m := 8, nextCode := 258, codeWidth := 9 } 0b011111111 = .root 255 := by decide

/-- The full table: 4095 is a DICT code (41_lzw_codes.md R177). -/
theorem test_decode_dict :
    decodeCode { m := 2, nextCode := 4096, codeWidth := 12 } 0b111111111111 = .dict 4095 := by decide

/-- The last KWKWK there can be (41_lzw_codes.md R178). -/
theorem test_decode_kwkwk :
    decodeCode { m := 2, nextCode := 4095, codeWidth := 12 } 0b111111111111 = .kwkwk 4095 := by decide

/-- After `CLEAR ROOT 0`, the value 7 is INVALID (41_lzw_codes.md R179). -/
theorem test_decode_invalid :
    decodeCode { m := 2, nextCode := 6, codeWidth := 3 } 0b111 = .invalid 7 := by decide

theorem test_decode_sbTerm : decodeLengthByte 0b00000000 = .sbTerm := by decide

theorem test_decode_sbData : decodeLengthByte 0b00000001 = .sbData 1 := by decide

theorem test_decode_start : decodeAccess (.write 0x000 0x80000001) = .start 0x40000000 := by decide

theorem test_decode_ctrlNop : decodeAccess (.write 0x000 0xFFFFFFFE) = .ctrlNop 0x7FFFFFFF := by
  decide

theorem test_decode_reset : decode tableCtx .resetInput = .reset := by decide

theorem test_decode_cfgWrite : decodeAccess (.write 0x019 4) = .cfgWrite .inLen 4 := by decide

theorem test_decode_palWrite : decodeAccess (.write 0x1FF 7) = .palWrite 255 7 := by decide

theorem test_decode_statusRead : decodeAccess (.read 0x005) = .statusRead .bytesConsumed := by decide

theorem test_decode_regRead : decodeAccess (.read 0x100) = .regRead (.pal 0) := by decide

theorem test_decode_roWrite : decodeAccess (.write 0x002 0) = .roWrite .errCode 0 := by decide

theorem test_decode_unlisted : decodeAccess (.write 0x01A 1) = .unlisted (.write 0x01A 1) := by decide

/-! ### The table words the host asks about (assumption log 8) -/

theorem test_word_reset : decodeTableWord 0 0 = some .reset := by decide

theorem test_word_sbTerm : decodeTableWord 8 0 = some .sbTerm := by decide

theorem test_word_clear : decodeTableWord 16 4 = some .clear := by decide

theorem test_word_statusRead : decodeTableWord 32 1 = some (.statusRead .status) := by decide

theorem test_word_start : decodeTableWord 64 (2 ^ 32) = some (.start 0) := by decide

theorem test_word_rejected : decodeWord 16 16 = .error .codeTooWide := by rfl

/-! ### Small states -/

/-- The palette P of 95_test_vectors.md: black, white, red, blue. -/
def palP : Palette :=
  (((Vector.replicate 256 0).set 1 0xFFFFFF).set 2 0xFF0000).set 3 0x0000FF

/-- A w by h screen filled by the image, m = 2, palette of four, CFG_IN_LEN as given. -/
def cfgOf (w h : BitVec 16) (len : Nat) : Cfg :=
  { Cfg.zero with
    mincode := 2
    palPresent := true
    palSize := 1
    screenW := w
    screenH := h
    imgW := w
    imgH := h
    inLen := BitVec.ofNat 32 len }

/-- A machine with that configuration and these bytes in IN. -/
def idleWith (w h : BitVec 16) (bytes : List Byte) : State :=
  { State.reset with
    cfg := cfgOf w h bytes.length
    pal := palP
    input := Memory.writeList [] 0 bytes }

/-- The same with a job running in DECODE, its table just reset. -/
def busyWith (w h : BitVec 16) (bytes : List Byte) : State :=
  { (idleWith w h bytes).initTable with jobState := .busy, phase := .decode }

/-- The table of program P2 (95_test_vectors.md) before its `DICT 8`: entries 6, 7 and 8 inserted, 7
pixels in. -/
def beforeDict8 : State :=
  { busyWith 4 3 [] with
    dict := (((busyWith 4 3 []).dict.put 6 { first := 0, rest := [0] }).put 7
      { first := 0, rest := [0, 0] }).put 8 { first := 0, rest := [0, 0, 1] }
    nextCode := 9
    codeWidth := 4
    prevCode := some 1
    pixCount := 7 }

/-- What a function of the next state gives, when there is a next state. -/
def after {α : Type} (o : Host.Outcome State Fault Refusal) (f : State → α) : Option α :=
  match o with
  | .next t => some (f t)
  | .fault _ => none
  | .refused _ => none

/-- The four bytes of the canvas from an offset on. -/
def pixelAt (t : State) (off : Nat) : List Byte :=
  [t.canvas.read off, t.canvas.read (off + 1), t.canvas.read (off + 2), t.canvas.read (off + 3)]

theorem test_reset_memories : State.reset.input.wf ∧ State.reset.canvas.wf := by decide

/-! ### One step of each instruction -/

/-- 41_lzw_codes.md R174's example: a CLEAR leaves nextCode 6, codeWidth 3 and prevCode None. -/
theorem test_clear :
    after (exec .clear beforeDict8) (fun t => (t.nextCode, t.codeWidth, t.prevCode, t.pixCount)) =
      some (6, 3, none, 7) := by decide

/-- 41_lzw_codes.md R175's example: with all pixels in, END goes to DRAIN. -/
theorem test_end_drains :
    after (exec .endInfo { busyWith 1 1 [] with pixCount := 1 }) (fun t => (t.phase, t.jobState)) =
      some (.drain, .busy) := by decide

/-- 41_lzw_codes.md R175's example: on a 2×1 image it raises TruncatedImage. -/
theorem test_end_truncated :
    after (exec .endInfo { busyWith 2 1 [] with pixCount := 1 })
      (fun t => (t.errCode, t.jobState, t.pixCount)) = some (9, .error, 1) := by decide

/-- 41_lzw_codes.md R176's example: after `CLEAR ROOT 0`, `ROOT 1` inserts dict[6] = [0, 1]. -/
theorem test_root_inserts :
    after (exec (.root 1) { busyWith 2 1 [] with prevCode := some 0, pixCount := 1 })
      (fun t => (t.dict.get 6, t.nextCode, t.prevCode)) =
      some (some { first := 0, rest := [1] }, 7, some 1) := by decide

/-- 43_palette_mux.md R252, R254: index 1 is white in P, painted at pixel 1 with alpha 255. -/
theorem test_root_paints :
    after (exec (.root 1) { busyWith 2 1 [] with prevCode := some 0, pixCount := 1 })
      (fun t => (pixelAt t 4, pixelAt t 0, t.pixCount)) =
      some ([255, 255, 255, 255], [0, 0, 0, 0], 2) := by decide

/-- 43_palette_mux.md R252, R254: index 2 is red in P and index 3 blue, R at the lowest offset. -/
theorem test_root_colours :
    after (exec (.root 2) (busyWith 1 1 [])) (fun t => pixelAt t 0) = some [255, 0, 0, 255] ∧
      after (exec (.root 3) (busyWith 1 1 [])) (fun t => pixelAt t 0) = some [0, 0, 255, 255] := by
  decide

/-- 41_lzw_codes.md R177's example: `DICT 8` inserts dict[9] = [1, 0]. -/
theorem test_dict_inserts :
    after (exec (.dict 8) beforeDict8)
      (fun t => (t.dict.get 9, t.nextCode, t.codeWidth, t.prevCode)) =
      some (some { first := 1, rest := [0] }, 10, 4, some 8) := by decide

/-- 95_test_vectors.md P2: its four pixels are black, black, black, white. -/
theorem test_dict_paints :
    after (exec (.dict 8) beforeDict8) (fun t => (pixelAt t 28, pixelAt t 40, t.pixCount)) =
      some ([0, 0, 0, 255], [255, 255, 255, 255], 11) := by decide

/-- 41_lzw_codes.md R178's example: after `CLEAR ROOT 0`, `KWKWK 6` emits [0, 0] and inserts it. -/
theorem test_kwkwk_inserts :
    after (exec (.kwkwk 6) { busyWith 3 1 [] with prevCode := some 0, pixCount := 1 })
      (fun t => (t.dict.get 6, t.nextCode, t.prevCode, t.pixCount)) =
      some (some { first := 0, rest := [0] }, 7, some 6, 3) := by decide

/-- 95_test_vectors.md P2: `KWKWK 7` takes nextCode to 8 and the width to 4. -/
theorem test_kwkwk_grows :
    after (exec (.kwkwk 7) { busyWith 4 3 [] with
        dict := (busyWith 4 3 []).dict.put 6 { first := 0, rest := [0] }
        nextCode := 7
        prevCode := some 6 })
      (fun t => (t.nextCode, t.codeWidth, t.pixCount)) = some (8, 4, 3) := by decide

/-- 41_lzw_codes.md R179's example: the value 7 raises InvalidCode with ERR_INFO = 7. -/
theorem test_invalid :
    after (exec (.invalid 7) { busyWith 2 1 [] with prevCode := some 0, pixCount := 1 })
      (fun t => (t.errCode, t.errInfo, t.pixCount, t.jobState)) = some (6, 7, 1, .error) := by decide

/-- 95_test_vectors.md V-F7: IN = `00` on a 1×1 image raises TruncatedImage, BYTES 1. -/
theorem test_sbTerm_truncated :
    after (exec .sbTerm (busyWith 1 1 [0x00])) (fun t => (t.errCode, t.bytesConsumed)) =
      some (9, 1) := by decide

/-- The same on an image without pixels is DONE. -/
theorem test_sbTerm_done :
    after (exec .sbTerm (busyWith 0 1 [0x00])) (fun t => (t.jobState, t.bytesConsumed)) =
      some (.done, 1) := by decide

/-- 40_input_stage.md R144's example: the length byte 2 of `02 44 01 00`. -/
theorem test_sbData :
    after (exec (.sbData 2) (busyWith 1 1 [0x02, 0x44, 0x01, 0x00]))
      (fun t => (t.sbRemain, t.bytesConsumed)) = some (2, 1) := by decide

/-- 44_host_interface.md R282's example: STATE = BUSY, nextCode = 6, codeWidth = 3. -/
theorem test_start :
    after (exec (.start 0) (idleWith 1 1 [])) (fun t => (t.jobState, t.nextCode, t.codeWidth)) =
      some (.busy, 6, 3) := by decide

/-- 44_host_interface.md R282's example: m = 9 leaves ERROR, ERR_CODE = 5, ERR_INFO = 9. -/
theorem test_start_bad_m :
    after (exec (.start 0)
        { idleWith 1 1 [] with cfg := { cfgOf 1 1 0 with mincode := 9 } })
      (fun t => (t.jobState, t.errCode, t.errInfo)) = some (.error, 5, 9) := by decide

theorem test_ctrlNop :
    after (exec (.ctrlNop 0) (busyWith 1 1 [])) (fun t => t.jobState) = some .busy := by decide

/-- 44_host_interface.md R283: IDLE, zero status. -/
theorem test_reset :
    after (exec .reset { busyWith 1 1 [] with pixCount := 3, errCode := 9 })
      (fun t => (t.jobState, t.pixCount, t.errCode)) = some (.idle, 0, 0) := by decide

/-- 44_host_interface.md R280: 0xFFFFFFFF written to CFG_FLAGS reads back 0x77. -/
theorem test_cfgWrite :
    after (exec (.cfgWrite .flags 0xFFFFFFFF) (idleWith 1 1 []))
      (fun t => after (exec (.regRead (.cfg .flags)) t) (fun u => u.readData)) =
      some (some (some 0x77)) := by decide

/-- 44_host_interface.md R280: 0xAB123456 written to PAL[i] stores 0x123456. -/
theorem test_palWrite :
    after (exec (.palWrite 5 0xAB123456) (idleWith 1 1 [])) (fun t => palGet t.pal 5) =
      some 0x123456 := by decide

/-- 10_state.md R38: BUSY reads as 1. -/
theorem test_statusRead :
    after (exec (.statusRead .status) (busyWith 1 1 [])) (fun t => t.readData) = some (some 1) := by
  decide

/-- 44_host_interface.md R280's example: CFG_MINCODE holds 2 and reads 2. -/
theorem test_regRead :
    after (exec (.regRead (.cfg .mincode)) (idleWith 1 1 [])) (fun t => t.readData) =
      some (some 2) := by decide

/-- 44_host_interface.md R281: CTRL reads as 0. -/
theorem test_regRead_ctrl :
    after (exec (.regRead .ctrl) (busyWith 1 1 [])) (fun t => t.readData) = some (some 0) := by decide

theorem test_roWrite :
    after (exec (.roWrite .status 3) (busyWith 1 1 [])) (fun t => t.jobState) = some .busy := by
  decide

theorem test_unlisted :
    exec (.unlisted (.read 0x006)) State.reset = .refused .unlistedRegister := by rfl

/-! ### Steps of the machine -/

/-- Program P1 (95_test_vectors.md): the first code of `02 44 01 00` at width 3 is 4, CLEAR; the
read takes two bytes and leaves 5 bits. -/
theorem test_step_first_code :
    after (step (busyWith 1 1 [0x02, 0x44, 0x01, 0x00]))
      (fun t => (t.bytesConsumed, t.nbits, t.sbRemain, t.jobState)) = some (2, 5, 1, .busy) := by
  decide

/-- 40_input_stage.md R151's example: SkipToEnd reads AA BB 03 01 02 03 00, leaving BYTES 10. -/
theorem test_step_drain :
    after (step { busyWith 1 1 [0x04, 0x44, 0x01, 0xAA, 0xBB, 0x03, 0x01, 0x02, 0x03, 0x00, 0x3B] with
        phase := .drain
        sbRemain := 2
        bytesConsumed := 3
        pixCount := 1 })
      (fun t => (t.jobState, t.bytesConsumed)) = some (.done, 10) := by decide

/-- 30_encoding.md R123's example: `CLEAR @3, ROOT 0 @3, END @3` is `02 44 01 00`. -/
theorem test_assemble_p1 :
    assemble (.mk 2 255 [⟨.clear, some 3⟩, ⟨.root 0, some 3⟩, ⟨.endInfo, some 3⟩] []) =
      .ok [0x02, 0x44, 0x01, 0x00] := by rfl

/-- 42_row_address.md R223's example: the rows of an image of height 8. -/
theorem test_interlace_rows :
    (List.range 8).map (fun r => rowMapInterlaced r 8) = [0, 4, 2, 6, 1, 3, 5, 7] := by decide

/-- A placed length byte 0 is run by the next step: the chain is at its end. -/
theorem test_fetch_sbTerm :
    after (step (State.reset.withFetchWord 8 0)) (fun t => (t.jobState, t.bytesConsumed)) =
      some (.done, 1) := by decide

/-- A placed START write is run by the next step: an empty configuration has m = 0. -/
theorem test_fetch_start :
    after (step (State.reset.withFetchWord 64 (2 ^ 32))) (fun t => (t.jobState, t.errCode)) =
      some (.error, 5) := by decide

/-- A placed code is run by the next step: CLEAR resets nextCode from 8 to 6. -/
theorem test_fetch_clear :
    after (step (State.reset.withFetchWord 16 4)) (fun t => (t.nextCode, t.codeWidth, t.nbits)) =
      some (6, 3, 0) := by decide

/-! ### Witnesses: states and operands that meet the hypotheses of the statements -/

theorem witness_DecodeOfEncode :
    tableCtx.ok ∧ (Instr.root 3).wellFormed tableCtx = true ∧
      (Instr.dict 6).wellFormed tableCtx = true ∧ (Instr.kwkwk 8).wellFormed tableCtx = true ∧
      (Instr.invalid 15).wellFormed tableCtx = true ∧ (Instr.sbData 255).wellFormed tableCtx = true ∧
      (Instr.unlisted (.read 0x200)).wellFormed tableCtx = true := by decide

theorem witness_EncodeOfDecode :
    tableCtx.ok ∧ ∀ c, InstrWord.code 15 = .code c → c.toNat < 2 ^ tableCtx.codeWidth :=
  ⟨by decide, fun c h => by cases h; decide⟩

theorem witness_CodeClassesAreExclusive :
    CodeCtx.ok { m := 2, nextCode := 6, codeWidth := 3 } ∧
      CodeCtx.ok { m := 8, nextCode := 4096, codeWidth := 12 } := by decide

theorem witness_RegisterMapIsExact :
    regOfNumber 0x1FF = some (.pal 255) ∧ unlistedNumber 0x006 ∧ unlistedNumber 0x00F ∧
      unlistedNumber 0x01A ∧ unlistedNumber 0x0FF ∧ unlistedNumber 0x200 ∧ ¬ unlistedNumber 0x1FF := by
  decide

/-- The last entry of width 3, and the last entry of all. -/
theorem witness_WidthFollowsNextCode :
    let s := { busyWith 1 1 [] with nextCode := 7, codeWidth := 3 }
    let u := { busyWith 1 1 [] with nextCode := 4095, codeWidth := 12 }
    0 < s.nextCode.toNat ∧ s.nextCode.toNat < 4096 ∧
      s.codeWidth.toNat = widthOf s.nextCode.toNat ∧ 7 + 1 = 2 ^ widthOf 7 ∧
      0 < u.nextCode.toNat ∧ u.nextCode.toNat < 4096 ∧
      u.codeWidth.toNat = widthOf u.nextCode.toNat := by decide

theorem witness_StepTakesOldestHostMove :
    (∀ mv : HostMove, ∃ s : State, s.host = mv :: []) ∧ State.reset.host = [] :=
  ⟨fun mv => ⟨{ State.reset with host := [mv] }, rfl⟩, rfl⟩

/-- A code, a terminator and the end of IN, each where a code is due. -/
theorem witness_CodeStepRunsDecodedCode :
    (∃ c t, readCode 3 (busyWith 1 1 [0x01, 0x04, 0x00]) = .ok (some c) t) ∧
      (∃ t, readCode 3 (busyWith 1 1 [0x00]) = .ok none t) ∧
      (∃ t, readCode 3 (busyWith 1 1 []) = .raised t) ∧
      (busyWith 1 1 [0x00]).codeWidth.toNat = 3 ∧ (busyWith 1 1 [0x00]).jobState = .busy ∧
      (busyWith 1 1 [0x00]).phase = .decode :=
  ⟨⟨_, _, rfl⟩, ⟨_, rfl⟩, ⟨_, rfl⟩, by decide, by decide, by decide⟩

theorem witness_BlockStepRunsFramingToken :
    let s := busyWith 1 1 [0x00]
    let u := { busyWith 1 1 [0xFF] with phase := .drain }
    s.jobState = .busy ∧ s.sbRemain = 0 ∧ s.bytesConsumed.toNat < s.cfg.inLen.toNat ∧
      s.nbits < s.codeWidth.toNat ∧
      decodeLengthByte (s.input.read s.bytesConsumed.toNat) = .sbTerm ∧
      u.jobState = .busy ∧ u.sbRemain = 0 ∧ u.bytesConsumed.toNat < u.cfg.inLen.toNat ∧
      u.phase = .drain ∧
      decodeLengthByte (u.input.read u.bytesConsumed.toNat) = .sbData 255 := by decide

/-- The last byte of IN, and the end of IN. -/
theorem witness_InReadReadsOrRaises :
    let s := { busyWith 1 1 [1, 2] with bytesConsumed := 1 }
    let u := { busyWith 1 1 [1, 2] with bytesConsumed := 2 }
    s.bytesConsumed.toNat < s.cfg.inLen.toNat ∧ u.cfg.inLen.toNat ≤ u.bytesConsumed.toNat := by decide

/-- Twelve bits of which the state holds seven. -/
theorem witness_ReadCodeTakesNextBits :
    let s := { busyWith 1 1 [0x02, 0x44, 0x01, 0x00] with nbits := 7, acc := 127 }
    12 ≤ 12 ∧ s.nbits ≤ 7 ∧ s.acc.toNat < 2 ^ s.nbits ∧ 12 ≤ s.pendingBits.length := by decide

/-- Two bits left before the terminator, and two before the end of IN. -/
theorem witness_ReadCodeShortOfBits :
    let s := { busyWith 1 1 [0x00] with nbits := 2, acc := 3 }
    let u := { busyWith 1 1 [] with nbits := 2, acc := 3 }
    3 ≤ 12 ∧ s.nbits ≤ 7 ∧ s.acc.toNat < 2 ^ s.nbits ∧
      s.bytesConsumed.toNat ≤ s.cfg.inLen.toNat ∧ s.pendingBits.length < 3 ∧
      chainLength s.sbRemain.toNat s.inBytes = some 1 ∧
      u.nbits ≤ 7 ∧ u.acc.toNat < 2 ^ u.nbits ∧
      u.bytesConsumed.toNat ≤ u.cfg.inLen.toNat ∧ u.pendingBits.length < 3 ∧
      chainLength u.sbRemain.toNat u.inBytes = none := by decide

/-- One sub-block of two bytes, and two of one byte (95_test_vectors.md V-F1). -/
theorem witness_ChunkingDoesNotChangeCodes :
    let s := busyWith 1 1 [0x02, 0x44, 0x01, 0x00]
    let u := busyWith 1 1 [0x01, 0x44, 0x01, 0x01, 0x00]
    12 ≤ 12 ∧ s.nbits ≤ 7 ∧ u.nbits ≤ 7 ∧ s.acc.toNat < 2 ^ s.nbits ∧ u.acc.toNat < 2 ^ u.nbits ∧
      s.pendingBits = u.pendingBits ∧ 12 ≤ s.pendingBits.length := by decide

theorem witness_DrainStepSkipsToTerminator :
    let s := { busyWith 1 1 [0x02, 1, 2, 0x00] with phase := .drain }
    let u := { busyWith 1 1 [0x02, 1, 2] with phase := .drain }
    s.jobState = .busy ∧ s.phase = .drain ∧ s.bytesConsumed.toNat ≤ s.cfg.inLen.toNat ∧
      chainLength s.sbRemain.toNat s.inBytes = some 4 ∧
      u.jobState = .busy ∧ u.phase = .drain ∧ u.bytesConsumed.toNat ≤ u.cfg.inLen.toNat ∧
      chainLength u.sbRemain.toNat u.inBytes = none := by decide

/-- DONE in DRAIN, DONE in DECODE with all pixels, TruncatedImage one pixel short, and the end of
IN. -/
theorem witness_SbTermEndsTheChain :
    let a := { busyWith 2 1 [0] with phase := .drain }
    let b := { busyWith 2 1 [0] with pixCount := 2 }
    let c := { busyWith 2 1 [0] with pixCount := 1 }
    let d := { busyWith 2 1 [0] with bytesConsumed := 1 }
    a.bytesConsumed.toNat < a.cfg.inLen.toNat ∧ a.phase = .drain ∧
      b.bytesConsumed.toNat < b.cfg.inLen.toNat ∧ b.cfg.pixels ≤ b.pixCount.toNat ∧
      c.bytesConsumed.toNat < c.cfg.inLen.toNat ∧ c.phase = .decode ∧
      c.pixCount.toNat < c.cfg.pixels ∧ d.cfg.inLen.toNat ≤ d.bytesConsumed.toNat := by decide

theorem witness_SbDataOpensSubBlock :
    (busyWith 1 1 [1]).bytesConsumed.toNat < (busyWith 1 1 [1]).cfg.inLen.toNat ∧
      (busyWith 1 1 []).cfg.inLen.toNat ≤ (busyWith 1 1 []).bytesConsumed.toNat := by decide

theorem witness_ClearResetsTheTable :
    let s := busyWith 1 1 []
    let u := { s with cfg := { s.cfg with mincode := 8 } }
    2 ≤ s.cfg.mincode.toNat ∧ s.cfg.mincode.toNat ≤ 8 ∧
      2 ≤ u.cfg.mincode.toNat ∧ u.cfg.mincode.toNat ≤ 8 := by decide

theorem witness_EndChecksCountThenDrains :
    let s := { busyWith 2 1 [] with pixCount := 2 }
    let u := { busyWith 2 1 [] with pixCount := 1 }
    s.cfg.imgW.toNat * s.cfg.imgH.toNat ≤ s.pixCount.toNat ∧
      u.pixCount.toNat < u.cfg.imgW.toNat * u.cfg.imgH.toNat := by decide

/-- The first data code after a reset, and a code of a full table. -/
theorem witness_TableCodeEmitsWithoutInsertion :
    let s := busyWith 1 1 []
    let u := { beforeDict8 with nextCode := 4096, codeWidth := 12 }
    let str : Str := { first := 0, rest := [0, 0, 1] }
    s.cfg.outOfBounds = false ∧ s.dict.get 3 = some (.single 3) ∧
      s.accepts (Str.single 3).toList ∧ s.prevCode = none ∧
      u.cfg.outOfBounds = false ∧ u.dict.get 8 = some str ∧ u.accepts str.toList ∧
      4096 ≤ u.nextCode.toNat := by decide

theorem witness_TableCodeEmitsAndInserts :
    let s := beforeDict8
    let str : Str := { first := 0, rest := [0, 0, 1] }
    s.cfg.outOfBounds = false ∧ s.dict.get 8 = some str ∧ s.accepts str.toList ∧
      s.prevCode = some 1 ∧ s.dict.get 1 = some (.single 1) ∧ s.nextCode.toNat < 4096 := by decide

/-- The last insertion there can be. -/
theorem witness_KwkwkEmitsAndInserts :
    let s := { beforeDict8 with nextCode := 4095, codeWidth := 12 }
    let ps : Str := .single 1
    s.cfg.outOfBounds = false ∧ s.prevCode = some 1 ∧ s.dict.get 1 = some ps ∧
      s.accepts (ps.snoc ps.first).toList ∧ s.nextCode.toNat < 4096 := by decide

theorem witness_IllegalCodesRaise : (busyWith 1 1 []).prevCode = none := by decide

/-- DICT 8 with room for three of its four elements; ROOT 3 with a palette of two; KWKWK with room
for one element of two. -/
theorem witness_RejectedElementEndsDataCode :
    let s := { beforeDict8 with pixCount := 9 }
    let u := { busyWith 1 1 [] with cfg := { cfgOf 1 1 0 with palSize := 0 } }
    let v := { beforeDict8 with pixCount := 11 }
    (s.dict.get 8 = some { first := 0, rest := [0, 0, 1] } ∧ s.cfg.outOfBounds = false ∧
      (Str.mk 0 [0, 0, 1]).toList = [0, 0, 0] ++ 1 :: [] ∧ s.accepts [0, 0, 0] ∧
      s.cfg.pixels ≤ s.pixCount.toNat + 3) ∧
    (u.dict.get 3 = some (.single 3) ∧ u.cfg.outOfBounds = false ∧ u.accepts [] ∧
      u.pixCount.toNat + 0 < u.cfg.pixels ∧ u.cfg.palLen ≤ (3 : Byte).toNat) ∧
    (v.prevCode = some 1 ∧ v.dict.get 1 = some (.single 1) ∧ v.cfg.outOfBounds = false ∧
      ((Str.single 1).snoc 1).toList = [1] ++ 1 :: [] ∧ v.accepts [1] ∧
      v.cfg.pixels ≤ v.pixCount.toNat + 1) := by decide

theorem witness_EmptySlotRaisesInvalidCode : (busyWith 1 1 []).dict.get 6 = none := by decide

theorem witness_RowMapIsBijection :
    let c := { cfgOf 1 8 0 with interlace := true }
    7 < c.imgH.toNat ∧ 0 < c.imgH.toNat ∧ c.rowMap 0 = c.rowMap 0 ∧ c.interlace = true ∧
      (cfgOf 1 8 0).interlace = false := by decide

theorem witness_InterlaceFollowsPassSchedule : 0 < 1 ∧ 1 < 2 ∧ 0 < 2 := by decide

theorem witness_SequentialGeneratorAgrees : 0 < 1 ∧ (RowGen.at 1 0).y = 0 := by decide

/-- The last pixel of a rectangle that reaches the screen's corner. -/
theorem witness_PixelAddressesAreDistinct :
    let c := cfgOf 4 3 0
    let d := { c with interlace := true }
    c.outOfBounds = false ∧ 11 < c.pixels ∧ 0 < c.pixels ∧ 0 ≠ 11 ∧ c.interlace = false ∧
      d.outOfBounds = false ∧ 11 < d.pixels ∧ d.interlace = true := by decide

/-- The N-th pixel is in; the first index out of range; the last one in range; and a transparent
index. -/
theorem witness_EmitFollowsThePipeline :
    let a := { busyWith 2 1 [] with pixCount := 2 }
    let b := { busyWith 2 1 [] with pixCount := 1 }
    let t := { b with cfg := { b.cfg with transpEn := true, transpIdx := 3 } }
    a.cfg.imgW.toNat * a.cfg.imgH.toNat ≤ a.pixCount.toNat ∧
      b.pixCount.toNat < b.cfg.imgW.toNat * b.cfg.imgH.toNat ∧
      (if b.cfg.palPresent then 2 ^ (b.cfg.palSize.toNat + 1) else 0) ≤ (4 : Byte).toNat ∧
      (3 : Byte).toNat < (if b.cfg.palPresent then 2 ^ (b.cfg.palSize.toNat + 1) else 0) ∧
      ¬ (b.cfg.transpEn = true ∧ 3 = b.cfg.transpIdx) ∧
      (t.cfg.transpEn = true ∧ 3 = t.cfg.transpIdx) ∧
      (3 : Byte).toNat < (if t.cfg.palPresent then 2 ^ (t.cfg.palSize.toNat + 1) else 0) := by decide

theorem witness_TransparentIndexAbovePaletteIsInert :
    let s := { busyWith 1 1 [] with cfg := { cfgOf 1 1 0 with transpEn := true, transpIdx := 4 } }
    s.cfg.palLen ≤ s.cfg.transpIdx.toNat ∧ s.pixCount.toNat < s.cfg.pixels ∧
      4 = s.cfg.transpIdx ∧ (3 : Byte).toNat < s.cfg.palLen := by decide

/-- A rectangle that just fits with m = 8; the source's L = 65535, Iw = 1, W = 65535; m = 1 and
m = 9. -/
theorem witness_StartBeginsJobOrRaises :
    let a := { idleWith 65535 1 [] with cfg := { cfgOf 65535 1 0 with mincode := 8 } }
    let b := { a with cfg := { cfgOf 65535 1 0 with left := 65535, imgW := 1 } }
    let c := { a with cfg := { cfgOf 65535 1 0 with mincode := 1 } }
    let d := { a with cfg := { cfgOf 65535 1 0 with mincode := 9 } }
    a.jobState ≠ .busy ∧ a.cfg.left.toNat + a.cfg.imgW.toNat ≤ a.cfg.screenW.toNat ∧
      a.cfg.top.toNat + a.cfg.imgH.toNat ≤ a.cfg.screenH.toNat ∧
      2 ≤ a.cfg.mincode.toNat ∧ a.cfg.mincode.toNat ≤ 8 ∧
      b.jobState ≠ .busy ∧ b.cfg.screenW.toNat < b.cfg.left.toNat + b.cfg.imgW.toNat ∧
      c.jobState ≠ .busy ∧ c.cfg.mincode.toNat < 2 ∧ d.jobState ≠ .busy ∧
      8 < d.cfg.mincode.toNat := by decide

theorem witness_CtrlWritesAndReads :
    (0x80000001 : Word).getLsbD 0 = true ∧ (0xFFFFFFFE : Word).getLsbD 0 = false := by decide

theorem witness_ConfigurationWrites :
    (idleWith 1 1 []).jobState ≠ .busy ∧ (busyWith 1 1 []).jobState = .busy ∧
      CfgReg.inLen ≠ .mincode ∧ (255 : Byte) ≠ 0 := by decide

theorem witness_StartWhileBusyIsNoMove : (busyWith 1 1 []).jobState = .busy := by decide

theorem witness_RegisterReadsBackWhatWasWritten : (idleWith 1 1 []).jobState ≠ .busy := by decide

theorem witness_UnlistedAccessIsRefused : unlistedNumber 0x006 ∧ unlistedNumber 0x200 := by decide

theorem witness_BlockWaitsOutsideBusy :
    State.reset.jobState ≠ .busy ∧ { State.reset with jobState := .error }.jobState ≠ .busy := by
  decide

/-- The last byte of IN and of the canvas that any configuration has. -/
theorem witness_HostMemoryAccess :
    (idleWith 1 1 []).jobState ≠ .busy ∧ 2 ^ 32 - 2 < 2 ^ 32 - 1 ∧
      4 * 65535 * 65535 - 1 < 4 * 65535 * 65535 ∧ (busyWith 1 1 []).jobState = .busy := by decide

/-- The job of program P1. -/
def jobP1 : Job := { cfg := cfgOf 1 1 4, pal := palP, input := [0x02, 0x44, 0x01, 0x00], canvas := [] }

theorem witness_JobSequenceLoadsTheJob :
    let s := { State.reset with host := jobP1.moves }
    s.jobState ≠ .busy ∧ s.host = jobP1.moves ∧ jobP1.input.length ≤ 2 ^ 32 - 1 ∧
      jobP1.canvas.length ≤ 4 * 65535 * 65535 := by decide

/-- A step out of BUSY into ERROR, from a state without an error. -/
theorem witness_OnlyBlockErrorsAreRaised :
    (∃ t, step (busyWith 1 1 [0x00]) = .next t ∧ t.errCode = 9) ∧
      (busyWith 1 1 [0x00]).errCode ∉ [1, 3, 4] ∧ (busyWith 1 1 [0x00]).errCode.toNat ≤ 11 :=
  ⟨⟨_, rfl, by decide⟩, by decide, by decide⟩

theorem witness_JobStateChangesOnlyAsListed :
    (∃ t, step (busyWith 0 1 [0x00]) = .next t ∧ t.jobState = .done) ∧
      (∃ t, step { idleWith 1 1 [] with host := [startMove] } = .next t ∧ t.jobState = .busy) ∧
      (∃ t, step { busyWith 1 1 [] with host := [.reset] } = .next t ∧ t.jobState = .idle) :=
  ⟨⟨_, rfl, by decide⟩, ⟨_, rfl, by decide⟩, ⟨_, rfl, rfl⟩⟩

/-! A running job that meets the invariant: program P1 just after START. -/

/-- The state START leaves for program P1. -/
def runningP1 : State := busyWith 1 1 [0x02, 0x44, 0x01, 0x00]

theorem runningP1_inv : Inv runningP1 where
  input := by decide
  canvas := by decide
  errCode := .inl rfl
  errState := by decide
  job := fun _ =>
    { table := (initTable_inv (s := idleWith 1 1 [0x02, 0x44, 0x01, 0x00]) (by decide)
        (by decide)).congr rfl rfl rfl rfl rfl
      bits := by decide
      held := by decide
      bytes := by decide
      fits := by decide
      pixels := by decide
      drained := by decide }

/-- The same job with its terminator due and its one pixel in. -/
def endingP1 : State := { runningP1 with bytesConsumed := 3, pixCount := 1 }

theorem endingP1_inv : Inv endingP1 where
  input := by decide
  canvas := by decide
  errCode := .inl rfl
  errState := by decide
  job := fun _ =>
    { table := (runningP1_inv.job rfl).table.congr rfl rfl rfl rfl rfl
      bits := by decide
      held := by decide
      bytes := by decide
      fits := by decide
      pixels := by decide
      drained := by decide }

theorem witness_StepKeepsInvariant : ∃ t, Inv runningP1 ∧ step runningP1 = .next t :=
  ⟨_, runningP1_inv, rfl⟩

theorem witness_JobEndsWithinBound :
    Inv runningP1 ∧ runningP1.jobState = .busy ∧ runningP1.host = [] := ⟨runningP1_inv, rfl, rfl⟩

theorem witness_DoneMeansComplete :
    ∃ t, Inv endingP1 ∧ endingP1.jobState = .busy ∧ blockStep endingP1 = .next t ∧
      t.jobState = .done :=
  ⟨_, endingP1_inv, rfl, rfl, by decide⟩

theorem witness_BlockStepKeepsHostState :
    ∃ t, Inv runningP1 ∧ runningP1.jobState = .busy ∧ blockStep runningP1 = .next t :=
  ⟨_, runningP1_inv, rfl, rfl⟩

theorem witness_BlockStepIsAlwaysEnabled : runningP1.jobState = .busy ∧ Inv runningP1 :=
  ⟨rfl, runningP1_inv⟩

/-- P1 with CLEAR read: `ROOT 0` paints the one pixel. -/
def paintingP1 : State :=
  { runningP1 with bytesConsumed := 2, sbRemain := 1, acc := 8, nbits := 5 }

theorem paintingP1_inv : Inv paintingP1 where
  input := by decide
  canvas := by decide
  errCode := .inl rfl
  errState := by decide
  job := fun _ =>
    { table := (runningP1_inv.job rfl).table.congr rfl rfl rfl rfl rfl
      bits := by decide
      held := by decide
      bytes := by decide
      fits := by decide
      pixels := by decide
      drained := by decide }

/-- The step paints a pixel of the rectangle; the address 4 is in no pixel of it. -/
theorem witness_BlockStepPaintsOnlyTheRectangle :
    (∃ t, Inv paintingP1 ∧ paintingP1.jobState = .busy ∧ blockStep paintingP1 = .next t ∧
      t.pixCount = 1) ∧
    paintingP1.cfg.inRectangle 0 0 ∧
    (∀ px py, paintingP1.cfg.inRectangle px py → ¬ inPixel (paintingP1.cfg.byteOffset px py) 4) := by
  refine ⟨⟨_, paintingP1_inv, rfl, rfl, by decide⟩, by decide, fun px py h => ?_⟩
  obtain ⟨-, h1, -, h2⟩ := h
  obtain rfl : px = 0 := Nat.lt_one_iff.1 h1
  obtain rfl : py = 0 := Nat.lt_one_iff.1 h2
  decide

/-- The pixel is not accepted yet before its step, and is accepted after it. -/
theorem witness_AcceptedPixelsAreFinal :
    (∃ t, Inv runningP1 ∧ runningP1.jobState = .busy ∧ blockStep runningP1 = .next t ∧
      0 < runningP1.cfg.pixels ∧ t.pixCount.toNat ≤ 0) ∧
    (∃ t, Inv endingP1 ∧ endingP1.jobState = .busy ∧ blockStep endingP1 = .next t ∧
      0 < endingP1.pixCount.toNat) :=
  ⟨⟨_, runningP1_inv, rfl, rfl, by decide, by decide⟩, ⟨_, endingP1_inv, rfl, rfl, by decide⟩⟩

/-- A palette of four that differs at its first unread entry. -/
theorem witness_PaletteAbovePalLenIsUnread :
    (∀ i : Byte, i.toNat < runningP1.cfg.palLen → palGet (palSet palP 4 7) i = palGet runningP1.pal i) ∧
      palGet (palSet palP 4 7) 4 ≠ palGet runningP1.pal 4 := by decide

/-- IN with a byte changed that has been read, and one past its end. -/
theorem witness_InputOutsideTheJobIsUnread :
    let s := { runningP1 with bytesConsumed := 1 }
    let inp := (s.input.write 0 9).write 4 9
    (∀ a, s.bytesConsumed.toNat ≤ a → a < s.cfg.inLen.toNat → inp.read a = s.input.read a) ∧
      inp.read 0 ≠ s.input.read 0 := by
  refine ⟨fun a h1 h2 => ?_, by decide⟩
  have h3 : 1 ≤ a := h1
  have h4 : a < 4 := h2
  have h5 : ∀ a, a < 4 → 1 ≤ a →
      ((runningP1.input.write 0 9).write 4 9).read a = runningP1.input.read a := by decide
  exact h5 a h4 h3

theorem witness_DeframingInvertsFraming : 1 ≤ 255 ∧ 255 ≤ 255 ∧ 1 ≤ 1 := by decide

end Sys2Proof.Tests
end

section
/-!
The register map (10_state.md R30; 44_host_interface.md R291): the decoder's map from numbers to
registers is the inverse of the table, and is empty exactly at the unlisted numbers.
-/

namespace Sys2Proof

theorem Reg.number_pal (i : Byte) : (Reg.pal i).number = 0x100 + i.toNat := rfl

theorem regOfNumber_number (r : Reg) : regOfNumber r.number = some r := by
  cases r with
  | ctrl => rfl
  | status r => cases r <;> rfl
  | cfg r => cases r <;> rfl
  | pal i =>
    have hi : 0x100 + i.toNat ≤ 0x1FF := by have := i.isLt; omega
    simp [regOfNumber, Reg.number_pal, hi]

theorem number_of_regOfNumber {k : Nat} {r : Reg} (h : regOfNumber k = some r) : r.number = k := by
  unfold regOfNumber at h
  split at h
  · next hlow =>
    split at h
    · next hhigh =>
      cases h
      rw [Reg.number_pal, BitVec.toNat_ofNat]
      omega
    · cases h
  · split at h <;> cases h <;> rfl

theorem regOfNumber_eq_some_iff {k : Nat} {r : Reg} : regOfNumber k = some r ↔ r.number = k :=
  ⟨number_of_regOfNumber, fun h => h ▸ regOfNumber_number r⟩

theorem not_unlistedNumber_number (r : Reg) : ¬ Machine.unlistedNumber r.number := by
  cases r with
  | ctrl => decide
  | status r => cases r <;> decide
  | cfg r => cases r <;> decide
  | pal i =>
    have hi := i.isLt
    rw [Reg.number_pal]
    simp only [Machine.unlistedNumber]
    omega

theorem unlistedNumber_of_regOfNumber {k : Nat} (h : regOfNumber k = none) :
    Machine.unlistedNumber k := by
  unfold regOfNumber at h
  simp only [Machine.unlistedNumber]
  split at h
  · split at h
    · cases h
    · omega
  · split at h
    case h_17 => simp only [imp_false] at *; omega
    all_goals cases h

theorem regOfNumber_eq_none_iff (k : Nat) : regOfNumber k = none ↔ Machine.unlistedNumber k := by
  refine ⟨unlistedNumber_of_regOfNumber, fun hu => ?_⟩
  cases hr : regOfNumber k with
  | none => rfl
  | some r =>
    rw [← regOfNumber_eq_some_iff.1 hr] at hu
    exact absurd hu (not_unlistedNumber_number r)

/-- Settles O4: the numbers of R30's table are the definition's, and the map back is its inverse. -/
theorem registerMapIsExact : Obligations.RegisterMapIsExact :=
  ⟨rfl, Reg.number_pal, regOfNumber_number, fun _ _ => number_of_regOfNumber,
    regOfNumber_eq_none_iff⟩

end Sys2Proof
end

section
/-!
The status registers STATE and ERR_CODE (10_state.md R38, R39; 60_exceptions.md R311, R312, R313):
said once for each operation, in every state, and then for a whole step.
-/

namespace Sys2Proof.Machine

/-- STATE and ERR_CODE are as they were. -/
def StatusKept (s t : State) : Prop := t.jobState = s.jobState ∧ t.errCode = s.errCode

/-- The state is in ERROR with one of the block's own errors (60_exceptions.md R311). -/
def State.inBlockError (t : State) : Prop :=
  t.jobState = .error ∧ ∃ e ∈ blockErrors, t.errCode = errorNumber e

/-- A part of a step begun in `s` keeps STATE and ERR_CODE, or has raised an error of the block. -/
def Ran.KeepsStatus {α : Type} (s : State) : Ran α → Prop
  | .ok _ t => StatusKept s t
  | .raised t => t.inBlockError

theorem StatusKept.refl (s : State) : StatusKept s s := ⟨rfl, rfl⟩

theorem StatusKept.trans {s t u : State} (h : StatusKept s t) (g : StatusKept t u) :
    StatusKept s u := ⟨g.1.trans h.1, g.2.trans h.2⟩

theorem raise_inBlockError (s : State) {e : ErrorKind} (info : BitVec 16) (he : e ∈ blockErrors) :
    (s.raise e info).inBlockError := ⟨rfl, e, he, rfl⟩

theorem Ran.KeepsStatus.of_kept {α : Type} {s u : State} (h : StatusKept s u) {r : Ran α}
    (hr : r.KeepsStatus u) : r.KeepsStatus s := by
  cases r with
  | ok a t => exact h.trans hr
  | raised t => exact hr

theorem Ran.KeepsStatus.andThen {α β : Type} {s : State} {r : Ran α} {f : α → State → Ran β}
    (hr : r.KeepsStatus s) (hf : ∀ a t, (f a t).KeepsStatus t) : (r.andThen f).KeepsStatus s := by
  cases r with
  | ok a t => exact .of_kept hr (hf a t)
  | raised t => exact hr

theorem Ran.KeepsStatus.toNext {s t : State} {r : Ran Unit} (hr : r.KeepsStatus s)
    (h : r.toNext = .next t) : StatusKept s t ∨ t.inBlockError := by
  cases r with
  | ok _ u => cases h; exact .inl hr
  | raised u => cases h; exact .inr hr

/-! ### The input stage -/

theorem NextByte.keepsStatus {s : State} {r : Ran (Option Byte)} (h : NextByte s r) :
    r.KeepsStatus s := by
  cases h with
  | byte b n t frame => rw [frame]; exact .refl s
  | term t frame => rw [frame]; exact .refl s
  | eof t frame => rw [frame]; exact ⟨rfl, .unexpectedEof, by decide, rfl⟩

theorem refill_keepsStatus (n w : Nat) (s : State) : (refill n w s).KeepsStatus s := by
  induction n generalizing s with
  | zero => exact .refl s
  | succ n ih =>
    unfold refill
    split
    · exact .refl s
    · refine (nextDataByte_spec s).keepsStatus.andThen fun b u => ?_
      cases b with
      | none => exact .refl u
      | some b => exact .of_kept ⟨rfl, rfl⟩ (ih (u.pushByte b))

theorem readCode_keepsStatus (w : Nat) (s : State) : (readCode w s).KeepsStatus s := by
  refine (refill_keepsStatus w w s).andThen fun full u => ?_
  cases full <;> exact ⟨rfl, rfl⟩

theorem Skipped.keepsStatus {s : State} {r : Ran Unit} (h : Skipped s r) : r.KeepsStatus s := by
  cases h with
  | done t frame => rw [frame]; exact .refl s
  | eof t frame => rw [frame]; exact ⟨rfl, .unexpectedEof, by decide, rfl⟩

/-! ### The code classes -/

theorem EmittedList.keepsStatus {s : State} {r : Ran Unit} (h : EmittedList s r) :
    r.KeepsStatus s := by
  cases h with
  | ok t frame => rw [frame]; exact .refl s
  | raised t e kind frame => rw [frame]; exact ⟨rfl, e, mem_blockErrors_of_pixel kind, rfl⟩

theorem emptySlot_keepsStatus {α : Type} (c : Code) (s : State) :
    (emptySlot c s : Ran α).KeepsStatus s := raise_inBlockError s _ (by decide)

theorem insertAfterPrev_keepsStatus (c : Code) (v : Byte) (s : State) :
    (insertAfterPrev c v s).KeepsStatus s := by
  unfold insertAfterPrev
  split
  · exact .refl s
  · split
    · exact .refl s
    · split
      · exact emptySlot_keepsStatus c s
      · exact ⟨rfl, rfl⟩

theorem tableCode_keepsStatus (c : Code) (s : State) : (tableCode c s).KeepsStatus s := by
  unfold tableCode
  split
  · exact emptySlot_keepsStatus c s
  · exact (emitList_spec _ s).keepsStatus.andThen fun _ u =>
      (insertAfterPrev_keepsStatus c _ u).andThen fun _ _ => ⟨rfl, rfl⟩

theorem kwkwkCode_keepsStatus (c : Code) (s : State) : (kwkwkCode c s).KeepsStatus s := by
  unfold kwkwkCode
  split
  · exact raise_inBlockError s _ (by decide)
  · split
    · exact emptySlot_keepsStatus c s
    · exact (emitList_spec _ s).keepsStatus.andThen fun _ _ => ⟨rfl, rfl⟩

theorem execEndInfo_status {s t : State} (h : execEndInfo s = .next t) :
    StatusKept s t ∨ t.inBlockError := by
  unfold execEndInfo at h
  split at h <;> cases h
  · exact .inl ⟨rfl, rfl⟩
  · exact .inr (raise_inBlockError s _ (by decide))

/-- Running a code never ends the job in DONE, whatever state it is read in. -/
theorem execCode_status {x : CodeCtx} {c : Code} {s t : State}
    (h : exec (decodeCode x c) s = .next t) : StatusKept s t ∨ t.inBlockError := by
  unfold decodeCode at h
  split at h
  · cases h; exact .inl ⟨rfl, rfl⟩
  split at h
  · exact execEndInfo_status h
  split at h
  · exact (tableCode_keepsStatus c s).toNext h
  split at h
  · exact (tableCode_keepsStatus c s).toNext h
  split at h
  · exact (kwkwkCode_keepsStatus c s).toNext h
  · cases h; exact .inr (raise_inBlockError s _ (by decide))

/-! ### The block step -/

/-- How a job ends: in DONE with ERR_CODE as it was, or in ERROR with one of the block's errors. -/
def JobEnds (s t : State) : Prop := (t.jobState = .done ∧ t.errCode = s.errCode) ∨ t.inBlockError

theorem terminateAtTerminator_status {s t : State}
    (h : (terminateAtTerminator s).toNext = .next t) : JobEnds s t := by
  unfold terminateAtTerminator at h
  split at h <;> cases h
  · exact .inl ⟨rfl, rfl⟩
  · exact .inr (raise_inBlockError s _ (by decide))

theorem codeStep_status {s t : State} (h : codeStep s = .next t) :
    StatusKept s t ∨ JobEnds s t := by
  have read := readCode_keepsStatus s.codeWidth.toNat s
  unfold codeStep at h
  split at h
  · next u hr =>
    rw [hr] at read
    cases h
    exact .inr (.inr read)
  · next u hr =>
    rw [hr] at read
    rcases terminateAtTerminator_status h with ⟨hdone, herr⟩ | herr
    · exact .inr (.inl ⟨hdone, herr.trans read.2⟩)
    · exact .inr (.inr herr)
  · next c u hr =>
    rw [hr] at read
    rcases execCode_status h with hk | herr
    · exact .inl (StatusKept.trans read hk)
    · exact .inr (.inr herr)

theorem drainStep_status {s t : State} (h : (drainStep s).toNext = .next t) : JobEnds s t := by
  have skip := (skipToEnd_spec s).keepsStatus
  unfold drainStep at h
  cases hr : skipToEnd s with
  | ok _ u =>
    rw [hr] at skip h
    cases h
    exact .inl ⟨rfl, skip.2⟩
  | raised u =>
    rw [hr] at skip h
    cases h
    exact .inr skip

theorem blockStep_of_not_busy {s : State} (h : s.jobState ≠ .busy) : blockStep s = .next s := by
  unfold blockStep
  cases hs : s.jobState with
  | busy => exact absurd hs h
  | idle => rfl
  | done => rfl
  | error => rfl

theorem blockStep_status {s t : State} (h : blockStep s = .next t) :
    StatusKept s t ∨ (s.jobState = .busy ∧ JobEnds s t) := by
  by_cases hb : s.jobState = .busy
  · unfold blockStep at h
    rw [hb] at h
    cases hp : s.phase with
    | decode =>
      rw [hp] at h
      exact (codeStep_status h).imp_right fun he => ⟨hb, he⟩
    | drain =>
      rw [hp] at h
      exact .inr ⟨hb, drainStep_status h⟩
  · rw [blockStep_of_not_busy hb] at h
    cases h
    exact .inl (.refl s)

/-! ### The moves of the host -/

theorem isBusy_eq_true_iff (s : State) : s.isBusy = true ↔ s.jobState = .busy := decide_eq_true_iff

/-- A move with a duty has a next state only when the duty is met. -/
theorem next_of_duty {p : Prop} [Decidable p] {r : Refusal} {t : State}
    {o : Host.Outcome State Fault Refusal} (h : (if p then .refused r else o) = .next t) :
    ¬ p ∧ o = .next t := by
  split at h
  · cases h
  · exact ⟨‹_›, h⟩

/-- A move to an offset has a next state only when the offset exists. -/
theorem next_of_offset {p : Prop} [Decidable p] {r : Fault} {t : State}
    {o : Host.Outcome State Fault Refusal} (h : (if p then o else .fault r) = .next t) :
    o = .next t := by
  split at h
  · exact h
  · cases h

/-- START outside BUSY begins a job with no error, or raises (44_host_interface.md R282). -/
theorem execStart_status {reserved : BitVec 31} {s t : State}
    (h : execStart reserved s = .next t) :
    s.jobState ≠ .busy ∧ ((t.jobState = .busy ∧ t.errCode = 0) ∨ t.inBlockError) := by
  obtain ⟨hb, h⟩ := next_of_duty h
  refine ⟨mt (isBusy_eq_true_iff s).2 hb, ?_⟩
  unfold startJob at h
  split at h
  · cases h; exact .inr (raise_inBlockError _ _ (by decide))
  split at h <;> cases h
  · exact .inr (raise_inBlockError _ _ (by decide))
  · exact .inl ⟨rfl, rfl⟩

theorem execCfgWrite_status {r : CfgReg} {v : Word} {s t : State}
    (h : execCfgWrite r v s = .next t) : StatusKept s t := by
  cases (next_of_duty h).2
  exact ⟨rfl, rfl⟩

theorem execPalWrite_status {i : Byte} {v : Word} {s t : State}
    (h : execPalWrite i v s = .next t) : StatusKept s t := by
  cases (next_of_duty h).2
  exact ⟨rfl, rfl⟩

theorem execRead_status {k : Nat} {s t : State} (h : exec (decodeAccess (.read k)) s = .next t) :
    StatusKept s t := by
  dsimp only [decodeAccess] at h
  cases hr : regOfNumber k with
  | none => rw [hr] at h; cases h
  | some r =>
    rw [hr] at h
    cases r <;> cases h <;> exact ⟨rfl, rfl⟩

/-- Of the register writes only the one to CTRL with bit 0 set has an effect on STATE and ERR_CODE
(44_host_interface.md R281). -/
theorem execWrite_status {k : Nat} {v : Word} {s t : State}
    (h : exec (decodeAccess (.write k v)) s = .next t) :
    StatusKept s t ∨ (k = 0x000 ∧ v.getLsbD 0 = true ∧ s.jobState ≠ .busy ∧
      ((t.jobState = .busy ∧ t.errCode = 0) ∨ t.inBlockError)) := by
  dsimp only [decodeAccess] at h
  cases hr : regOfNumber k with
  | none => rw [hr] at h; cases h
  | some r =>
    rw [hr] at h
    cases r with
    | ctrl =>
      dsimp only at h
      split at h
      · next hbit =>
        have hstart := execStart_status (reserved := v.extractLsb' 1 31) h
        exact .inr ⟨(number_of_regOfNumber hr).symm, hbit, hstart⟩
      · cases h; exact .inl (.refl s)
    | status r => cases h; exact .inl (.refl s)
    | cfg r => exact .inl (execCfgWrite_status h)
    | pal i => exact .inl (execPalWrite_status h)

theorem hostInWrite_status {offset : Nat} {b : Byte} {s t : State}
    (h : hostInWrite offset b s = .next t) : StatusKept s t := by
  cases next_of_offset (next_of_duty h).2
  exact ⟨rfl, rfl⟩

theorem hostCanvasWrite_status {offset : Nat} {b : Byte} {s t : State}
    (h : hostCanvasWrite offset b s = .next t) : StatusKept s t := by
  cases next_of_offset (next_of_duty h).2
  exact ⟨rfl, rfl⟩

theorem hostCanvasRead_status {offset : Nat} {s t : State}
    (h : hostCanvasRead offset s = .next t) : StatusKept s t := by
  cases next_of_offset (next_of_duty h).2
  exact ⟨rfl, rfl⟩

/-! ### The whole step -/

/-- What a step does to STATE and ERR_CODE, and which move makes it do so. -/
inductive StatusChange (s t : State) : Prop where
  | kept (same : StatusKept s t)
  | block (busy : s.jobState = .busy) (ends : JobEnds s t)
      (turn : s.host = [] ∨ ∃ rest, s.host = .pass :: rest)
  | start (v : Word) (rest : List HostMove) (move : s.host = .access (.write 0x000 v) :: rest)
      (bit : v.getLsbD 0 = true) (waiting : s.jobState ≠ .busy)
      (begins : (t.jobState = .busy ∧ t.errCode = 0) ∨ t.inBlockError)
  | reset (rest : List HostMove) (move : s.host = .reset :: rest) (state : t.jobState = .idle)
      (err : t.errCode = 0)

/-- A block step is the block's turn in `s`, taken after the pass has left the list if there was
one. -/
theorem StatusChange.of_blockStep {s u t : State} (hu : StatusKept s u) (h : blockStep u = .next t)
    (turn : s.host = [] ∨ ∃ rest, s.host = .pass :: rest) : StatusChange s t := by
  rcases blockStep_status h with hk | ⟨hb, hdone | herr⟩
  · exact .kept (hu.trans hk)
  · exact .block (hu.1.symm.trans hb) (.inl ⟨hdone.1, hdone.2.trans hu.2⟩) turn
  · exact .block (hu.1.symm.trans hb) (.inr herr) turn

theorem step_of_host_nil {s : State} (h : s.host = []) : step s = blockStep s := by
  rw [step, nextStep, h]

theorem step_of_host_cons {s : State} {mv : HostMove} {rest : List HostMove}
    (h : s.host = mv :: rest) : step s = hostMove mv (s.afterMove rest) := by
  rw [step, nextStep, h]

theorem step_status {s t : State} (h : step s = .next t) : StatusChange s t := by
  cases hh : s.host with
  | nil =>
    rw [step_of_host_nil hh] at h
    exact .of_blockStep (.refl s) h (.inl hh)
  | cons mv rest =>
    rw [step_of_host_cons hh] at h
    -- `afterMove` writes neither register, so what is kept from it is kept from `s`
    cases mv with
    | access a =>
      cases a with
      | read k => exact .kept (execRead_status (s := s.afterMove rest) h)
      | write k v =>
        rcases execWrite_status (s := s.afterMove rest) h with hk | ⟨rfl, hbit, hs, hstart⟩
        · exact .kept hk
        · exact .start v rest hh hbit hs hstart
    | reset => cases h; exact .reset rest hh rfl rfl
    | inWrite offset b => exact .kept (hostInWrite_status (s := s.afterMove rest) h)
    | canvasWrite offset b => exact .kept (hostCanvasWrite_status (s := s.afterMove rest) h)
    | canvasRead offset => exact .kept (hostCanvasRead_status (s := s.afterMove rest) h)
    | pass => exact .of_blockStep (u := s.afterMove rest) ⟨rfl, rfl⟩ h (.inr ⟨rest, hh⟩)

/-- Settles O46: the cases of `StatusChange`, with what they say of ERR_CODE left out. -/
theorem jobStateChangesOnlyAsListed : Obligations.JobStateChangesOnlyAsListed := by
  intro s t h
  cases step_status h with
  | kept same => exact .inl same.1
  | block busy ends turn => exact .inr (.inl ⟨busy, ends.imp And.left And.left, turn⟩)
  | start v rest move bit waiting begins =>
    exact .inr (.inr (.inl ⟨waiting, begins.imp And.left And.left, v, rest, bit, move⟩))
  | reset rest move state => exact .inr (.inr (.inr ⟨state, rest, move⟩))

/-- Settles O51: each part is in the effect of a block step of a running job. -/
theorem blockStepKeepsHostState : Obligations.BlockStepKeepsHostState := by
  intro s t hinv hbusy h
  have job := hinv.job hbusy
  obtain ⟨u, hu, frame, pixel, mono, le, -⟩ := blockStep_effect hbusy job
  obtain rfl : u = t := by
    rw [hu] at h
    cases h
    rfl
  refine ⟨pixel.cfg, ?_, ?_, ?_, ?_, ?_, mono, le, pixel.count, pixel.bound job.pixels⟩
  all_goals rw [frame]

end Sys2Proof.Machine
end

section
/-!
The host's accesses to IN and the canvas (20_memory.md R80): each in the one equation that its
guards leave when they hold.
-/

namespace Sys2Proof.Machine

theorem isBusy_eq_false {s : State} (h : s.jobState ≠ .busy) : s.isBusy = false := decide_eq_false h

theorem hostInWrite_of_not_busy {s : State} {off : Nat} (b : Byte) (hs : s.jobState ≠ .busy)
    (ho : off < Config.inCapacity) :
    hostInWrite off b s = .next { s with input := s.input.write off b } := by
  simp [hostInWrite, isBusy_eq_false hs, ho]

theorem hostCanvasWrite_of_not_busy {s : State} {off : Nat} (b : Byte) (hs : s.jobState ≠ .busy)
    (ho : off < Config.canvasCapacity) :
    hostCanvasWrite off b s = .next { s with canvas := s.canvas.write off b } := by
  simp [hostCanvasWrite, isBusy_eq_false hs, ho]

theorem hostCanvasRead_of_not_busy {s : State} {off : Nat} (hs : s.jobState ≠ .busy)
    (ho : off < Config.canvasCapacity) :
    hostCanvasRead off s =
      .next { s with readData := some ((s.canvas.read off).setWidth 32) } := by
  simp [hostCanvasRead, isBusy_eq_false hs, ho]

/-- Settles O42: outside BUSY the guards of each access leave its one effect, and read after write
says what the memory then holds; while BUSY the first guard refuses. -/
theorem hostMemoryAccess : Obligations.HostMemoryAccess := by
  intro s off b
  refine ⟨fun hs ho => ?_, fun hs ho => ⟨?_, hostCanvasRead_of_not_busy hs ho⟩, fun hb => ?_⟩
  · exact ⟨_, hostInWrite_of_not_busy b hs ho, Memory.read_write_same _ _ _,
      fun _ => Memory.read_write_other _ _, rfl⟩
  · exact ⟨_, hostCanvasWrite_of_not_busy b hs ho, Memory.read_write_same _ _ _,
      fun _ => Memory.read_write_other _ _, rfl⟩
  · have hb := (isBusy_eq_true_iff s).2 hb
    exact ⟨if_pos hb, if_pos hb, if_pos hb⟩

end Sys2Proof.Machine
end

section
/-!
Where the accepted pixels lie (20_memory.md R83, 42_row_address.md R223, R225): in the image
rectangle, at canvas offsets that are multiples of 4.
-/

namespace Sys2Proof.Machine

theorem rowMapInterlaced_lt {r ih : Nat} (h : r < ih) : rowMapInterlaced r ih < ih := by
  simp only [rowMapInterlaced]
  split_ifs <;> omega

theorem Cfg.rowMap_lt {c : Cfg} {r : Nat} (h : r < c.imgH.toNat) : c.rowMap r < c.imgH.toNat := by
  unfold Cfg.rowMap
  split
  · exact rowMapInterlaced_lt h
  · exact h

/-- An ordinal below N is a logical row below Ih and a column below Iw. -/
theorem Cfg.row_col_lt {c : Cfg} {p : Nat} (h : p < c.pixels) :
    p / c.imgW.toNat < c.imgH.toNat ∧ p % c.imgW.toNat < c.imgW.toNat := by
  have hw : 0 < c.imgW.toNat := Nat.pos_of_mul_pos_right (Nat.zero_lt_of_lt h)
  exact ⟨Nat.div_lt_of_lt_mul h, Nat.mod_lt p hw⟩

theorem Cfg.pixel_inRectangle {c : Cfg} {p : Nat} (h : p < c.pixels) :
    c.inRectangle (c.pixelX p) (c.pixelY p) := by
  obtain ⟨hrow, hcol⟩ := Cfg.row_col_lt h
  have hy := Cfg.rowMap_lt hrow
  exact ⟨Nat.le_add_right _ _, Nat.add_lt_add_left hcol _, Nat.le_add_right _ _,
    Nat.add_lt_add_left hy _⟩

/-- The effect of a block step that has been taken from a state that meets the invariant. -/
theorem blockStep_effect_of_next {s t : State} (hinv : Inv s) (hbusy : s.jobState = .busy)
    (h : blockStep s = .next t) : BlockEffect s t := by
  obtain ⟨u, hu, eff⟩ := blockStep_effect hbusy (hinv.job hbusy)
  cases hu.symm.trans h
  exact eff

/-- Settles O53: the pixels a step of a running job paints are those of ordinals below N, which lie
in the rectangle, and each pixel of the canvas is left as it was or ends in alpha 255. -/
theorem blockStepPaintsOnlyTheRectangle : Obligations.BlockStepPaintsOnlyTheRectangle := by
  intro s t hinv hbusy h
  have effect := (blockStep_effect_of_next hinv hbusy h).pixel
  refine ⟨fun a ha => effect.outside a fun p _ hp => ?_, fun px py _ => effect.alpha _⟩
  have hN : p < s.cfg.pixels := hp.trans_le (effect.bound (hinv.job hbusy).pixels)
  exact ha _ _ (Cfg.pixel_inRectangle hN)

end Sys2Proof.Machine
end

section
/-!
What the block can learn of PAL, IN and the canvas (20_memory.md R81, R83; 43_palette_mux.md R258;
70_reset_and_hazards.md R357). Two block steps that begin in states which differ in nothing else,
and agree on the bytes of IN not read yet and on the palette below PAL_LEN, stay in step: they take
the same branches, write the same values and end alike. One rule for each operation.
-/

namespace Sys2Proof.Machine

/-- The state with other contents of PAL, IN and the canvas. -/
def State.withContents (s : State) (pal : Palette) (input canvas : Memory) : State :=
  { s with pal := pal, input := input, canvas := canvas }

/-- `s` and `t` have been reached in step from `s₀` and `t₀`: they differ in the contents of PAL, IN
and the canvas only, and nothing still readable differs. -/
structure InStep (s₀ t₀ s t : State) : Prop where
  same : t = s.withContents t₀.pal t₀.input t.canvas
  pal : s.pal = s₀.pal
  input : s.input = s₀.input
  canvas : t₀.canvas = s₀.canvas → t.canvas = s.canvas
  unread : ∀ a, s.bytesConsumed.toNat ≤ a → a < s.cfg.inLen.toNat →
    t₀.input.read a = s₀.input.read a
  colours : ∀ i : Byte, i.toNat < s.cfg.palLen → palGet t₀.pal i = palGet s₀.pal i

/-- Two results in step: the same value, or an error on both sides. -/
inductive RanInStep (s₀ t₀ : State) {α : Type} : Ran α → Ran α → Prop where
  | ok (a : α) {s t : State} (h : InStep s₀ t₀ s t) : RanInStep s₀ t₀ (.ok a s) (.ok a t)
  | raised {s t : State} (h : InStep s₀ t₀ s t) : RanInStep s₀ t₀ (.raised s) (.raised t)

/-- Two outcomes in step: both have a next state. -/
inductive OutcomeInStep (s₀ t₀ : State) :
    Host.Outcome State Fault Refusal → Host.Outcome State Fault Refusal → Prop where
  | next {s t : State} (h : InStep s₀ t₀ s t) : OutcomeInStep s₀ t₀ (.next s) (.next t)

variable {s₀ t₀ s t : State}

/-- What does not look at PAL, IN and the canvas is the same on both sides. -/
theorem InStep.agree (h : InStep s₀ t₀ s t) {α : Type} (g : State → α)
    (hg : ∀ u pal input canvas, g (State.withContents u pal input canvas) = g u := by intros; rfl) :
    g t = g s := by
  rw [h.same]
  exact hg _ _ _ _

theorem InStep.right_pal (h : InStep s₀ t₀ s t) : t.pal = t₀.pal := by rw [h.same]; rfl

theorem InStep.right_input (h : InStep s₀ t₀ s t) : t.input = t₀.input := by rw [h.same]; rfl

/-- An update that neither looks at PAL, IN and the canvas nor writes them, the configuration or the
position in IN keeps the sides in step. -/
theorem InStep.update (h : InStep s₀ t₀ s t) (f : State → State)
    (commutes : ∀ u pal input canvas,
      f (State.withContents u pal input canvas) = (f u).withContents pal input canvas := by
        intros; rfl)
    (contents : ∀ u, (f u).pal = u.pal ∧ (f u).input = u.input ∧ (f u).canvas = u.canvas := by
      intro; exact ⟨rfl, rfl, rfl⟩)
    (position : ∀ u, (f u).cfg = u.cfg ∧ (f u).bytesConsumed = u.bytesConsumed := by
      intro; exact ⟨rfl, rfl⟩) : InStep s₀ t₀ (f s) (f t) := by
  obtain ⟨hpal, hinput, hcanvas⟩ := contents s
  obtain ⟨hcfg, hbytes⟩ := position s
  obtain ⟨-, -, hcanvas'⟩ := contents t
  constructor
  · calc f t = f (s.withContents t₀.pal t₀.input t.canvas) := congrArg f h.same
      _ = (f s).withContents t₀.pal t₀.input (f t).canvas := by rw [commutes, hcanvas']
  · rw [hpal, h.pal]
  · rw [hinput, h.input]
  · rw [hcanvas, hcanvas']; exact h.canvas
  · rw [hcfg, hbytes]; exact h.unread
  · rw [hcfg]; exact h.colours

theorem RanInStep.andThen {α β : Type} {r r' : Ran α} {f : α → State → Ran β}
    (hr : RanInStep s₀ t₀ r r')
    (hf : ∀ a u v, InStep s₀ t₀ u v → RanInStep s₀ t₀ (f a u) (f a v)) :
    RanInStep s₀ t₀ (r.andThen f) (r'.andThen f) := by
  cases hr with
  | ok a h => exact hf a _ _ h
  | raised h => exact .raised h

theorem RanInStep.toNext {r r' : Ran Unit} (hr : RanInStep s₀ t₀ r r') :
    OutcomeInStep s₀ t₀ r.toNext r'.toNext := by
  cases hr with
  | ok a h => exact .next h
  | raised h => exact .next h

theorem InStep.raise (h : InStep s₀ t₀ s t) (e : ErrorKind) (info : BitVec 16) :
    InStep s₀ t₀ (s.raise e info) (t.raise e info) := h.update (·.raise e info)

/-! ### The input stage -/

/-- Reading a byte leaves fewer bytes to agree on. -/
theorem InStep.countByte (h : InStep s₀ t₀ s t) (room : s.bytesConsumed.toNat < s.cfg.inLen.toNat) :
    InStep s₀ t₀ s.countByte t.countByte := by
  have hcount := countByte_toNat room
  refine ⟨?_, h.pal, h.input, h.canvas, fun a ha => h.unread a ?_, h.colours⟩
  · exact congrArg State.countByte h.same
  · rw [State.countByte_bytesConsumed, hcount] at ha
    omega

/-- The byte read is one that both sides have in common. -/
theorem inRead_inStep (h : InStep s₀ t₀ s t) : RanInStep s₀ t₀ (inRead s) (inRead t) := by
  have hcfg := h.agree State.cfg
  have hbytes := h.agree State.bytesConsumed
  by_cases room : s.bytesConsumed.toNat < s.cfg.inLen.toNat
  · have hbyte : t.input.read t.bytesConsumed.toNat = s.input.read s.bytesConsumed.toNat := by
      rw [h.right_input, h.input, hbytes]
      exact h.unread _ le_rfl room
    rw [inRead_ok room, inRead_ok (by rwa [hcfg, hbytes]), hbyte]
    exact .ok _ (h.countByte room)
  · have hend := Nat.not_lt.1 room
    rw [inRead_eof hend, inRead_eof (by rwa [hcfg, hbytes])]
    exact .raised (h.raise _ _)

theorem dataByte_inStep (h : InStep s₀ t₀ s t) : RanInStep s₀ t₀ (dataByte s) (dataByte t) :=
  (inRead_inStep h).andThen fun b _ _ h1 => .ok (some b) (h1.update State.useDataByte)

theorem nextDataByte_inStep (h : InStep s₀ t₀ s t) :
    RanInStep s₀ t₀ (nextDataByte s) (nextDataByte t) := by
  unfold nextDataByte
  rw [h.agree State.sbRemain]
  split
  · refine (inRead_inStep h).andThen fun len u v h1 => ?_
    split
    · exact .ok none h1
    · exact dataByte_inStep (h1.update (·.openSubBlock len))
  · exact dataByte_inStep h

theorem refill_inStep (n w : Nat) (h : InStep s₀ t₀ s t) :
    RanInStep s₀ t₀ (refill n w s) (refill n w t) := by
  induction n generalizing s t with
  | zero => exact .ok true h
  | succ n ih =>
    unfold refill
    rw [h.agree State.nbits]
    split
    · exact .ok true h
    · refine (nextDataByte_inStep h).andThen fun b u v h1 => ?_
      cases b with
      | none => exact .ok false h1
      | some b => exact ih (h1.update (·.pushByte b))

theorem readCode_inStep (w : Nat) (h : InStep s₀ t₀ s t) :
    RanInStep s₀ t₀ (readCode w s) (readCode w t) := by
  refine (refill_inStep w w h).andThen fun full u v h1 => ?_
  cases full with
  | true =>
    rw [h1.agree (·.lowCode w)]
    exact .ok _ (h1.update (·.dropBits w))
  | false => exact .ok none h1

theorem skipFrom_inStep (n : Nat) (h : InStep s₀ t₀ s t) :
    RanInStep s₀ t₀ (skipFrom n s) (skipFrom n t) := by
  induction n generalizing s t with
  | zero => exact .raised (h.raise _ _)
  | succ n ih =>
    unfold skipFrom
    rw [h.agree State.sbRemain]
    refine (inRead_inStep h).andThen fun b u v h1 => ?_
    split
    · split
      · exact .ok () h1
      · exact ih (h1.update (·.openSubBlock b))
    · exact ih (h1.update State.useDataByte)

theorem drainStep_inStep (h : InStep s₀ t₀ s t) : RanInStep s₀ t₀ (drainStep s) (drainStep t) := by
  unfold drainStep skipToEnd
  rw [h.agree State.inRemaining]
  exact (skipFrom_inStep _ h).andThen fun _ _ _ h1 => .ok () (h1.update State.finishJob)

theorem terminateAtTerminator_inStep (h : InStep s₀ t₀ s t) :
    RanInStep s₀ t₀ (terminateAtTerminator s) (terminateAtTerminator t) := by
  unfold terminateAtTerminator
  rw [h.agree State.allPixelsIn]
  split
  · exact .ok () (h.update State.finishJob)
  · exact .raised (h.raise _ _)

/-! ### The pixel pipeline -/

/-- Both sides store the same four bytes at the same offset. -/
theorem InStep.paintPixel (h : InStep s₀ t₀ s t) {idx : Byte} (range : idx.toNat < s.cfg.palLen) :
    InStep s₀ t₀ (s.paintPixel idx) (t.paintPixel idx) := by
  have hcolour : palGet t.pal idx = palGet s.pal idx := by
    rw [h.right_pal, h.pal]
    exact h.colours idx range
  refine ⟨?_, h.pal, h.input, fun h0 => ?_, h.unread, h.colours⟩
  · rw [h.same]; rfl
  · rw [State.paintPixel_canvas, State.paintPixel_canvas, hcolour, h.canvas h0,
      h.agree State.cfg, h.agree State.pixCount]

theorem emit_inStep (idx : Byte) (h : InStep s₀ t₀ s t) :
    RanInStep s₀ t₀ (emit idx s) (emit idx t) := by
  unfold emit
  rw [h.agree State.allPixelsIn, h.agree State.cfg]
  split
  · exact .raised (h.raise _ _)
  split
  · exact .raised (h.raise _ _)
  next hrange =>
  have range : idx.toNat < s.cfg.palLen := by simpa [Cfg.indexOutOfRange] using hrange
  split
  · exact .ok () (h.update State.countPixel)
  · exact .ok () ((h.paintPixel range).update State.countPixel)

theorem emitList_inStep (l : List Byte) (h : InStep s₀ t₀ s t) :
    RanInStep s₀ t₀ (emitList l s) (emitList l t) := by
  induction l generalizing s t with
  | nil => exact .ok () h
  | cons idx l ih => exact (emit_inStep idx h).andThen fun _ _ _ h1 => ih h1

/-! ### The code classes -/

theorem emptySlot_inStep {α : Type} (c : Code) (h : InStep s₀ t₀ s t) :
    RanInStep s₀ t₀ (emptySlot c s : Ran α) (emptySlot c t) := .raised (h.raise _ _)

theorem insertAfterPrev_inStep (c : Code) (v : Byte) (h : InStep s₀ t₀ s t) :
    RanInStep s₀ t₀ (insertAfterPrev c v s) (insertAfterPrev c v t) := by
  unfold insertAfterPrev
  rw [h.agree State.prevCode, h.agree State.tableFull, h.agree State.dict]
  split
  · exact .ok () h
  split
  · exact .ok () h
  split
  · exact emptySlot_inStep c h
  · exact .ok () (h.update (·.insertEntry _))

theorem tableCode_inStep (c : Code) (h : InStep s₀ t₀ s t) :
    RanInStep s₀ t₀ (tableCode c s) (tableCode c t) := by
  unfold tableCode
  rw [h.agree State.dict]
  split
  · exact emptySlot_inStep c h
  · exact (emitList_inStep _ h).andThen fun _ _ _ h1 =>
      (insertAfterPrev_inStep c _ h1).andThen fun _ _ _ h2 => .ok () (h2.update (·.setPrev c))

theorem kwkwkCode_inStep (c : Code) (h : InStep s₀ t₀ s t) :
    RanInStep s₀ t₀ (kwkwkCode c s) (kwkwkCode c t) := by
  unfold kwkwkCode
  rw [h.agree State.prevCode, h.agree State.dict]
  split
  · exact .raised (h.raise _ _)
  split
  · exact emptySlot_inStep c h
  · exact (emitList_inStep _ h).andThen fun _ _ _ h1 =>
      .ok () (h1.update fun u => (u.insertEntry _).setPrev c)

theorem execEndInfo_inStep (h : InStep s₀ t₀ s t) :
    OutcomeInStep s₀ t₀ (execEndInfo s) (execEndInfo t) := by
  unfold execEndInfo
  rw [h.agree State.allPixelsIn]
  split
  · exact .next (h.update State.beginDrain)
  · exact .next (h.raise _ _)

theorem execCode_inStep (x : CodeCtx) (c : Code) (h : InStep s₀ t₀ s t) :
    OutcomeInStep s₀ t₀ (exec (decodeCode x c) s) (exec (decodeCode x c) t) := by
  unfold decodeCode
  split
  · exact .next (h.update State.initTable)
  split
  · exact execEndInfo_inStep h
  split
  · exact (tableCode_inStep c h).toNext
  split
  · exact (tableCode_inStep c h).toNext
  split
  · exact (kwkwkCode_inStep c h).toNext
  · exact .next (h.raise _ _)

/-! ### The block step -/

theorem codeStep_inStep (h : InStep s₀ t₀ s t) :
    OutcomeInStep s₀ t₀ (codeStep s) (codeStep t) := by
  have read := readCode_inStep s.codeWidth.toNat h
  unfold codeStep
  rw [h.agree State.codeWidth]
  revert read
  generalize readCode s.codeWidth.toNat s = r
  generalize readCode s.codeWidth.toNat t = r'
  rintro (⟨c, h1⟩ | ⟨h1⟩)
  · cases c with
    | none => exact (terminateAtTerminator_inStep h1).toNext
    | some c =>
      dsimp only
      rw [h1.agree State.codeCtx]
      exact execCode_inStep _ c h1
  · exact .next h1

theorem blockStep_inStep (h : InStep s₀ t₀ s t) :
    OutcomeInStep s₀ t₀ (blockStep s) (blockStep t) := by
  unfold blockStep
  rw [h.agree State.jobState, h.agree State.phase]
  split
  · split
    · exact codeStep_inStep h
    · exact (drainStep_inStep h).toNext
  all_goals exact .next h

/-- Block steps from two such states have next states, which are such states again. -/
theorem blockStep_ends_inStep (start : InStep s₀ t₀ s₀ t₀) :
    ∃ u v, blockStep s₀ = .next u ∧ blockStep t₀ = .next v ∧ InStep s₀ t₀ u v := by
  have ends := blockStep_inStep start
  revert ends
  generalize blockStep s₀ = o
  generalize blockStep t₀ = o'
  rintro ⟨h⟩
  exact ⟨_, _, rfl, rfl, h⟩

end Sys2Proof.Machine
end

section
/-!
The block's blindness to the bytes of IN outside the rest of the job and to the canvas
(20_memory.md R81, R83; 70_reset_and_hazards.md R357): two choices of what differs at the start of
the step.
-/

namespace Sys2Proof.Machine

/-- Settles O56: the states are in step when the bytes of IN still to be read agree, and from the
same canvas both sides paint the same one. -/
theorem inputOutsideTheJobIsUnread : Obligations.InputOutsideTheJobIsUnread := by
  intro s inp unread
  obtain ⟨u, v, hu, hv, h⟩ := blockStep_ends_inStep (s₀ := s) (t₀ := { s with input := inp })
    ⟨rfl, rfl, rfl, fun _ => rfl, unread, fun _ _ => rfl⟩
  have same : v = { u with input := inp } := by
    rw [h.same, h.canvas rfl, ← h.pal]
    rfl
  rw [hu, hv, same]
  rfl

/-- Settles O57: the states are in step whatever the canvases hold, so the ends differ in the canvas
only. -/
theorem canvasIsNeverRead : Obligations.CanvasIsNeverRead := by
  intro s cv
  obtain ⟨u, v, hu, hv, h⟩ := blockStep_ends_inStep (s₀ := s) (t₀ := { s with canvas := cv })
    ⟨rfl, rfl, rfl, fun same => same, fun _ _ _ => rfl, fun _ _ => rfl⟩
  have same : v = { u with canvas := v.canvas } := by
    conv_lhs => rw [h.same, ← h.pal, ← h.input]
    rfl
  rw [hu, hv, same]
  rfl

end Sys2Proof.Machine
end

section
/-!
The code layer of the encoding (30_encoding.md R116, R119): the condition column of R116 as a
relation between codes and instructions, of which decodeCode is the function.
-/

namespace Sys2Proof

/-- The instruction is the class of the code by the condition column of R116. -/
inductive CodeClass (x : CodeCtx) (c : Code) : Instr → Prop where
  | clear (h : c.toNat = x.clearCode) : CodeClass x c .clear
  | endInfo (h : c.toNat = x.endCode) : CodeClass x c .endInfo
  | root (h : c.toNat < x.clearCode) : CodeClass x c (.root c)
  | dict (above : x.endCode < c.toNat) (below : c.toNat < x.nextCode) : CodeClass x c (.dict c)
  | kwkwk (h : c.toNat = x.nextCode) : CodeClass x c (.kwkwk c)
  | invalid (h : x.nextCode < c.toNat) : CodeClass x c (.invalid c)

/-- No order of trial is needed: a condition that holds makes the earlier ones of R173 fail. -/
theorem decodeCode_of_class {x : CodeCtx} {c : Code} {i : Instr} (hx : x.ok)
    (h : CodeClass x c i) : decodeCode x c = i := by
  obtain ⟨-, -, hend, hnext, -⟩ := hx.bounds
  unfold decodeCode
  cases h with
  | clear h => rw [if_pos h]
  | endInfo h => rw [if_neg (by omega), if_pos h]
  | root h => rw [if_neg (by omega), if_neg (by omega), if_pos h]
  | dict above below =>
    rw [if_neg (by omega), if_neg (by omega), if_neg (by omega), if_pos below]
  | kwkwk h =>
    rw [if_neg (by omega), if_neg (by omega), if_neg (by omega), if_neg (by omega), if_pos h]
  | invalid h =>
    rw [if_neg (by omega), if_neg (by omega), if_neg (by omega), if_neg (by omega),
      if_neg (by omega)]

/-- The six conditions leave no code out. -/
theorem codeClass_total {x : CodeCtx} (hx : x.ok) (c : Code) : ∃ i, CodeClass x c i := by
  obtain ⟨-, -, hend, hnext, -⟩ := hx.bounds
  rcases Nat.lt_trichotomy c.toNat x.clearCode with hlt | heq | hgt
  · exact ⟨_, .root hlt⟩
  · exact ⟨_, .clear heq⟩
  · rcases Nat.eq_or_lt_of_le (show x.endCode ≤ c.toNat by omega) with heq | hgt
    · exact ⟨_, .endInfo heq.symm⟩
    · rcases Nat.lt_trichotomy c.toNat x.nextCode with hlt | heq | hgt'
      · exact ⟨_, .dict hgt hlt⟩
      · exact ⟨_, .kwkwk heq⟩
      · exact ⟨_, .invalid hgt'⟩

theorem decodeCode_eq_iff {x : CodeCtx} {c : Code} {i : Instr} (hx : x.ok) :
    decodeCode x c = i ↔ CodeClass x c i := by
  refine ⟨?_, decodeCode_of_class hx⟩
  rintro rfl
  obtain ⟨i, hi⟩ := codeClass_total hx c
  rwa [decodeCode_of_class hx hi]

/-- Settles O3: each condition is one constructor of the class relation, and a 12-bit code is below
a nextCode of 4096. -/
theorem codeClassesAreExclusive : Obligations.CodeClassesAreExclusive := by
  intro x c hx
  simp only [ne_eq, decodeCode_eq_iff hx]
  have hc : c.toNat < 4096 := c.isLt
  exact ⟨⟨fun | .clear h => h, .clear⟩, ⟨fun | .endInfo h => h, .endInfo⟩,
    ⟨fun | .root h => h, .root⟩,
    ⟨fun | .dict above below => ⟨above, below⟩, fun ⟨above, below⟩ => .dict above below⟩,
    ⟨fun | .kwkwk h => h, .kwkwk⟩, ⟨fun | .invalid h => h, .invalid⟩,
    fun full => ⟨fun | .kwkwk h => by omega, fun | .invalid h => by omega⟩⟩

/-! ### Encoding a code class -/

/-- The fixed codes are 12-bit numbers (41_lzw_codes.md R170). -/
theorem CodeCtx.ok.ofNat_clearCode {x : CodeCtx} (hx : x.ok) :
    (BitVec.ofNat 12 x.clearCode).toNat = x.clearCode := by
  obtain ⟨-, hle, -⟩ := hx.bounds
  exact Nat.mod_eq_of_lt (by omega)

theorem CodeCtx.ok.ofNat_endCode {x : CodeCtx} (hx : x.ok) :
    (BitVec.ofNat 12 x.endCode).toNat = x.endCode := by
  obtain ⟨-, hle, hend, -⟩ := hx.bounds
  exact Nat.mod_eq_of_lt (by omega)

/-- The class of a code encodes to the code. -/
theorem encode_of_class {x : CodeCtx} {c : Code} {i : Instr} (h : CodeClass x c i) :
    encode x i = .code c := by
  have ofNat_of_eq {n : Nat} (hn : c.toNat = n) : InstrWord.code (BitVec.ofNat 12 n) = .code c := by
    rw [← hn, BitVec.ofNat_toNat, BitVec.setWidth_eq]
  cases h with
  | clear h => exact ofNat_of_eq h
  | endInfo h => exact ofNat_of_eq h
  | root _ | dict _ _ | kwkwk _ | invalid _ => rfl

/-- The class of a code that fits the width is well formed. -/
theorem wellFormed_of_class {x : CodeCtx} {c : Code} {i : Instr} (fits : c.toNat < 2 ^ x.codeWidth)
    (h : CodeClass x c i) : i.wellFormed x = true := by
  cases h with
  | clear _ | endInfo _ => rfl
  | root h | kwkwk h => exact decide_eq_true h
  | dict above below => simp [Instr.wellFormed, above, below]
  | invalid h => simp [Instr.wellFormed, h, fits]

end Sys2Proof
end

section
/-!
The host access layer of the encoding (30_encoding.md R124; 10_state.md R30; 44_host_interface.md
R281, R291): what a read and a write of each listed register decode to, and the word back.
-/

namespace Sys2Proof

/-! ### The two fields of a write to CTRL (44_host_interface.md R281) -/

theorem ctrlValue_getLsbD (reserved : BitVec 31) (start : Bool) (i : Nat) :
    (ctrlValue reserved start).getLsbD i =
      if i = 0 then start else reserved.getLsbD (i - 1) := by
  rw [ctrlValue, BitVec.getLsbD_append]
  cases i with
  | zero => simp
  | succ i => simp

theorem ctrlValue_extractLsb' (reserved : BitVec 31) (start : Bool) :
    (ctrlValue reserved start).extractLsb' 1 31 = reserved :=
  BitVec.extractLsb'_append_eq_left

/-- Every word is a reserved part and a START bit. -/
theorem exists_eq_ctrlValue (v : Word) : ∃ reserved start, v = ctrlValue reserved start := by
  refine ⟨v.extractLsb' 1 31, v.getLsbD 0, ?_⟩
  apply BitVec.eq_of_getLsbD_eq
  intro i hi
  rw [ctrlValue_getLsbD]
  split
  · next h => rw [h]
  · next h =>
    rw [BitVec.getLsbD_extractLsb', decide_eq_true (by omega), Bool.true_and,
      Nat.add_sub_cancel' (Nat.pos_of_ne_zero h)]

/-! ### What an access to a listed register decodes to -/

/-- The instruction of a host read of the register. -/
def Reg.readInstr : Reg → Instr
  | .ctrl => .regRead .ctrl
  | .status r => .statusRead r
  | .cfg r => .regRead (.cfg r)
  | .pal i => .regRead (.pal i)

/-- The instruction of a host write of the register. -/
def Reg.writeInstr (v : Word) : Reg → Instr
  | .ctrl => if v.getLsbD 0 then .start (v.extractLsb' 1 31) else .ctrlNop (v.extractLsb' 1 31)
  | .status r => .roWrite r v
  | .cfg r => .cfgWrite r v
  | .pal i => .palWrite i v

theorem decodeAccess_read_number (r : Reg) : decodeAccess (.read r.number) = r.readInstr := by
  simp only [decodeAccess, regOfNumber_number]
  cases r <;> rfl

theorem decodeAccess_write_number (r : Reg) (v : Word) :
    decodeAccess (.write r.number v) = r.writeInstr v := by
  simp only [decodeAccess, regOfNumber_number]
  cases r <;> rfl

theorem decodeAccess_of_unlisted {a : HostAccess} (h : regOfNumber a.number = none) :
    decodeAccess a = .unlisted a := by
  cases a with
  | read k => simp only [decodeAccess, show regOfNumber k = none from h]
  | write k v => simp only [decodeAccess, show regOfNumber k = none from h]

theorem writeInstr_ctrl_ctrlValue (reserved : BitVec 31) (start : Bool) :
    Reg.ctrl.writeInstr (ctrlValue reserved start) =
      if start then .start reserved else .ctrlNop reserved := by
  rw [Reg.writeInstr, ctrlValue_getLsbD, if_pos rfl, ctrlValue_extractLsb']

/-! ### And back -/

theorem encode_readInstr (x : CodeCtx) (r : Reg) :
    encode x r.readInstr = .access (.read r.number) := by
  cases r <;> rfl

theorem encode_writeInstr (x : CodeCtx) (r : Reg) (v : Word) :
    encode x (r.writeInstr v) = .access (.write r.number v) := by
  cases r with
  | ctrl =>
    obtain ⟨reserved, start, rfl⟩ := exists_eq_ctrlValue v
    rw [writeInstr_ctrl_ctrlValue]
    cases start <;> rfl
  | status r | cfg r | pal i => rfl

theorem wellFormed_readInstr (x : CodeCtx) (r : Reg) : r.readInstr.wellFormed x = true := by
  cases r <;> rfl

theorem wellFormed_writeInstr (x : CodeCtx) (r : Reg) (v : Word) :
    (r.writeInstr v).wellFormed x = true := by
  cases r with
  | ctrl =>
    obtain ⟨reserved, start, rfl⟩ := exists_eq_ctrlValue v
    rw [writeInstr_ctrl_ctrlValue]
    cases start <;> rfl
  | status r | cfg r | pal i => rfl

/-- A host access is the encoding of the well-formed instruction it decodes to. -/
theorem encode_decodeAccess (x : CodeCtx) (a : HostAccess) :
    (decodeAccess a).wellFormed x = true ∧ encode x (decodeAccess a) = .access a := by
  cases h : regOfNumber a.number with
  | none =>
    rw [decodeAccess_of_unlisted h]
    exact ⟨decide_eq_true h, rfl⟩
  | some r =>
    have hk := number_of_regOfNumber h
    cases a with
    | read k =>
      rw [← show r.number = k from hk, decodeAccess_read_number]
      exact ⟨wellFormed_readInstr x r, encode_readInstr x r⟩
    | write k v =>
      rw [← show r.number = k from hk, decodeAccess_write_number]
      exact ⟨wellFormed_writeInstr x r v, encode_writeInstr x r v⟩

end Sys2Proof
end

section
/-!
The decoder and the encoder as a whole (30_encoding.md R111, R116, R124): the three layers together.
-/

namespace Sys2Proof

theorem decodeLengthByte_of_ne_zero {b : Byte} (h : b ≠ 0) : decodeLengthByte b = .sbData b :=
  if_neg h

/-- Settles O1, by the class of the code or the register the instruction names. -/
theorem decodeOfEncode : Obligations.DecodeOfEncode := by
  intro x i hx hw
  cases i with
  | clear => exact decodeCode_of_class hx (.clear hx.ofNat_clearCode)
  | endInfo => exact decodeCode_of_class hx (.endInfo hx.ofNat_endCode)
  | root c => exact decodeCode_of_class hx (.root (of_decide_eq_true hw))
  | dict c =>
    obtain ⟨above, below⟩ := (Bool.and_eq_true _ _).mp hw
    exact decodeCode_of_class hx (.dict (of_decide_eq_true above) (of_decide_eq_true below))
  | kwkwk c => exact decodeCode_of_class hx (.kwkwk (of_decide_eq_true hw))
  | invalid c =>
    obtain ⟨above, -⟩ := (Bool.and_eq_true _ _).mp hw
    exact decodeCode_of_class hx (.invalid (of_decide_eq_true above))
  | sbTerm => rfl
  | sbData len => exact decodeLengthByte_of_ne_zero (of_decide_eq_true hw)
  | start reserved =>
    exact (decodeAccess_write_number .ctrl _).trans (writeInstr_ctrl_ctrlValue reserved true)
  | ctrlNop reserved =>
    exact (decodeAccess_write_number .ctrl _).trans (writeInstr_ctrl_ctrlValue reserved false)
  | reset => rfl
  | cfgWrite r v => exact decodeAccess_write_number (.cfg r) v
  | palWrite i v => exact decodeAccess_write_number (.pal i) v
  | statusRead r => exact decodeAccess_read_number (.status r)
  | regRead r =>
    cases r with
    | ctrl => exact decodeAccess_read_number .ctrl
    | cfg r => exact decodeAccess_read_number (.cfg r)
    | pal i => exact decodeAccess_read_number (.pal i)
  | roWrite r v => exact decodeAccess_write_number (.status r) v
  | unlisted a => exact decodeAccess_of_unlisted (of_decide_eq_true hw)

/-- Settles O2, by the three layers of the encoding. -/
theorem encodeOfDecode : Obligations.EncodeOfDecode := by
  intro x w hx fits
  cases w with
  | code c =>
    have hc := (decodeCode_eq_iff (c := c) hx).1 rfl
    exact ⟨wellFormed_of_class (fits c rfl) hc, encode_of_class hc⟩
  | lengthByte b =>
    by_cases hb : b = 0
    · subst hb
      exact ⟨rfl, rfl⟩
    · rw [decode, decodeLengthByte_of_ne_zero hb]
      exact ⟨decide_eq_true hb, rfl⟩
  | access a => exact encode_decodeAccess x a
  | resetInput => exact ⟨rfl, rfl⟩

/-- Settles O6: closed words, one evaluation of the decoder each. -/
theorem sampleWordsDecode : Obligations.SampleWordsDecode := by
  unfold Obligations.SampleWordsDecode
  decide

end Sys2Proof
end

section
/-!
The code width as a function of nextCode (30_encoding.md R118; 41_lzw_codes.md R180, R185).
-/

namespace Sys2Proof

/-- The number of binary digits grows at the powers of two. -/
theorem bitlen_succ {n : Nat} (hn : n ≠ 0) :
    bitlen (n + 1) = if n + 1 = 2 ^ bitlen n then bitlen n + 1 else bitlen n := by
  have hup := lt_two_pow_bitlen n
  have hlow := two_pow_bitlen_le hn
  split
  · next hpow =>
    refine bitlen_eq n.succ_ne_zero hpow.ge ?_
    rw [hpow]
    exact Nat.pow_lt_pow_right (by decide) (Nat.lt_succ_self _)
  · next hpow =>
    obtain ⟨k, hk⟩ : ∃ k, bitlen n = k + 1 := ⟨Nat.log2 n, if_neg hn⟩
    rw [hk] at hup hlow hpow ⊢
    rw [Nat.add_sub_cancel] at hlow
    exact bitlen_eq n.succ_ne_zero (by omega) (by omega)

theorem bitlen_le_of_lt {n : Nat} (hn : n ≠ 0) (h : n < 4096) : bitlen n ≤ 12 := by
  by_contra hlt
  have hpow : (2:Nat) ^ 12 ≤ 2 ^ (bitlen n - 1) := Nat.pow_le_pow_right (by decide) (by omega)
  have hlow := two_pow_bitlen_le hn
  omega

/-- Below 4096 the width is the number of binary digits. -/
theorem widthOf_eq_bitlen {n : Nat} (hn : n ≠ 0) (h : n < 4096) : widthOf n = bitlen n :=
  Nat.min_eq_right (bitlen_le_of_lt hn h)

/-- The growth test of Insert (41_lzw_codes.md R180) follows the width function. -/
theorem widthOf_succ {n : Nat} (hn : n ≠ 0) (h : n < 4096) :
    widthOf (n + 1) =
      if n + 1 = 2 ^ widthOf n ∧ widthOf n < 12 then widthOf n + 1 else widthOf n := by
  have hle := bitlen_le_of_lt hn h
  rw [widthOf_eq_bitlen hn h, widthOf, bitlen_succ hn, Config.maxWidth]
  by_cases hpow : n + 1 = 2 ^ bitlen n
  · rw [if_pos hpow]
    by_cases hlt : bitlen n < 12
    · rw [if_pos ⟨hpow, hlt⟩]
      exact Nat.min_eq_right hlt
    · rw [if_neg (fun hgrow => hlt hgrow.2)]
      omega
  · rw [if_neg hpow, if_neg (fun hgrow => hpow hgrow.1)]
    exact Nat.min_eq_right hle

end Sys2Proof

namespace Sys2Proof.Machine

/-- Settles O5: the digits of nextCode change exactly at the powers of two, where Insert's test grows
the width. -/
theorem widthFollowsNextCode : Obligations.WidthFollowsNextCode := by
  refine ⟨fun s str hpos hlt hw => ?_, fun n hpos hlt => ?_, by decide⟩
  · have hnext := (insertEntry_inserted str hlt).nextCode
    exact ⟨hnext, hnext ▸ insertEntry_width str hpos hlt hw⟩
  · have hn : n ≠ 0 := Nat.ne_of_gt hpos
    refine ⟨?_, lt_two_pow_widthOf le_rfl hlt, ?_, widthOf_succ hn hlt⟩
    · rw [widthOf_eq_bitlen hn hlt]
      exact two_pow_bitlen_le hn
    · exact widthOf_mono (n := 1) hpos

end Sys2Proof.Machine
end

section
/-!
ReadCode on the bits still to come (30_encoding.md R112, R113; 40_input_stage.md R145, R146, R150).
-/

namespace Sys2Proof.Machine

/-- A number below 2^w is given by its low w bits. -/
theorem bitsOf_inj {w u v : Nat} (hu : u < 2 ^ w) (hv : v < 2 ^ w)
    (h : bitsOf w u = bitsOf w v) : u = v := by
  apply Nat.eq_of_testBit_eq
  intro i
  by_cases hi : i < w
  · simpa [hi] using congrArg (·[i]?) h
  · have hpow : 2 ^ w ≤ 2 ^ i := Nat.pow_le_pow_right (by decide) (Nat.not_lt.1 hi)
    rw [Nat.testBit_lt_two_pow (hu.trans_le hpow), Nat.testBit_lt_two_pow (hv.trans_le hpow)]

/-- Settles O11: of the results of ReadCode, the two without a code need fewer than w bits to come. -/
theorem readCodeTakesNextBits : Obligations.ReadCodeTakesNextBits := by
  intro s w hw hn ha hlen
  have spec := readCode_spec hw ha
  revert spec
  generalize readCode w s = r
  rintro (⟨c, t, frame, value, fits, bound, held, mono, -, -⟩ | ⟨t, -, short, -⟩ |
    ⟨t, -, short, -⟩)
  · have hc : (bitsOf w c.toNat).length = w := bitsOf_length _ _
    refine ⟨c, t, rfl, ?_, fits, ?_, by omega, held, mono, frame⟩
    · rw [value, List.take_left' hc]
    · rw [value, List.drop_left' hc]
  · exact absurd hlen (Nat.not_le.2 short)
  · exact absurd hlen (Nat.not_le.2 short)

/-- Settles O13: the code and the bits left over are functions of the bits to come. -/
theorem chunkingDoesNotChangeCodes : Obligations.ChunkingDoesNotChangeCodes := by
  intro s s' w hw hn hn' ha ha' same hlen
  obtain ⟨c, t, hr, hbits, hfit, hrest, -⟩ := readCodeTakesNextBits s w hw hn ha hlen
  obtain ⟨c', t', hr', hbits', hfit', hrest', -⟩ :=
    readCodeTakesNextBits s' w hw hn' ha' (same ▸ hlen)
  have hcode : c = c' := by
    apply BitVec.eq_of_toNat_eq
    apply bitsOf_inj hfit hfit'
    rw [hbits, hbits', same]
  subst hcode
  exact ⟨c, t, t', hr, hr', by rw [hrest, hrest', same]⟩

end Sys2Proof.Machine
end

section
/-!
The assembler's pass 3 against the de-framer's view of a chain (30_encoding.md R110, R123).
-/

namespace Sys2Proof.Machine

theorem dataBytes_append (block rest : List Byte) :
    dataBytes block.length (block ++ rest) = block ++ dataBytes 0 rest := by
  induction block with
  | nil => rfl
  | cons b block ih => exact congrArg (b :: ·) ih

theorem chainLength_append (block rest : List Byte) :
    chainLength block.length (block ++ rest) = (chainLength 0 rest).map (· + block.length) := by
  induction block with
  | nil => simp
  | cons b block ih =>
    rw [List.length_cons, List.cons_append, chainLength, ih, Option.map_map]
    rfl

/-- A sub-block: the length byte, then the data bytes it counts (R110). -/
def subBlock (block : List Byte) : List Byte := BitVec.ofNat 8 block.length :: block

/-- The bytes are the sub-blocks of a cut of the data, each of 1 to 255 data bytes, without the
terminator (R110). -/
inductive Framed : List Byte → List Byte → Prop where
  | nil : Framed [] []
  | cons {block bytes data : List Byte} (pos : 0 < block.length) (le : block.length ≤ 255)
      (rest : Framed bytes data) : Framed (subBlock block ++ bytes) (block ++ data)

section
variable {block : List Byte} (le : block.length ≤ 255) (rest : List Byte)
include le

theorem subBlock_length_toNat : (BitVec.ofNat 8 block.length).toNat = block.length :=
  Nat.mod_eq_of_lt (Nat.lt_succ_of_le le)

theorem subBlock_length_ne_zero (pos : 0 < block.length) : BitVec.ofNat 8 block.length ≠ 0 :=
  fun h0 => pos.ne' ((subBlock_length_toNat le).symm.trans (congrArg BitVec.toNat h0))

theorem dataBytes_subBlock (pos : 0 < block.length) :
    dataBytes 0 (subBlock block ++ rest) = block ++ dataBytes 0 rest := by
  rw [subBlock, List.cons_append, dataBytes, if_neg (subBlock_length_ne_zero le pos),
    subBlock_length_toNat le, dataBytes_append]

theorem chainLength_subBlock (pos : 0 < block.length) :
    chainLength 0 (subBlock block ++ rest) =
      (chainLength 0 rest).map (· + (subBlock block).length) := by
  rw [subBlock, List.cons_append, chainLength, if_neg (subBlock_length_ne_zero le pos),
    subBlock_length_toNat le, chainLength_append, Option.map_map]
  rfl

end

theorem Framed.dataBytes_eq {bytes data : List Byte} (h : Framed bytes data) (tail : List Byte) :
    dataBytes 0 (bytes ++ 0 :: tail) = data := by
  induction h with
  | nil => simp [dataBytes]
  | cons pos le _ ih => rw [List.append_assoc, dataBytes_subBlock le _ pos, ih]

theorem Framed.chainLength_eq {bytes data : List Byte} (h : Framed bytes data) (tail : List Byte) :
    chainLength 0 (bytes ++ 0 :: tail) = some (bytes.length + 1) := by
  induction h with
  | nil => simp [chainLength]
  | cons pos le _ ih =>
    rw [List.append_assoc, chainLength_subBlock le _ pos, ih, Option.map_some, List.length_append]
    congr 1
    omega

/-- Pass 3 cuts the data, whatever it holds of the sub-block being filled. -/
theorem frameData_framed {sub : Nat} (hsub : sub ≤ 255) (cur data : List Byte)
    (hcur : cur.length < sub) : Framed (frameData sub cur data) (cur ++ data) := by
  induction data generalizing cur with
  | nil =>
    rw [frameData]
    split
    · next h => rw [h]; exact .nil
    · next h =>
      simpa [subBlock] using
        Framed.cons (List.length_pos_iff.2 h) (by omega : cur.length ≤ 255) .nil
  | cons b data ih =>
    have hlen : (cur ++ [b]).length = cur.length + 1 := by simp
    have hcons : cur ++ b :: data = cur ++ [b] ++ data := by simp
    rw [frameData, hcons]
    split
    · exact .cons (by omega) (by omega) (ih [] (by simp; omega))
    · next h => exact ih _ (by omega)

/-- Settles O58: the framed data is a cut of the data into sub-blocks, and the de-framer undoes any
such cut. -/
theorem deframingInvertsFraming : Obligations.DeframingInvertsFraming := by
  intro sub data tail hpos hle
  have h : Framed (frameData sub [] data) data := frameData_framed hle [] data hpos
  exact ⟨h.dataBytes_eq tail, h.chainLength_eq tail⟩

end Sys2Proof.Machine
end

section
/-!
The assembler's pass 2: the bits of the packed bytes (30_encoding.md R113, R123).
-/

namespace Sys2Proof.Machine

theorem bitsOf_zero (w : Nat) : bitsOf w 0 = List.replicate w false :=
  List.eq_replicate_iff.2 ⟨bitsOf_length w 0, by simp [bitsOf]⟩

/-- A number below 2^n has n bits, the later ones are 0. -/
theorem bitsOf_pad {n v : Nat} (hv : v < 2 ^ n) (k : Nat) :
    bitsOf (n + k) v = bitsOf n v ++ List.replicate k false := by
  rw [bitsOf_append, Nat.div_eq_of_lt hv, bitsOf_zero]

theorem byteBits_ofNat {v : Nat} (hv : v < 2 ^ 8) : byteBits (BitVec.ofNat 8 v) = bitsOf 8 v := by
  rw [byteBits, BitVec.toNat_ofNat, Nat.mod_eq_of_lt hv]

/-- The byte being filled with one more bit, at place n. -/
def addBit (acc n : Nat) (b : Bool) : Nat := acc + (if b then 2 ^ n else 0)

theorem addBit_lt {acc n : Nat} (h : acc < 2 ^ n) (b : Bool) : addBit acc n b < 2 ^ (n + 1) := by
  rw [Nat.pow_succ, addBit]
  split <;> omega

theorem bitsOf_addBit {acc n : Nat} (h : acc < 2 ^ n) (b : Bool) :
    bitsOf (n + 1) (addBit acc n b) = bitsOf n acc ++ [b] := by
  cases b with
  | false => exact bitsOf_pad h 1
  | true =>
    have hpos := Nat.two_pow_pos n
    rw [bitsOf_append, addBit, if_pos rfl]
    congr 1
    · rw [← bitsOf_mod, Nat.add_mod_right, bitsOf_mod]
    · rw [Nat.add_div_right _ hpos, Nat.div_eq_of_lt h]
      rfl

/-- Packing from a byte that already holds n bits. -/
theorem packBits_bits (bits : List Bool) {acc n : Nat} (hn : n ≤ 7) (hacc : acc < 2 ^ n) :
    ∃ pad, pad ≤ 7 ∧ (packBits acc n bits).flatMap byteBits =
      bitsOf n acc ++ bits ++ List.replicate pad false := by
  induction bits generalizing acc n with
  | nil =>
    rw [packBits]
    split
    · next h => exact ⟨0, by omega, by simp [h, bitsOf]⟩
    · next h =>
      refine ⟨8 - n, by omega, ?_⟩
      have hlt : acc < 2 ^ 8 := hacc.trans_le (Nat.pow_le_pow_right (by decide) (by omega))
      rw [List.flatMap_singleton, byteBits_ofNat hlt, List.append_nil, ← bitsOf_pad hacc,
        Nat.add_sub_cancel' (by omega)]
  | cons b bits ih =>
    have hbit := bitsOf_addBit hacc b
    have hlt := addBit_lt hacc b
    have hcons : bitsOf n acc ++ b :: bits = bitsOf (n + 1) (addBit acc n b) ++ bits := by
      rw [hbit, List.append_assoc, List.singleton_append]
    rw [packBits, hcons, ← addBit]
    split
    · next h =>
      subst h
      obtain ⟨pad, hpad, heq⟩ := ih (Nat.zero_le 7) Nat.one_pos
      refine ⟨pad, hpad, ?_⟩
      rw [List.flatMap_cons, byteBits_ofNat hlt, heq]
      simp [bitsOf]
    · exact ih (by omega) hlt

/-- Settles O59: packing starts with an empty byte. -/
theorem packingKeepsStreamBits : Obligations.PackingKeepsStreamBits :=
  fun bits => packBits_bits bits (Nat.zero_le 7) Nat.one_pos

end Sys2Proof.Machine
end

section
/-!
The read of a byte and the framing tokens as instructions (40_input_stage.md R140, R143, R144): one
equation where IN has a byte left and one at its end.
-/

namespace Sys2Proof.Machine

section
variable {s : State}

theorem exec_sbTerm_of_room (room : s.bytesConsumed.toNat < s.cfg.inLen.toNat) :
    exec .sbTerm s = (endOfChain s.countByte).toNext := by
  rw [exec, execSbTerm, inRead_ok room, Ran.andThen_ok]

theorem exec_sbTerm_at_end (at_end : s.cfg.inLen.toNat ≤ s.bytesConsumed.toNat) :
    exec .sbTerm s = .next (s.raise .unexpectedEof 0) := by
  rw [exec, execSbTerm, inRead_eof at_end, Ran.andThen_raised, Ran.toNext_raised]

theorem exec_sbData_of_room (len : Byte) (room : s.bytesConsumed.toNat < s.cfg.inLen.toNat) :
    exec (.sbData len) s = .next (s.countByte.openSubBlock len) := by
  rw [exec, execSbData, inRead_ok room, Ran.andThen_ok, Ran.toNext_ok]

theorem exec_sbData_at_end (len : Byte) (at_end : s.cfg.inLen.toNat ≤ s.bytesConsumed.toNat) :
    exec (.sbData len) s = .next (s.raise .unexpectedEof 0) := by
  rw [exec, execSbData, inRead_eof at_end, Ran.andThen_raised, Ran.toNext_raised]

theorem terminateAtTerminator_of_complete (full : s.cfg.pixels ≤ s.pixCount.toNat) :
    terminateAtTerminator s = .ok () s.finishJob := if_pos (decide_eq_true full)

theorem terminateAtTerminator_of_short (short : s.pixCount.toNat < s.cfg.pixels) :
    terminateAtTerminator s = .raised (s.raise .truncatedImage 0) :=
  if_neg fun full => Nat.not_le.2 short (of_decide_eq_true full)

theorem endOfChain_of_decode (hp : s.phase = .decode) :
    endOfChain s = terminateAtTerminator s := by
  rw [endOfChain, hp]

theorem endOfChain_of_drain (hp : s.phase = .drain) : endOfChain s = .ok () s.finishJob := by
  rw [endOfChain, hp]

end

/-- Settles O10: the two equations of InRead, with BYTES_CONSUMED below CFG_IN_LEN and not. -/
theorem inReadReadsOrRaises : Obligations.InReadReadsOrRaises := by
  intro s
  exact ⟨fun room => ⟨s.countByte, inRead_ok room, rfl, countByte_toNat room⟩, inRead_eof⟩

/-- Settles O15: past its byte SB_TERM is the end of the chain, and PHASE and PIX_COUNT say how the
job ends there. -/
theorem sbTermEndsTheChain : Obligations.SbTermEndsTheChain := by
  intro s
  refine ⟨fun room => ?_, exec_sbTerm_at_end⟩
  rw [exec_sbTerm_of_room room]
  have count := countByte_toNat room
  cases hp : s.countByte.phase with
  | drain =>
    rw [endOfChain_of_drain hp]
    exact ⟨_, rfl, count, fun _ => rfl, fun ⟨decode, _⟩ => nomatch hp.symm.trans decode⟩
  | decode =>
    rw [endOfChain_of_decode hp]
    by_cases full : s.cfg.pixels ≤ s.pixCount.toNat
    · rw [terminateAtTerminator_of_complete (s := s.countByte) full]
      exact ⟨_, rfl, count, fun _ => rfl, fun ⟨_, short⟩ => absurd full short.not_ge⟩
    · have not_drain : s.phase ≠ .drain := fun drain => nomatch hp.symm.trans drain
      rw [terminateAtTerminator_of_short (s := s.countByte) (Nat.not_le.1 full)]
      exact ⟨_, rfl, count, fun done => (done.elim not_drain full).elim, fun _ => rfl⟩

/-- Settles O16: the two equations of SB_DATA. -/
theorem sbDataOpensSubBlock : Obligations.SbDataOpensSubBlock := by
  intro s len
  exact ⟨fun room => ⟨_, exec_sbData_of_room len room, countByte_toNat room, rfl⟩,
    exec_sbData_at_end len⟩

end Sys2Proof.Machine
end

section
/-!
The ends of a chain: ReadCode with too few bits to come (40_input_stage.md R149, R152) and the drain
step (R151, 41_lzw_codes.md R183).
-/

namespace Sys2Proof.Machine

theorem blockStep_of_decode {s : State} (hb : s.jobState = .busy) (hp : s.phase = .decode) :
    blockStep s = codeStep s := by
  simp only [blockStep, hb, hp]

theorem blockStep_of_drain {s : State} (hb : s.jobState = .busy) (hp : s.phase = .drain) :
    blockStep s = (drainStep s).toNext := by
  simp only [blockStep, hb, hp]

/-- Settles O12: of the results of ReadCode, the one with a code needs w bits to come, and each of
the two others says whether the chain has a terminator. -/
theorem readCodeShortOfBits : Obligations.ReadCodeShortOfBits := by
  intro s w hw _ ha hle hshort
  have spec := readCode_spec hw ha
  revert spec
  generalize readCode w s = r
  rintro (⟨c, t, -, value, -⟩ | ⟨t, frame, -, -, mono, -, chain⟩ | ⟨t, frame, -, at_end, chain⟩)
  · have enough : w ≤ s.pendingBits.length := by
      rw [value, List.length_append, bitsOf_length]
      exact Nat.le_add_right _ _
    exact absurd hshort (Nat.not_lt.2 enough)
  · refine ⟨fun n hn => ⟨t, rfl, ?_, frame⟩, fun hn => ?_⟩
    · have hlen := Option.some.inj (chain.symm.trans hn)
      omega
    · cases chain.symm.trans hn
  · refine ⟨fun n hn => ?_, fun _ => ⟨t, rfl, ?_⟩⟩
    · cases chain.symm.trans hn
    · rw [← at_end hle]
      exact frame

/-- Settles O14: each result of SkipToEnd says whether the chain has a terminator. -/
theorem drainStepSkipsToTerminator : Obligations.DrainStepSkipsToTerminator := by
  intro s hb hp hle
  rw [blockStep_of_drain hb hp, drainStep]
  have spec := skipToEnd_spec s
  revert spec
  generalize skipToEnd s = r
  rintro (⟨t, frame, -, mono, -, chain⟩ | ⟨t, frame, at_end, chain⟩)
  · refine ⟨fun n hn => ⟨t.finishJob, rfl, ?_, ?_⟩, fun hn => ?_⟩
    · have hlen := Option.some.inj (chain.symm.trans hn)
      rw [State.finishJob_bytesConsumed]
      omega
    · rw [State.finishJob, frame]
    · cases chain.symm.trans hn
  · refine ⟨fun n hn => ?_, fun _ => ⟨t, rfl, ?_⟩⟩
    · cases chain.symm.trans hn
    · rw [← at_end hle]
      exact frame

end Sys2Proof.Machine
end

section
/-!
A block step at a length byte (40_input_stage.md R142, R151): one round of the de-framer and one of
the drain's loop, each at the terminator and at the start of a sub-block.
-/

namespace Sys2Proof

theorem decodeLengthByte_eq_sbTerm {b : Byte} (h : decodeLengthByte b = .sbTerm) : b = 0 := by
  by_contra hb
  rw [decodeLengthByte_of_ne_zero hb] at h
  cases h

theorem decodeLengthByte_eq_sbData {b len : Byte} (h : decodeLengthByte b = .sbData len) :
    b = len ∧ len ≠ 0 := by
  by_cases hb : b = 0
  · subst hb
    cases h
  · rw [decodeLengthByte_of_ne_zero hb] at h
    cases h
    exact ⟨rfl, hb⟩

namespace Machine

section
variable {s : State} (room : s.bytesConsumed.toNat < s.cfg.inLen.toNat) (closed : s.sbRemain = 0)
include room closed

theorem nextDataByte_at_term (hb : s.input.read s.bytesConsumed.toNat = 0) :
    nextDataByte s = .ok none s.countByte := by
  rw [nextDataByte, if_pos closed, inRead_ok room, Ran.andThen_ok, if_pos hb]

/-- At a sub-block's length byte the de-framer reads what it reads once the sub-block is open. -/
theorem nextDataByte_at_data {len : Byte} (hb : s.input.read s.bytesConsumed.toNat = len)
    (hlen : len ≠ 0) : nextDataByte s = nextDataByte (s.countByte.openSubBlock len) := by
  calc nextDataByte s
    _ = dataByte (s.countByte.openSubBlock len) := by
      rw [nextDataByte, if_pos closed, inRead_ok room, Ran.andThen_ok, hb, if_neg hlen]
    _ = nextDataByte (s.countByte.openSubBlock len) := (if_neg hlen).symm

theorem skipToEnd_at_term (hb : s.input.read s.bytesConsumed.toNat = 0) :
    skipToEnd s = .ok () s.countByte := by
  rw [skipToEnd, inRemaining_countByte room, skipFrom, inRead_ok room, Ran.andThen_ok,
    if_pos closed, if_pos hb]

theorem skipToEnd_at_data {len : Byte} (hb : s.input.read s.bytesConsumed.toNat = len)
    (hlen : len ≠ 0) : skipToEnd s = skipToEnd (s.countByte.openSubBlock len) := by
  rw [skipToEnd, inRemaining_countByte room, skipFrom, inRead_ok room, Ran.andThen_ok,
    if_pos closed, hb, if_neg hlen]
  rfl

end

/-- With bits missing, ReadCode meets the terminator where the de-framer does. -/
theorem readCode_at_term {s t : State} {w : Nat} (short : s.nbits < w)
    (term : nextDataByte s = .ok none t) : readCode w s = .ok none t := by
  obtain ⟨n, rfl⟩ : ∃ n, w = n + 1 := ⟨w - 1, by omega⟩
  rw [readCode, refill, if_neg short.not_ge, term]
  rfl

/-- With bits missing, ReadCode sees the state only through nbits and the next data byte's read. -/
theorem readCode_congr {s t : State} {w : Nat} (short : s.nbits < w) (bits : t.nbits = s.nbits)
    (next : nextDataByte s = nextDataByte t) : readCode w s = readCode w t := by
  obtain ⟨n, rfl⟩ : ∃ n, w = n + 1 := ⟨w - 1, by omega⟩
  simp only [readCode, refill, bits, next, if_neg short.not_ge]

/-- Settles O9: in DRAIN the loop of SkipToEnd is at its length byte, in DECODE the refill loop is,
and SB_DATA leaves each where its own round does. -/
theorem blockStepRunsFramingToken : Obligations.BlockStepRunsFramingToken := by
  intro s hb closed room needs
  refine ⟨fun hterm => ?_, fun len hdata => ?_⟩
  · have zero := decodeLengthByte_eq_sbTerm hterm
    rw [exec_sbTerm_of_room room]
    cases hp : s.phase with
    | drain =>
      rw [blockStep_of_drain hb hp, drainStep, skipToEnd_at_term room closed zero,
        endOfChain_of_drain (s := s.countByte) hp, Ran.andThen_ok]
    | decode =>
      have short := needs.resolve_left (by simp [hp])
      rw [blockStep_of_decode hb hp, codeStep,
        readCode_at_term short (nextDataByte_at_term room closed zero),
        endOfChain_of_decode (s := s.countByte) hp]
  · obtain ⟨byte, nonzero⟩ := decodeLengthByte_eq_sbData hdata
    rw [exec_sbData_of_room len room, thenStep]
    cases hp : s.phase with
    | drain =>
      rw [blockStep_of_drain hb hp, blockStep_of_drain (s := s.countByte.openSubBlock len) hb hp,
        drainStep, drainStep, skipToEnd_at_data room closed byte nonzero]
    | decode =>
      have short := needs.resolve_left (by simp [hp])
      have read : readCode s.codeWidth.toNat s =
          readCode s.codeWidth.toNat (s.countByte.openSubBlock len) :=
        readCode_congr short rfl (nextDataByte_at_data room closed byte nonzero)
      rw [blockStep_of_decode hb hp, blockStep_of_decode (s := s.countByte.openSubBlock len) hb hp,
        codeStep, codeStep, read]
      rfl

end Machine
end Sys2Proof
end

section
/-!
The invariant of the machine along its steps: when a state meets it, said once for each kind of
state that a move can leave, and then for the block, the host and the platform.
-/

namespace Sys2Proof.Machine

variable {s t : State}

/-! ### The kinds of state a move leaves -/

theorem JobInv.withHostSide (h : JobInv s) (host : List HostMove) (data : Option Word) :
    JobInv { s with host := host, readData := data } :=
  ⟨h.table.congr rfl rfl rfl rfl rfl, h.bits, h.held, h.bytes, h.fits, h.pixels, h.drained⟩

/-- The list of moves and the word last read are no part of the invariant. -/
theorem Inv.withHostSide (h : Inv s) (host : List HostMove) (data : Option Word) :
    Inv { s with host := host, readData := data } :=
  ⟨h.input, h.canvas, h.errCode, h.errState, fun hb => (h.job hb).withHostSide host data⟩

/-- Outside BUSY only the memories and the status matter. -/
theorem Inv.of_waiting (h : Inv s) (waiting : s.jobState ≠ .busy) (status : StatusKept s t)
    (input : t.input.wf) (canvas : t.canvas.wf) : Inv t := by
  obtain ⟨state, err⟩ := status
  exact ⟨input, canvas, err ▸ h.errCode, state ▸ err ▸ h.errState,
    fun hb => absurd (state.symm.trans hb) waiting⟩

/-- A state without an error, whose job is sound if it has one. -/
theorem Inv.of_no_error (input : t.input.wf) (canvas : t.canvas.wf) (err : t.errCode = 0)
    (state : t.jobState ≠ .error) (job : t.jobState = .busy → JobInv t) : Inv t :=
  ⟨input, canvas, .inl err, iff_of_false state (not_not_intro err), job⟩

theorem errorNumber_ne_zero (e : ErrorKind) : errorNumber e ≠ 0 := by
  cases e <;> decide

theorem Inv.of_blockError (input : t.input.wf) (canvas : t.canvas.wf) (h : t.inBlockError) :
    Inv t := by
  obtain ⟨state, e, he, err⟩ := h
  exact ⟨input, canvas, .inr ⟨e, he, err⟩, iff_of_true state (err ▸ errorNumber_ne_zero e),
    fun hb => nomatch state.symm.trans hb⟩

/-- A running job has no error. -/
theorem Inv.errCode_of_busy (h : Inv s) (hb : s.jobState = .busy) : s.errCode = 0 := by
  by_contra herr
  cases hb.symm.trans (h.errState.2 herr)

/-! ### The block -/

theorem blockStep_inv (hinv : Inv s) (h : blockStep s = .next t) : Inv t := by
  by_cases hb : s.jobState = .busy
  · obtain ⟨frame, pixel, -, -, result⟩ := blockStep_effect_of_next hinv hb h
    have input : t.input.wf := by rw [frame]; exact hinv.input
    have canvas := pixel.wf hinv.canvas
    have noErr := hinv.errCode_of_busy hb
    cases result with
    | goesOn busy _ err job _ =>
      exact .of_no_error input canvas (err.trans noErr) (by simp [busy]) fun _ => job
    | done state err =>
      exact .of_no_error input canvas (err.trans noErr) (by simp [state]) (by simp [state])
    | error state kind => exact .of_blockError input canvas ⟨state, kind⟩
  · rw [blockStep_of_not_busy hb] at h
    cases h
    exact hinv

/-! ### The host and the platform -/

/-- The job that START begins (44_host_interface.md R282). -/
theorem beginJob_jobInv (fits : s.cfg.outOfBounds = false) (low : 2 ≤ s.cfg.mincode.toNat)
    (high : s.cfg.mincode.toNat ≤ 8) : JobInv s.clearStatus.initTable.beginJob where
  table := (initTable_inv (s := s.clearStatus) low high).congr rfl rfl rfl rfl rfl
  bits := Nat.zero_le 7
  held := Nat.one_pos
  bytes := Nat.zero_le _
  fits := fits
  pixels := Nat.zero_le _
  drained hd := nomatch hd

theorem badMinCode_eq_false (c : Cfg) :
    c.badMinCode = false ↔ 2 ≤ c.mincode.toNat ∧ c.mincode.toNat ≤ 8 := by
  simp only [Cfg.badMinCode, Bool.or_eq_false_iff, decide_eq_false_iff_not, Nat.not_lt]
  rfl

/-- A move that is refused while BUSY has a next state only outside it. -/
theorem waiting_of_next {r : Refusal} {o : Host.Outcome State Fault Refusal}
    (h : (if s.isBusy then .refused r else o) = .next t) : s.jobState ≠ .busy ∧ o = .next t :=
  (next_of_duty h).imp_left (mt (isBusy_eq_true_iff s).2)

theorem execStart_inv {reserved : BitVec 31} (hinv : Inv s) (h : execStart reserved s = .next t) :
    Inv t := by
  obtain ⟨-, h⟩ := waiting_of_next h
  unfold startJob at h
  split at h
  · cases h
    exact .of_blockError hinv.input hinv.canvas (raise_inBlockError _ _ (by decide))
  next fits =>
  split at h <;> cases h
  · exact .of_blockError hinv.input hinv.canvas (raise_inBlockError _ _ (by decide))
  next legal =>
  obtain ⟨low, high⟩ := (badMinCode_eq_false s.cfg).1 (eq_false_of_ne_true legal)
  exact .of_no_error hinv.input hinv.canvas rfl (by simp)
    fun _ => beginJob_jobInv (eq_false_of_ne_true fits) low high

theorem execReset_inv (hinv : Inv s) : Inv s.resetInput :=
  .of_no_error hinv.input hinv.canvas rfl (by simp) (by simp)

theorem execCfgWrite_inv {r : CfgReg} {v : Word} (hinv : Inv s)
    (h : execCfgWrite r v s = .next t) : Inv t := by
  obtain ⟨waiting, h⟩ := waiting_of_next h
  cases h
  exact hinv.of_waiting waiting ⟨rfl, rfl⟩ hinv.input hinv.canvas

theorem execPalWrite_inv {i : Byte} {v : Word} (hinv : Inv s)
    (h : execPalWrite i v s = .next t) : Inv t := by
  obtain ⟨waiting, h⟩ := waiting_of_next h
  cases h
  exact hinv.of_waiting waiting ⟨rfl, rfl⟩ hinv.input hinv.canvas

theorem execRead_inv {k : Nat} (hinv : Inv s) (h : exec (decodeAccess (.read k)) s = .next t) :
    Inv t := by
  dsimp only [decodeAccess] at h
  cases hr : regOfNumber k with
  | none => rw [hr] at h; cases h
  | some r =>
    rw [hr] at h
    cases r <;> cases h <;> exact hinv.withHostSide _ _

theorem execWrite_inv {k : Nat} {v : Word} (hinv : Inv s)
    (h : exec (decodeAccess (.write k v)) s = .next t) : Inv t := by
  dsimp only [decodeAccess] at h
  cases hr : regOfNumber k with
  | none => rw [hr] at h; cases h
  | some r =>
    rw [hr] at h
    cases r with
    | ctrl =>
      dsimp only at h
      split at h
      · exact execStart_inv (reserved := v.extractLsb' 1 31) hinv h
      · cases h; exact hinv
    | status r => cases h; exact hinv
    | cfg r => exact execCfgWrite_inv hinv h
    | pal i => exact execPalWrite_inv hinv h

theorem hostInWrite_inv {offset : Nat} {b : Byte} (hinv : Inv s)
    (h : hostInWrite offset b s = .next t) : Inv t := by
  obtain ⟨waiting, h⟩ := waiting_of_next h
  cases next_of_offset h
  exact hinv.of_waiting waiting ⟨rfl, rfl⟩
    (Memory.wf_write hinv.input offset b) hinv.canvas

theorem hostCanvasWrite_inv {offset : Nat} {b : Byte} (hinv : Inv s)
    (h : hostCanvasWrite offset b s = .next t) : Inv t := by
  obtain ⟨waiting, h⟩ := waiting_of_next h
  cases next_of_offset h
  exact hinv.of_waiting waiting ⟨rfl, rfl⟩
    hinv.input (Memory.wf_write hinv.canvas offset b)

theorem hostCanvasRead_inv {offset : Nat} (hinv : Inv s)
    (h : hostCanvasRead offset s = .next t) : Inv t := by
  cases next_of_offset (waiting_of_next h).2
  exact hinv.withHostSide _ _

theorem hostMove_inv {mv : HostMove} (hinv : Inv s) (h : hostMove mv s = .next t) : Inv t := by
  cases mv with
  | access a =>
    cases a with
    | read k => exact execRead_inv hinv h
    | write k v => exact execWrite_inv hinv h
  | reset => cases h; exact execReset_inv hinv
  | inWrite offset b => exact hostInWrite_inv hinv h
  | canvasWrite offset b => exact hostCanvasWrite_inv hinv h
  | canvasRead offset => exact hostCanvasRead_inv hinv h
  | pass => exact blockStep_inv hinv h

/-- Settles O48: a step is the block's or the oldest move's, and taking a move off the list is no
part of the invariant. -/
theorem stepKeepsInvariant : Obligations.StepKeepsInvariant := by
  intro s t hinv h
  cases hh : s.host with
  | nil =>
    rw [step_of_host_nil hh] at h
    exact blockStep_inv hinv h
  | cons mv rest =>
    rw [step_of_host_cons hh] at h
    exact hostMove_inv (hinv.withHostSide rest s.readData) h

end Sys2Proof.Machine
end

section
/-!
The end of a job (41_lzw_codes.md R188): no code is shorter than three bits, so each code step that
does not end the job brings the end of IN nearer.
-/

namespace Sys2Proof.Machine

variable {s t : State}

/-- The bits that the bit reader can still take: those of the bytes of IN left and those it holds. -/
def State.bitsLeft (s : State) : Nat := 8 * s.inRemaining + s.nbits

/-- A block step ends the job, or leaves a running job with at least three bits fewer and no host
move. -/
theorem step_ends_or_goes_on (hb : s.jobState = .busy) (job : JobInv s) (hh : s.host = []) :
    ∃ t, step s = .next t ∧ ((t.jobState = .done ∨ t.jobState = .error) ∨
      t.jobState = .busy ∧ JobInv t ∧ t.host = [] ∧ t.bitsLeft + 3 ≤ s.bitsLeft) := by
  obtain ⟨t, ht, eff⟩ := blockStep_effect hb job
  refine ⟨t, (step_of_host_nil hh).trans ht, ?_⟩
  have host : t.host = [] := by rw [eff.frame]; exact hh
  cases eff.result with
  | goesOn busy _ _ job' work => exact .inr ⟨busy, job', host, work⟩
  | done state => exact .inl (.inl state)
  | error state => exact .inl (.inr state)

theorem run_succ_of_next (M : Host.Core) {n : Nat} {u v : M.State} (h : M.step u = .next v) :
    M.run (n + 1) u = M.run n v := by
  rw [Host.Core.run, h]

theorem runSteps_succ {n : Nat} (h : step s = .next t) : runSteps (n + 1) s = runSteps n t :=
  run_succ_of_next core h

/-- By induction on the number of codes of three bits that are left. -/
theorem job_ends (n : Nat) (hb : s.jobState = .busy) (job : JobInv s) (hh : s.host = [])
    (hn : s.bitsLeft / 3 ≤ n) :
    ∃ k t, k ≤ n + 1 ∧ runSteps k s = .next t ∧ (t.jobState = .done ∨ t.jobState = .error) := by
  induction n generalizing s with
  | zero =>
    obtain ⟨t, ht, ends | ⟨-, -, -, fewer⟩⟩ := step_ends_or_goes_on hb job hh
    · exact ⟨1, t, le_rfl, runSteps_succ ht, ends⟩
    · omega
  | succ n ih =>
    obtain ⟨u, hu, ends | ⟨busy, job', host, fewer⟩⟩ := step_ends_or_goes_on hb job hh
    · exact ⟨1, u, by omega, runSteps_succ hu, ends⟩
    · obtain ⟨k, t, hk, run, ends⟩ := ih busy job' host (by omega)
      exact ⟨k + 1, t, by omega, (runSteps_succ hu).trans run, ends⟩

/-- Settles O49: every code step that does not end the job uses a code of at least three bits. -/
theorem jobEndsWithinBound : Obligations.JobEndsWithinBound := by
  intro s hinv hb hh
  obtain ⟨k, t, hk, run, ends⟩ := job_ends _ hb (hinv.job hb) hh le_rfl
  exact ⟨k, t, hk.trans (Nat.le_succ _), run, ends⟩

end Sys2Proof.Machine
end

section
/-!
The addresses of the accepted pixels (42_row_address.md R223, R225, R227): no two ordinals below N
share a canvas byte.
-/

namespace Sys2Proof.Machine

theorem rowMapInterlaced_inj {r r' ih : Nat} (h : r < ih) (h' : r' < ih)
    (same : rowMapInterlaced r ih = rowMapInterlaced r' ih) : r = r' := by
  simp only [rowMapInterlaced] at same
  split_ifs at same <;> omega

theorem Cfg.rowMap_inj {c : Cfg} {r r' : Nat} (h : r < c.imgH.toNat) (h' : r' < c.imgH.toNat)
    (same : c.rowMap r = c.rowMap r') : r = r' := by
  unfold Cfg.rowMap at same
  split at same
  · exact rowMapInterlaced_inj h h' same
  · exact same

/-- Column and row together say which ordinal it is. -/
theorem Cfg.pixel_inj {c : Cfg} {p p' : Nat} (h : p < c.pixels) (h' : p' < c.pixels)
    (col : c.pixelX p = c.pixelX p') (row : c.pixelY p = c.pixelY p') : p = p' := by
  have hrow : p / c.imgW.toNat = p' / c.imgW.toNat :=
    Cfg.rowMap_inj (Cfg.row_col_lt h).1 (Cfg.row_col_lt h').1 (Nat.add_left_cancel row)
  have hcol : p % c.imgW.toNat = p' % c.imgW.toNat := Nat.add_left_cancel col
  rw [← Nat.div_add_mod p c.imgW.toNat, hrow, hcol, Nat.div_add_mod]

/-- The rectangle of an image that START accepts lies on the screen (44_host_interface.md R282). -/
theorem Cfg.pixelX_lt_screenW {c : Cfg} {p : Nat} (fits : c.outOfBounds = false)
    (h : p < c.pixels) : c.pixelX p < c.screenW.toNat := by
  obtain ⟨-, inside, -⟩ := Cfg.pixel_inRectangle h
  simp only [Cfg.outOfBounds, Bool.or_eq_false_iff, decide_eq_false_iff_not, Nat.not_lt] at fits
  exact inside.trans_le fits.1

/-- A pixel number on the screen is a row and a column of it. -/
theorem row_col_inj {w x x' y y' : Nat} (hx : x < w) (hx' : x' < w)
    (same : y * w + x = y' * w + x') : x = x' ∧ y = y' := by
  have hw := Nat.zero_lt_of_lt hx
  have col := congrArg (· % w) same
  have row := congrArg (· / w) same
  simp only [Nat.mul_add_mod_self_right, Nat.mod_eq_of_lt hx, Nat.mod_eq_of_lt hx'] at col
  simp only [Nat.mul_comm _ w, Nat.mul_add_div hw, Nat.div_eq_of_lt hx, Nat.div_eq_of_lt hx',
    Nat.add_zero] at row
  exact ⟨col, row⟩

theorem Cfg.distinctPixels_of_fits {c : Cfg} (fits : c.outOfBounds = false) :
    c.distinctPixels := by
  intro p p' h h' hne
  have hx := Cfg.pixelX_lt_screenW fits h
  have hx' := Cfg.pixelX_lt_screenW fits h'
  have apart : c.pixelY p' * c.screenW.toNat + c.pixelX p' ≠
      c.pixelY p * c.screenW.toNat + c.pixelX p := by
    intro same
    obtain ⟨col, row⟩ := row_col_inj hx' hx same
    exact hne (Cfg.pixel_inj h' h col row)
  simp only [Cfg.pixelOffset, Cfg.byteOffset]
  omega

end Sys2Proof.Machine
end

section
/-!
The data codes (41_lzw_codes.md R176 to R178, R189): what the emission of a string that is accepted
leaves, what it leaves when an element is rejected, and what comes after it.
-/

namespace Sys2Proof.Machine

/-- The state with another PIX_COUNT and another canvas. -/
def State.withPixels (s : State) (count : Word) (canvas : Memory) : State :=
  { s with pixCount := count, canvas := canvas }

section
variable {s : State}

/-! ### The emission -/

/-- Accepted indices change PIX_COUNT and the canvas only. -/
theorem emitList_accepted {l : List Byte} (fits : s.cfg.outOfBounds = false) (h : s.accepts l) :
    ∃ count canvas, emitList l s = .ok () (s.withPixels count canvas) ∧
      Painted s (s.withPixels count canvas) l := by
  obtain ⟨u, emitted, painted, frame⟩ := emitList_painted l s (Cfg.distinctPixels_of_fits fits) h
  have hu : u = s.withPixels u.pixCount u.canvas := frame
  exact ⟨u.pixCount, u.canvas, hu ▸ emitted, hu ▸ painted⟩

/-- What was painted is seen in PIX_COUNT and the canvas alone. -/
theorem Painted.congr {t u : State} {l : List Byte} (h : Painted s t l)
    (count : u.pixCount = t.pixCount) (canvas : u.canvas = t.canvas) : Painted s u l :=
  ⟨count ▸ h.count, canvas ▸ h.written, canvas ▸ h.others⟩

theorem emit_of_full (idx : Byte) (full : s.cfg.pixels ≤ s.pixCount.toNat) :
    emit idx s = .raised (s.raise .excessImageData 0) := if_pos (decide_eq_true full)

theorem emit_of_out_of_range {idx : Byte} (room : s.pixCount.toNat < s.cfg.pixels)
    (range : s.cfg.palLen ≤ idx.toNat) :
    emit idx s = .raised (s.raise .paletteIndexOutOfRange (idx.setWidth 16)) := by
  have hroom : s.allPixelsIn = false := decide_eq_false (Nat.not_le.2 room)
  have hrange : s.cfg.indexOutOfRange idx = true := decide_eq_true range
  simp [emit, hroom, hrange]

/-- A rejected element ends the emission where it stands. -/
theorem emitList_rejected {good bad : List Byte} {idx : Byte} {u t : State}
    (accepted : emitList good s = .ok () u) (rejected : emit idx u = .raised t) :
    emitList (good ++ idx :: bad) s = .raised t := by
  rw [emitList_append, accepted, Ran.andThen_ok, emitList, rejected, Ran.andThen_raised]

/-! ### The insertion after it -/

theorem insertAfterPrev_of_none (c : Code) (v : Byte) (noPrev : s.prevCode = none) :
    insertAfterPrev c v s = .ok () s := by
  simp [insertAfterPrev, noPrev]

theorem insertAfterPrev_of_full (c : Code) (v : Byte) (full : 4096 ≤ s.nextCode.toNat) :
    insertAfterPrev c v s = .ok () s := by
  have hfull : s.tableFull = true := decide_eq_true full
  cases hp : s.prevCode <;> simp [insertAfterPrev, hp, hfull]

theorem insertAfterPrev_of_room (c : Code) (v : Byte) {p : Code} {ps : Str}
    (prev : s.prevCode = some p) (entry : s.dict.get p = some ps)
    (room : s.nextCode.toNat < 4096) :
    insertAfterPrev c v s = .ok () (s.insertEntry (ps.snoc v)) := by
  have hroom : s.tableFull = false := decide_eq_false (Nat.not_le.2 room)
  simp [insertAfterPrev, prev, hroom, entry]

/-- Neither the emission before an insertion nor prevCode after it is a part of it. -/
theorem inserted_withPixels (count : Word) (canvas : Memory) (str : Str) (c : Code)
    (room : s.nextCode.toNat < 4096) :
    Inserted s (((s.withPixels count canvas).insertEntry str).setPrev c) str := by
  obtain ⟨entry, others, nextCode, codeWidth⟩ :=
    insertEntry_inserted (s := s.withPixels count canvas) str room
  exact ⟨entry, others, nextCode, codeWidth⟩

/-! ### The codes -/

/-- The string that a data code emits: its own entry's for ROOT and DICT, and the previous entry's
extended by its own first element for KWKWK. -/
inductive EmitsString (s : State) (c : Code) (str : Str) : Instr → Prop where
  | root (entry : s.dict.get c = some str) : EmitsString s c str (.root c)
  | dict (entry : s.dict.get c = some str) : EmitsString s c str (.dict c)
  | kwkwk {p : Code} {ps : Str} (prev : s.prevCode = some p) (entry : s.dict.get p = some ps)
      (extended : str = ps.snoc ps.first) : EmitsString s c str (.kwkwk c)

/-- ROOT and DICT are one operation. -/
theorem exec_tableCode {c : Code} {i : Instr} (hi : i = .root c ∨ i = .dict c) :
    exec i s = (tableCode c s).toNext := by
  rcases hi with rfl | rfl <;> rfl

theorem tableCode_of_entry {c : Code} {str : Str} (entry : s.dict.get c = some str) :
    tableCode c s = (emitList str.toList s).andThen fun _ t =>
      (insertAfterPrev c str.first t).andThen fun _ u => .ok () (u.setPrev c) := by
  rw [tableCode, entry]

theorem kwkwkCode_of_prev {c p : Code} {ps : Str} (prev : s.prevCode = some p)
    (entry : s.dict.get p = some ps) :
    kwkwkCode c s = (emitList (ps.snoc ps.first).toList s).andThen fun _ t =>
      .ok () ((t.insertEntry (ps.snoc ps.first)).setPrev c) := by
  simp only [kwkwkCode, prev, entry]

/-- A code whose emission raises ends there. -/
theorem EmitsString.exec_of_raised {c : Code} {str : Str} {i : Instr} {t : State}
    (h : EmitsString s c str i) (raised : emitList str.toList s = .raised t) :
    exec i s = .next t := by
  cases h with
  | root entry =>
    rw [exec_tableCode (.inl rfl), tableCode_of_entry entry, raised]
    rfl
  | dict entry =>
    rw [exec_tableCode (.inr rfl), tableCode_of_entry entry, raised]
    rfl
  | kwkwk prev entry extended =>
    rw [extended] at raised
    rw [exec, execKwkwk, kwkwkCode_of_prev prev entry, raised]
    rfl

end

/-- Settles O19: after the emission the insertion does nothing. -/
theorem tableCodeEmitsWithoutInsertion : Obligations.TableCodeEmitsWithoutInsertion := by
  intro s c str i hi fits entry accepted noInsertion
  obtain ⟨count, canvas, emitted, painted⟩ := emitList_accepted fits accepted
  have skipped : insertAfterPrev c str.first (s.withPixels count canvas) =
      .ok () (s.withPixels count canvas) :=
    noInsertion.elim (insertAfterPrev_of_none (s := s.withPixels count canvas) c _)
      (insertAfterPrev_of_full (s := s.withPixels count canvas) c _)
  refine ⟨(s.withPixels count canvas).setPrev c, ?_, painted.congr rfl rfl, rfl⟩
  rw [exec_tableCode hi, tableCode_of_entry entry, emitted, Ran.andThen_ok, skipped]
  rfl

/-- Settles O20: after the emission there is a previous string and room for it. -/
theorem tableCodeEmitsAndInserts : Obligations.TableCodeEmitsAndInserts := by
  intro s c p str ps i hi fits entry accepted prev prevEntry room
  obtain ⟨count, canvas, emitted, painted⟩ := emitList_accepted fits accepted
  have inserted := insertAfterPrev_of_room (s := s.withPixels count canvas) c str.first prev
    prevEntry room
  refine ⟨((s.withPixels count canvas).insertEntry (ps.snoc str.first)).setPrev c, ?_,
    painted.congr rfl rfl, inserted_withPixels count canvas _ c room, rfl⟩
  rw [exec_tableCode hi, tableCode_of_entry entry, emitted, Ran.andThen_ok, inserted]
  rfl

/-- Settles O21: the string emitted is the one inserted. -/
theorem kwkwkEmitsAndInserts : Obligations.KwkwkEmitsAndInserts := by
  intro s c p ps fits prev entry accepted room
  obtain ⟨count, canvas, emitted, painted⟩ := emitList_accepted fits accepted
  refine ⟨((s.withPixels count canvas).insertEntry (ps.snoc ps.first)).setPrev c, ?_,
    painted.congr rfl rfl, inserted_withPixels count canvas _ c room, rfl⟩
  rw [exec, execKwkwk, kwkwkCode_of_prev prev entry, emitted]
  rfl

/-- Settles O23: the elements before the rejected one are painted, and PIX_COUNT then says which of
the two checks rejects it. -/
theorem rejectedElementEndsDataCode : Obligations.RejectedElementEndsDataCode := by
  intro s c str good bad idx i hi fits split accepted
  have emits : EmitsString s c str i := by
    obtain ⟨rfl | rfl, entry⟩ | ⟨rfl, p, ps, prev, entry, extended⟩ := hi
    · exact .root entry
    · exact .dict entry
    · exact .kwkwk prev entry extended
  obtain ⟨count, canvas, emitted, painted⟩ := emitList_accepted fits accepted
  have advanced := painted.count
  have ends {t : State} (rejected : emit idx (s.withPixels count canvas) = .raised t) :
      exec i s = .next t :=
    emits.exec_of_raised (split ▸ emitList_rejected emitted rejected)
  refine ⟨fun full => ?_, fun room range => ?_⟩
  · have hfull : (s.withPixels count canvas).cfg.pixels ≤
        (s.withPixels count canvas).pixCount.toNat := advanced ▸ full
    exact ⟨_, ends (emit_of_full idx hfull), painted.congr rfl rfl, rfl⟩
  · have hroom : (s.withPixels count canvas).pixCount.toNat <
        (s.withPixels count canvas).cfg.pixels := advanced ▸ room
    exact ⟨_, ends (emit_of_out_of_range hroom range), painted.congr rfl rfl, rfl⟩

end Sys2Proof.Machine
end

section
/-!
A code step (41_lzw_codes.md R173) and the codes that emit nothing: CLEAR, END, KWKWK without a
previous code and INVALID (R174, R175, R178, R179).
-/

namespace Sys2Proof.Machine

/-- The read of a code leaves the table state as it was. -/
theorem readCode_codeCtx {w : Nat} {s t : State} {c : Option Code}
    (h : readCode w s = .ok c t) : t.codeCtx = s.codeCtx := by
  rw [readCode_frame h]
  rfl

/-- Settles O8: a code step by what its read gives. -/
theorem codeStepRunsDecodedCode : Obligations.CodeStepRunsDecodedCode := by
  intro s hb hp
  rw [blockStep_of_decode hb hp, codeStep]
  refine ⟨fun c t read => ?_, fun t read => by rw [read], fun t read => by rw [read]⟩
  have same := readCode_codeCtx read
  rw [read, ← same]
  exact ⟨rfl, rfl⟩

/-- Settles O17: CLEAR is the table's reset. -/
theorem clearResetsTheTable : Obligations.ClearResetsTheTable := by
  intro s low high
  exact ⟨s.initTable, rfl, initTable_reset low high, rfl⟩

/-- Settles O18: the count check of END either way. -/
theorem endChecksCountThenDrains : Obligations.EndChecksCountThenDrains := by
  intro s
  refine ⟨fun full => if_pos (decide_eq_true full), fun short => if_neg fun full => ?_⟩
  exact short.not_ge (of_decide_eq_true full)

theorem kwkwkCode_of_none {s : State} (c : Code) (noPrev : s.prevCode = none) :
    kwkwkCode c s = .raised (s.raise .kwkwkWithoutPrevious (codeInfo c)) := by
  rw [kwkwkCode, noPrev]

/-- Settles O22: KWKWK's first check, and INVALID as it is defined. -/
theorem illegalCodesRaise : Obligations.IllegalCodesRaise := by
  intro s c
  refine ⟨fun noPrev => ?_, rfl⟩
  rw [exec, execKwkwk, kwkwkCode_of_none c noPrev]
  rfl

end Sys2Proof.Machine
end

section
/-!
The four-pass schedule (42_row_address.md R224): pass p has `passRows ih p` rows, and its k-th one
is `passRow p k`. Both the row map (R223) and the sequential generator (R228) are described by it.
-/

namespace Sys2Proof.Machine

/-- The k-th output row of pass p. -/
def passRow (p k : Nat) : Nat := passFirst p + passStep p * k

theorem passRow_succ (p k : Nat) : passRow p (k + 1) = passRow p k + passStep p :=
  (Nat.add_assoc _ _ _).symm

/-- How many output rows below Ih a pass has. -/
def passRows (ih : Nat) : Nat → Nat
  | 0 => 0
  | 1 => (ih + 7) / 8
  | 2 => (ih + 3) / 8
  | 3 => (ih + 1) / 4
  | _ => ih / 2

/-- The logical row that a pass begins with. -/
def passStart (ih : Nat) : Nat → Nat
  | 0 => 0
  | p + 1 => passStart ih p + passRows ih p

/-- The passes are numbered 1 to 4. -/
def IsPass (p : Nat) : Prop := 1 ≤ p ∧ p ≤ 4

theorem IsPass.cases {p : Nat} (hp : IsPass p) : p = 1 ∨ p = 2 ∨ p = 3 ∨ p = 4 := by
  obtain ⟨low, high⟩ := hp
  omega

section
variable {ih p p' k r : Nat}

theorem passStart_mono (ih : Nat) : Monotone (passStart ih) :=
  monotone_nat_of_le_succ fun _ => Nat.le_add_right _ _

/-- The rows of the four passes are as many as the image has. -/
theorem passStart_five (ih : Nat) : passStart ih 5 = ih := by
  simp only [passStart, passRows]
  omega

/-- A pass has just those of its rows that are below Ih. -/
theorem passRow_lt_iff (hp : IsPass p) : passRow p k < ih ↔ k < passRows ih p := by
  obtain rfl | rfl | rfl | rfl := hp.cases <;>
    simp only [passRow, passRows, passFirst, passStep] <;> omega

theorem passOfRow_passRow (hp : IsPass p) : passOfRow (passRow p k) = p := by
  obtain rfl | rfl | rfl | rfl := hp.cases <;>
    simp only [passRow, passOfRow, passFirst, passStep] <;> split_ifs <;> omega

theorem passRow_strictMono (hp : IsPass p) : StrictMono (passRow p) := by
  have hstep : 0 < passStep p := by obtain rfl | rfl | rfl | rfl := hp.cases <;> decide
  exact fun k k' h => Nat.add_lt_add_left (Nat.mul_lt_mul_of_pos_left h hstep) _

/-- Each logical row below Ih is one of a pass: the last that begins at or before it. -/
theorem exists_pass_of_lt (h : r < ih) :
    ∃ p k, IsPass p ∧ k < passRows ih p ∧ r = passStart ih p + k := by
  have later : ∃ q, r < passStart ih q := ⟨5, (passStart_five ih).symm ▸ h⟩
  obtain ⟨p, begun, ends⟩ := Nat.exists_not_and_succ_of_not_zero_of_exists
    (p := fun q => r < passStart ih q) (Nat.not_lt_zero r) later
  have low : p ≠ 0 := by
    rintro rfl
    exact Nat.not_lt_zero r ends
  have high : p < 5 := by
    by_contra hp
    have last := passStart_mono ih (Nat.le_of_not_lt hp)
    rw [passStart_five] at last
    exact begun (h.trans_le last)
  rw [passStart] at ends
  exact ⟨p, r - passStart ih p, ⟨Nat.pos_of_ne_zero low, Nat.le_of_lt_succ high⟩,
    by omega, by omega⟩

/-- The row map gives the k-th logical row of a pass the k-th output row of that pass. -/
theorem rowMapInterlaced_passStart_add (hp : IsPass p) (hk : k < passRows ih p) :
    rowMapInterlaced (passStart ih p + k) ih = passRow p k := by
  obtain rfl | rfl | rfl | rfl := hp.cases <;>
    simp only [rowMapInterlaced, passStart, passRow, passRows, passFirst, passStep] at hk ⊢ <;>
    split_ifs <;> omega

/-! ### Every row is reached -/

/-- A one-to-one map of the numbers below n into themselves reaches each of them. -/
theorem exists_lt_eq_of_inj {n : Nat} {f : Nat → Nat} (lt : ∀ r, r < n → f r < n)
    (inj : ∀ r r', r < n → r' < n → f r = f r' → r = r') {y : Nat} (hy : y < n) :
    ∃ r, r < n ∧ f r = y := by
  have onto : Set.SurjOn f (Finset.range n) (Finset.range n) :=
    Finset.surjOn_of_injOn_of_card_le f (fun r hr => by simpa using lt r (by simpa using hr))
      (fun r hr r' hr' => inj r r' (by simpa using hr) (by simpa using hr')) le_rfl
  obtain ⟨r, hr, rfl⟩ := onto (by simpa using hy)
  exact ⟨r, by simpa using hr, rfl⟩

/-! ### The order of the rows -/

/-- The passes follow one another. -/
theorem passStart_add_lt_passStart (h : p < p') (hk : k < passRows ih p) :
    passStart ih p + k < passStart ih p' :=
  calc passStart ih p + k < passStart ih (p + 1) := Nat.add_lt_add_left hk _
    _ ≤ passStart ih p' := passStart_mono ih h

/-! ### The sequential generator (42_row_address.md R228) -/

/-- The generator is at logical row r: in a pass, at the row of it that r has, or just past the
pass's last row. -/
inductive RowGen.Tracks (ih : Nat) : Nat → RowGen → Prop where
  | row {p k : Nat} (hp : IsPass p) (hk : k ≤ passRows ih p) :
      RowGen.Tracks ih (passStart ih p + k) { pass := p, y := passRow p k }

variable {g : RowGen}

theorem RowGen.Tracks.y_eq (h : g.Tracks ih r) (hy : g.y < ih) : g.y = rowMapInterlaced r ih := by
  obtain ⟨hp, -⟩ := h
  exact (rowMapInterlaced_passStart_add hp ((passRow_lt_iff hp).1 hy)).symm

/-- The last pass ends with the image. -/
theorem RowGen.Tracks.y_lt_of_last (h : g.Tracks ih r) (hr : r < ih) (last : 4 ≤ g.pass) :
    g.y < ih := by
  obtain @⟨p, k, hp, -⟩ := h
  obtain rfl : p = 4 := hp.2.antisymm last
  have ends : passStart ih 4 + passRows ih 4 = ih := passStart_five ih
  exact (passRow_lt_iff hp).2 (by omega)

/-- Just past a pass's last row is before the next one's first. -/
theorem RowGen.Tracks.nextPass (h : g.Tracks ih r) (past : ih ≤ g.y) (more : g.pass < 4) :
    RowGen.Tracks ih r { pass := g.pass + 1, y := passFirst (g.pass + 1) } := by
  obtain @⟨p, k, hp, hk⟩ := h
  obtain rfl : k = passRows ih p :=
    hk.antisymm (Nat.le_of_not_lt fun lt => past.not_gt ((passRow_lt_iff hp).2 lt))
  exact .row (k := 0) ⟨Nat.le_add_left _ _, more⟩ (Nat.zero_le _)

/-- The loop ends at a row below Ih. -/
theorem RowGen.Tracks.settle (hr : r < ih) (n : Nat) (h : g.Tracks ih r) (fuel : 4 ≤ g.pass + n) :
    (RowGen.settle ih n g).Tracks ih r ∧ (RowGen.settle ih n g).y < ih := by
  induction n generalizing g with
  | zero => exact ⟨h, h.y_lt_of_last hr fuel⟩
  | succ n hn =>
    rw [RowGen.settle]
    split
    · next more => exact hn (h.nextPass more.1 more.2) (by simp only; omega)
    · next stop =>
      refine ⟨h, ?_⟩
      by_contra past
      exact past (h.y_lt_of_last hr (by omega))

theorem RowGen.Tracks.next (h : g.Tracks ih r) (hy : g.y < ih) (hr : r + 1 < ih) :
    (g.next ih).Tracks ih (r + 1) ∧ (g.next ih).y < ih := by
  obtain @⟨p, k, hp, -⟩ := h
  have stepped : RowGen.Tracks ih (passStart ih p + k + 1)
      { pass := p, y := passRow p k + passStep p } :=
    passRow_succ p k ▸ .row (k := k + 1) hp ((passRow_lt_iff hp).1 hy)
  exact stepped.settle hr 3 (Nat.add_le_add_right hp.1 3)

theorem RowGen.at_tracks (h : r < ih) :
    (RowGen.at ih r).Tracks ih r ∧ (RowGen.at ih r).y < ih := by
  induction r with
  | zero => exact ⟨.row (p := 1) (k := 0) ⟨le_rfl, by decide⟩ (Nat.zero_le _), h⟩
  | succ r hr =>
    obtain ⟨tracks, hy⟩ := hr (Nat.lt_of_succ_lt h)
    exact tracks.next hy h

end

/-- Settles O25: a one-to-one map of the rows below Ih reaches all of them. -/
theorem rowMapIsBijection : Obligations.RowMapIsBijection := by
  intro c
  refine ⟨fun off r => by simp [Cfg.rowMap, off], fun on r => by simp [Cfg.rowMap, on],
    fun r => Cfg.rowMap_lt, fun r r' => Cfg.rowMap_inj, fun y => ?_⟩
  exact exists_lt_eq_of_inj (fun r => Cfg.rowMap_lt) (fun r r' => Cfg.rowMap_inj)

/-- Settles O26: by the passes of the two logical rows. -/
theorem interlaceFollowsPassSchedule : Obligations.InterlaceFollowsPassSchedule := by
  intro ih
  refine ⟨fun y => ?_, fun r r' lt hr' => ?_⟩
  · exact exists_lt_eq_of_inj (fun r => rowMapInterlaced_lt) (fun r r' => rowMapInterlaced_inj)
  · obtain ⟨p, k, hp, hk, rfl⟩ := exists_pass_of_lt (lt.trans hr')
    obtain ⟨p', k', hp', hk', rfl⟩ := exists_pass_of_lt hr'
    rw [rowMapInterlaced_passStart_add hp hk, rowMapInterlaced_passStart_add hp' hk',
      passOfRow_passRow hp, passOfRow_passRow hp']
    obtain earlier | rfl | later := lt_trichotomy p p'
    · exact .inl earlier
    · exact .inr ⟨rfl, passRow_strictMono hp (Nat.lt_of_add_lt_add_left lt)⟩
    · have := passStart_add_lt_passStart later hk'
      omega

/-- Settles O27: the generator keeps to the schedule that the row map follows. -/
theorem sequentialGeneratorAgrees : Obligations.SequentialGeneratorAgrees := by
  intro ih r h
  obtain ⟨tracks, hy⟩ := RowGen.at_tracks h
  exact tracks.y_eq hy

end Sys2Proof.Machine
end

section
/-!
The address of an accepted pixel (42_row_address.md R225 to R227).
-/

namespace Sys2Proof.Machine

theorem Cfg.pixelY_lt_screenH {c : Cfg} {p : Nat} (fits : c.outOfBounds = false)
    (h : p < c.pixels) : c.pixelY p < c.screenH.toNat := by
  obtain ⟨-, -, -, inside⟩ := Cfg.pixel_inRectangle h
  simp only [Cfg.outOfBounds, Bool.or_eq_false_iff, decide_eq_false_iff_not, Nat.not_lt] at fits
  exact inside.trans_le fits.2

/-- The last byte of a pixel on the screen is in the canvas. -/
theorem Cfg.byteOffset_add_three_lt {c : Cfg} {px py : Nat} (hx : px < c.screenW.toNat)
    (hy : py < c.screenH.toNat) :
    c.byteOffset px py + 3 < 4 * c.screenW.toNat * c.screenH.toNat := by
  have inside : c.screenW.toNat * py + px < c.screenH.toNat * c.screenW.toNat :=
    Nat.mul_add_lt_mul_of_lt_of_lt hy hx
  rw [Cfg.byteOffset, Nat.mul_assoc, Nat.mul_comm c.screenW.toNat c.screenH.toNat,
    Nat.mul_comm py]
  omega

/-- Settles O28: a pixel of the image is in the rectangle, the rectangle is on the screen, and the
row map is one to one. -/
theorem pixelAddressesAreDistinct : Obligations.PixelAddressesAreDistinct := by
  intro c p fits hp
  refine ⟨rfl, fun off => by simp [Cfg.pixelY, Cfg.rowMap, off],
    fun on => by simp [Cfg.pixelY, Cfg.rowMap, on], rfl, Cfg.pixel_inRectangle hp, ?_,
    fun p' => Cfg.distinctPixels_of_fits fits p p' hp⟩
  exact Cfg.byteOffset_add_three_lt (Cfg.pixelX_lt_screenW fits hp) (Cfg.pixelY_lt_screenH fits hp)

end Sys2Proof.Machine
end

section
/-!
The palette lookup and the transparency multiplexer (43_palette_mux.md R250 to R259): what one index
does, with a transparent index below PAL_LEN and with one at or above it, and which palette entries
a block step reads.
-/

namespace Sys2Proof.Machine

theorem Cfg.palLen_eq (c : Cfg) :
    c.palLen = if c.palPresent then 2 ^ (c.palSize.toNat + 1) else 0 := by
  simp [Cfg.palLen, Nat.shiftLeft_eq]

theorem Cfg.transparent_iff {c : Cfg} {idx : Byte} :
    c.transparent idx = true ↔ c.transpEn = true ∧ idx = c.transpIdx := by
  simp [Cfg.transparent]

/-- No index that passes the range check is transparent when the transparent one does not pass. -/
theorem Cfg.transparent_eq_false_of_lt {c : Cfg} {idx : Byte}
    (above : c.palLen ≤ c.transpIdx.toNat) (range : idx.toNat < c.palLen) :
    c.transparent idx = false := by
  refine Bool.eq_false_iff.2 fun select => ?_
  obtain ⟨-, rfl⟩ := Cfg.transparent_iff.1 select
  exact range.not_ge above

section
variable {s : State} {idx : Byte}

/-! ### An index that passes both checks -/

theorem emit_of_accepted (room : s.pixCount.toNat < s.cfg.pixels)
    (range : idx.toNat < s.cfg.palLen) :
    emit idx s = .ok () (if s.cfg.transparent idx then s else s.paintPixel idx).countPixel := by
  have hroom : s.allPixelsIn = false := decide_eq_false (Nat.not_le.2 room)
  have hrange : s.cfg.indexOutOfRange idx = false := decide_eq_false (Nat.not_le.2 range)
  cases select : s.cfg.transparent idx <;> simp [emit, hroom, hrange, select]

theorem emit_of_transparent (room : s.pixCount.toNat < s.cfg.pixels)
    (range : idx.toNat < s.cfg.palLen) (select : s.cfg.transparent idx = true) :
    emit idx s = .ok () s.countPixel := by
  rw [emit_of_accepted room range, if_pos select]

theorem emit_of_opaque (room : s.pixCount.toNat < s.cfg.pixels)
    (range : idx.toNat < s.cfg.palLen) (select : s.cfg.transparent idx = false) :
    emit idx s = .ok () (s.paintPixel idx).countPixel := by
  rw [emit_of_accepted room range, if_neg (Bool.eq_false_iff.1 select)]

/-- After CANVAS_WRITE the pixel holds the colour of its entry, and the rest is as before. -/
theorem paintPixel_reads (s : State) (idx : Byte) :
    (s.paintPixel idx).canvas.holdsPixel (s.cfg.pixelOffset s.pixCount.toNat) (palGet s.pal idx) ∧
      ∀ a, ¬ inPixel (s.cfg.pixelOffset s.pixCount.toNat) a →
        (s.paintPixel idx).canvas.read a = s.canvas.read a :=
  ⟨holdsPixel_writeList _ _ _, fun _ => read_writePixel_outside _ _⟩

/-! ### TRANSP_EN with a transparent index at or above PAL_LEN -/

/-- The flag decides nothing: an index that reaches the multiplexer is painted at either value. -/
theorem emit_withTranspEn (above : s.cfg.palLen ≤ s.cfg.transpIdx.toNat) (b : Bool) :
    emit idx (s.withTranspEn b) = mapState (·.withTranspEn b) (emit idx s) := by
  by_cases room : s.pixCount.toNat < s.cfg.pixels
  · by_cases range : idx.toNat < s.cfg.palLen
    · rw [emit_of_opaque room range (Cfg.transparent_eq_false_of_lt above range),
        emit_of_opaque (s := s.withTranspEn b) room range
          (Cfg.transparent_eq_false_of_lt (c := (s.withTranspEn b).cfg) above range)]
      rfl
    · have range := Nat.not_lt.1 range
      rw [emit_of_out_of_range room range,
        emit_of_out_of_range (s := s.withTranspEn b) room range]
      rfl
  · have full := Nat.not_lt.1 room
    rw [emit_of_full idx full, emit_of_full (s := s.withTranspEn b) idx full]
    rfl

end

/-- Settles O29: the two checks in their order, then either value of the multiplexer's select. -/
theorem emitFollowsThePipeline : Obligations.EmitFollowsThePipeline := by
  intro s idx
  rw [← Cfg.palLen_eq]
  refine ⟨fun full => emit_of_full idx full,
    fun room range => emit_of_out_of_range room range, fun room range => ?_⟩
  have counted := countPixel_toNat (s := s) room
  cases select : s.cfg.transparent idx with
  | true =>
    exact ⟨_, emit_of_transparent room range select, counted, rfl, fun _ => rfl,
      fun shown => absurd (Cfg.transparent_iff.1 select) shown⟩
  | false =>
    obtain ⟨⟨red, green, blue, alpha⟩, others⟩ := paintPixel_reads s idx
    exact ⟨_, emit_of_opaque room range select, counted, rfl,
      fun skip => absurd (Cfg.transparent_iff.2 skip) (Bool.eq_false_iff.1 select),
      fun _ => ⟨red, green, blue, alpha, others⟩⟩

/-- Settles O30: the range check comes before the multiplexer, so it rejects the transparent index
itself, and what it accepts is painted. -/
theorem transparentIndexAbovePaletteIsInert : Obligations.TransparentIndexAbovePaletteIsInert := by
  intro s idx above
  refine ⟨fun b => emit_withTranspEn above b, fun room => ⟨fun same => ?_, fun range => ?_⟩⟩
  · exact emit_of_out_of_range room (same ▸ above)
  · obtain ⟨painted, others⟩ := paintPixel_reads s idx
    exact ⟨_, emit_of_opaque room range (Cfg.transparent_eq_false_of_lt above range),
      countPixel_toNat room, rfl, painted, others⟩

/-- Settles O55: the states are in step when the palettes agree below PAL_LEN, and from the same
canvas both sides paint the same one. -/
theorem paletteAbovePalLenIsUnread : Obligations.PaletteAbovePalLenIsUnread := by
  intro s pal colours
  obtain ⟨u, v, hu, hv, h⟩ := blockStep_ends_inStep (s₀ := s) (t₀ := { s with pal := pal })
    ⟨rfl, rfl, rfl, fun _ => rfl, fun _ _ _ => rfl, colours⟩
  have same : v = { u with pal := pal } := by
    rw [h.same, h.canvas rfl, ← h.input]
    rfl
  rw [hu, hv, same]
  rfl

end Sys2Proof.Machine
end

section
/-!
What ends a block step and that it always ends (44_host_interface.md R287, R288; 41_lzw_codes.md
R188): read off the effect of a block step of a running job.
-/

namespace Sys2Proof.Machine

variable {s t : State}

/-- A step whose job ends in DONE is the one case of its result that says so. -/
theorem BlockEffect.done_result (eff : BlockEffect s t) (state : t.jobState = .done) :
    t.errCode = s.errCode ∧ s.cfg.pixels ≤ t.pixCount.toNat ∧
      s.bytesConsumed.toNat < t.bytesConsumed.toNat ∧
      s.input.read (t.bytesConsumed.toNat - 1) = 0 ∧
      s.chainToCome = some (t.bytesConsumed.toNat - s.bytesConsumed.toNat) := by
  cases eff.result with
  | goesOn busy => cases state.symm.trans busy
  | done _ err full read zero chain => exact ⟨err, full, read, zero, chain⟩
  | error err => cases state.symm.trans err

/-- A running job's step leaves BUSY or uses bits of IN. -/
theorem BlockEffect.ne (eff : BlockEffect s t) (busy : s.jobState = .busy) : t ≠ s := by
  rintro rfl
  cases eff.result with
  | goesOn _ _ _ _ work => omega
  | done state => cases busy.symm.trans state
  | error state => cases busy.symm.trans state

/-- In step with itself a block step has a next state, whatever state it starts from. -/
theorem exists_blockStep_eq_next (s : State) : ∃ t, blockStep s = .next t := by
  obtain ⟨t, -, ht, -⟩ := blockStep_ends_inStep (s₀ := s) (t₀ := s)
    ⟨rfl, rfl, rfl, fun _ => rfl, fun _ _ _ => rfl, fun _ _ => rfl⟩
  exact ⟨t, ht⟩

/-- Settles O50: the count check of DONE meets the bound on PIX_COUNT, and the chain's length is
what the step has read. -/
theorem doneMeansComplete : Obligations.DoneMeansComplete := by
  intro s t hinv busy h state
  have eff := blockStep_effect_of_next hinv busy h
  obtain ⟨err, full, read, zero, chain⟩ := eff.done_result state
  have atMost := eff.pixel.bound (hinv.job busy).pixels
  have input : t.input = s.input := by rw [eff.frame]
  rw [eff.pixel.cfg, input]
  exact ⟨Nat.le_antisymm atMost full, read, chain, eff.le, zero,
    err.trans (hinv.errCode_of_busy busy)⟩

/-- Settles O52: every block step has a next state, and that of a running job is another one. -/
theorem blockStepIsAlwaysEnabled : Obligations.BlockStepIsAlwaysEnabled := by
  intro s
  obtain ⟨t, ht⟩ := exists_blockStep_eq_next s
  exact ⟨t, ht, fun busy hinv => (blockStep_effect_of_next hinv busy ht).ne busy⟩

/-- Settles O41: in each of the other three states the block step is the state itself. -/
theorem blockWaitsOutsideBusy : Obligations.BlockWaitsOutsideBusy :=
  fun _ => blockStep_of_not_busy

/-- Settles O40: RESET's own update, after which the block is IDLE and waits. -/
theorem resetAbandonsTheJob : Obligations.ResetAbandonsTheJob := by
  intro s
  have idle : s.resetInput.jobState ≠ .busy := by simp
  exact ⟨s.resetInput, rfl, rfl, rfl, rfl, rfl, rfl, rfl, rfl, rfl, rfl,
    blockStep_of_not_busy idle⟩

/-- Settles O7: each of the host's moves is one case of what the oldest move does. -/
theorem stepTakesOldestHostMove : Obligations.StepTakesOldestHostMove := by
  intro s rest
  exact ⟨fun _ => step_of_host_cons, step_of_host_cons, fun _ _ => step_of_host_cons,
    fun _ _ => step_of_host_cons, fun _ => step_of_host_cons, step_of_host_cons,
    step_of_host_nil, rfl⟩

end Sys2Proof.Machine
end

section
/-!
START and the writes to CTRL (44_host_interface.md R281, R282, R289, R315): one equation for each
outcome of START.
-/

namespace Sys2Proof.Machine

variable {s : State}

theorem outOfBounds_eq_false (c : Cfg) :
    c.outOfBounds = false ↔ c.left.toNat + c.imgW.toNat ≤ c.screenW.toNat ∧
      c.top.toNat + c.imgH.toNat ≤ c.screenH.toNat := by
  simp [Cfg.outOfBounds]

theorem outOfBounds_eq_true (c : Cfg) :
    c.outOfBounds = true ↔ c.screenW.toNat < c.left.toNat + c.imgW.toNat ∨
      c.screenH.toNat < c.top.toNat + c.imgH.toNat := by
  simp [Cfg.outOfBounds]

theorem badMinCode_eq_true (c : Cfg) :
    c.badMinCode = true ↔ c.mincode.toNat < 2 ∨ 8 < c.mincode.toNat := by
  simp only [Cfg.badMinCode, Bool.or_eq_true, decide_eq_true_eq]
  rfl

/-- A move that may not be made while BUSY is refused there (assumption log 6). -/
theorem refused_of_busy (r : Refusal) (o : Host.Outcome State Fault Refusal)
    (busy : s.jobState = .busy) : (if s.isBusy then .refused r else o) = .refused r :=
  if_pos ((isBusy_eq_true_iff s).2 busy)

theorem not_refused_of_not_busy (r : Refusal) (o : Host.Outcome State Fault Refusal)
    (waiting : s.jobState ≠ .busy) : (if s.isBusy then .refused r else o) = o :=
  if_neg (mt (isBusy_eq_true_iff s).1 waiting)

theorem exec_start_of_not_busy (reserved : BitVec 31) (waiting : s.jobState ≠ .busy) :
    exec (.start reserved) s = (startJob s).toNext := not_refused_of_not_busy _ _ waiting

theorem startJob_of_outOfBounds (off : s.cfg.outOfBounds = true) :
    startJob s = .raised (s.clearStatus.raise .imageOutOfBounds 0) := if_pos off

theorem startJob_of_badMinCode (fits : s.cfg.outOfBounds = false)
    (bad : s.cfg.badMinCode = true) :
    startJob s =
      .raised (s.clearStatus.raise .invalidLzwCodeSize (s.cfg.mincode.setWidth 16)) := by
  simp [startJob, fits, bad]

theorem startJob_of_legal (fits : s.cfg.outOfBounds = false) (legal : s.cfg.badMinCode = false) :
    startJob s = .ok () s.clearStatus.initTable.beginJob := by
  simp [startJob, fits, legal]

/-- The table that a job begins with; START's other writes are no part of the table. -/
theorem beginJob_reset (low : 2 ≤ s.cfg.mincode.toNat) (high : s.cfg.mincode.toNat ≤ 8) :
    TableReset s s.clearStatus.initTable.beginJob := by
  obtain ⟨roots, others, nextCode, codeWidth, prevCode⟩ :=
    initTable_reset (s := s.clearStatus) low high
  exact ⟨roots, others, nextCode, codeWidth, prevCode⟩

/-- Settles O31: the three outcomes of START's two checks. -/
theorem startBeginsJobOrRaises : Obligations.StartBeginsJobOrRaises := by
  intro s v waiting
  rw [exec_start_of_not_busy v waiting]
  refine ⟨fun hx hy low high => ?_, fun off => ?_, fun hx hy bad => ?_⟩
  · rw [startJob_of_legal ((outOfBounds_eq_false _).2 ⟨hx, hy⟩)
      ((badMinCode_eq_false _).2 ⟨low, high⟩)]
    exact ⟨_, rfl, beginJob_reset low high, rfl⟩
  · rw [startJob_of_outOfBounds ((outOfBounds_eq_true _).2 off)]
    rfl
  · rw [startJob_of_badMinCode ((outOfBounds_eq_false _).2 ⟨hx, hy⟩)
      ((badMinCode_eq_true _).2 bad)]
    rfl

/-- Settles O34: the duty of START, which CTRL_NOP does not have. -/
theorem startWhileBusyIsNoMove : Obligations.StartWhileBusyIsNoMove :=
  fun _ _ busy => ⟨refused_of_busy _ _ busy, rfl⟩

/-- Settles O32: bit 0 chooses between the two instructions of a write to CTRL. -/
theorem ctrlWritesAndReads : Obligations.CtrlWritesAndReads := by
  intro s v
  have write : decodeAccess (.write 0x000 v) = Reg.ctrl.writeInstr v :=
    decodeAccess_write_number .ctrl v
  rw [write, Reg.writeInstr]
  refine ⟨fun start => if_pos start, fun nop => ?_, fun _ _ => rfl, rfl⟩
  rw [nop]
  exact ⟨rfl, rfl⟩

end Sys2Proof.Machine
end

section
/-!
The fields of the registers (10_state.md R30 to R42; 44_host_interface.md R280, R284): what a word
keeps of what was stored, and the bits of CFG_FLAGS.
-/

namespace Sys2Proof.Machine

/-- The low `n` bits of a word, the others cleared. -/
theorem setWidth_setWidth_eq_and (v : Word) (n : Nat) :
    (v.setWidth n).setWidth 32 = v &&& BitVec.ofNat 32 (2 ^ n - 1) := by
  apply BitVec.eq_of_getLsbD_eq
  intro i hi
  rw [BitVec.getLsbD_setWidth, BitVec.getLsbD_setWidth, BitVec.getLsbD_and, BitVec.getLsbD_ofNat,
    Nat.testBit_two_pow_sub_one, Bool.and_comm (v.getLsbD i)]
  simp [hi]

/-- CFG_FLAGS bit by bit (10_state.md R34). -/
theorem flagsWord_getLsbD (c : Cfg) (i : Nat) :
    (flagsWord c).getLsbD i =
      match i with
      | 0 => c.interlace
      | 1 => c.transpEn
      | 2 => c.palPresent
      | 3 => false
      | k + 4 => c.palSize.getLsbD k := by
  simp only [flagsWord, BitVec.getLsbD_setWidth, BitVec.getLsbD_append]
  match i with
  | 0 => simp
  | 1 => simp
  | 2 => simp
  | 3 => simp
  | k + 4 =>
    have inWord : c.palSize.getLsbD k = true → k + 4 < 32 := fun bit => by
      have := BitVec.lt_of_getLsbD bit
      omega
    simpa using inWord

theorem flagsMask_getLsbD :
    ∀ i < 32, (fieldMask .flags).getLsbD i =
      match i with
      | 3 => false
      | k + 4 => decide (k < 3)
      | _ => true := by decide

/-- A store of CFG_FLAGS keeps the word's bits 0 to 2 and 4 to 6. -/
theorem flagsWord_store (c : Cfg) (v : Word) :
    flagsWord (c.store .flags v) = v &&& fieldMask .flags := by
  apply BitVec.eq_of_getLsbD_eq
  intro i hi
  rw [flagsWord_getLsbD, BitVec.getLsbD_and, flagsMask_getLsbD i hi]
  match i with
  | 0 => simp [Cfg.store]
  | 1 => simp [Cfg.store]
  | 2 => simp [Cfg.store]
  | 3 => simp
  | k + 4 => simp [Cfg.store, Nat.add_comm 4 k, Bool.and_comm]

theorem flagsWord_palSize (c : Cfg) : (flagsWord c).extractLsb' 4 3 = c.palSize := by
  apply BitVec.eq_of_getLsbD_eq
  intro i hi
  rw [BitVec.getLsbD_extractLsb', Nat.add_comm, flagsWord_getLsbD]
  simp [hi]

/-- The fields of CFG_FLAGS are in the places that a store takes them from. -/
theorem store_flagsWord (c : Cfg) : c.store .flags (flagsWord c) = c := by
  simp only [Cfg.store, flagsWord_getLsbD, flagsWord_palSize]

theorem flagsWord_reserved (c : Cfg) : flagsWord c &&& ~~~(fieldMask .flags) = 0 := by
  have kept : flagsWord c = flagsWord c &&& fieldMask .flags :=
    (congrArg flagsWord (store_flagsWord c)).symm.trans (flagsWord_store c _)
  rw [kept, BitVec.and_assoc, BitVec.and_not_self]
  exact BitVec.and_zero

theorem Cfg.word_store_same (c : Cfg) (r : CfgReg) (v : Word) :
    (c.store r v).word r = v &&& fieldMask r := by
  cases r with
  | flags => exact flagsWord_store c v
  | mincode => exact setWidth_setWidth_eq_and v 8
  | transpIdx => exact setWidth_setWidth_eq_and v 8
  | screenW => exact setWidth_setWidth_eq_and v 16
  | screenH => exact setWidth_setWidth_eq_and v 16
  | left => exact setWidth_setWidth_eq_and v 16
  | top => exact setWidth_setWidth_eq_and v 16
  | imgW => exact setWidth_setWidth_eq_and v 16
  | imgH => exact setWidth_setWidth_eq_and v 16
  | inLen => exact (BitVec.and_allOnes (x := v)).symm

theorem Cfg.word_store_other (c : Cfg) {r r' : CfgReg} (v : Word) (h : r' ≠ r) :
    (c.store r v).word r' = c.word r' := by
  cases r <;> cases r' <;> try rfl
  all_goals exact absurd rfl h

theorem palGet_palSet_same (p : Palette) (i : Byte) (c : Colour) : palGet (palSet p i c) i = c :=
  Vector.getElem_set_self _

theorem palGet_palSet_other (p : Palette) {i i' : Byte} (c : Colour) (h : i' ≠ i) :
    palGet (palSet p i c) i' = palGet p i' :=
  Vector.getElem_set_ne _ _ fun same => h (BitVec.eq_of_toNat_eq same).symm

theorem exec_cfgWrite_of_not_busy {s : State} (r : CfgReg) (v : Word)
    (waiting : s.jobState ≠ .busy) : exec (.cfgWrite r v) s = .next (s.storeCfg r v) :=
  not_refused_of_not_busy _ _ waiting

theorem exec_palWrite_of_not_busy {s : State} (i : Byte) (v : Word)
    (waiting : s.jobState ≠ .busy) : exec (.palWrite i v) s = .next (s.storePal i v) :=
  not_refused_of_not_busy _ _ waiting

/-- Settles O33: outside BUSY the two stores, each with its read after write; while BUSY the duty of
both. -/
theorem configurationWrites : Obligations.ConfigurationWrites := by
  intro s r i v
  refine ⟨fun waiting => ⟨?_, ?_⟩, fun busy => ?_⟩
  · exact ⟨_, exec_cfgWrite_of_not_busy r v waiting, s.cfg.word_store_same r v,
      fun _ => s.cfg.word_store_other v, rfl⟩
  · exact ⟨_, exec_palWrite_of_not_busy i v waiting, palGet_palSet_same _ _ _,
      fun _ => palGet_palSet_other _ _, rfl⟩
  · exact ⟨refused_of_busy _ _ busy, refused_of_busy _ _ busy⟩

theorem exec_regRead (r : ReadReg) (s : State) :
    exec (.regRead r) s = .next (s.reply (readRegWord s r)) := rfl

/-- Settles O36: the read returns the field that the write has stored. -/
theorem registerReadsBackWhatWasWritten : Obligations.RegisterReadsBackWhatWasWritten := by
  intro s r i v waiting
  refine ⟨⟨_, exec_cfgWrite_of_not_busy r v waiting, ?_⟩,
    ⟨_, exec_palWrite_of_not_busy i v waiting, ?_⟩⟩
  · rw [exec_regRead, readRegWord, State.storeCfg_cfg, Cfg.word_store_same]
    rfl
  · rw [exec_regRead, readRegWord, State.storePal_pal, palGet_palSet_same,
      setWidth_setWidth_eq_and]
    rfl

/-- Settles O37: only CFG_FLAGS has more than one field. -/
theorem registerReadReturnsFields : Obligations.RegisterReadReturnsFields := by
  intro s i
  refine ⟨⟨flagsWord s.cfg, rfl, flagsWord_reserved _, ?_, ?_, ?_, flagsWord_palSize _⟩,
    rfl, rfl, rfl⟩
  all_goals exact flagsWord_getLsbD s.cfg _

theorem setWidth_jobStateBits (j : JobState) :
    (jobStateBits j).setWidth 32 =
      match j with | .idle => 0 | .busy => 1 | .done => 2 | .error => 3 := by
  cases j <;> rfl

/-- Settles O35: STATE is a number of its own, each other register its value. -/
theorem statusReadReturnsValue : Obligations.StatusReadReturnsValue := by
  intro s
  refine ⟨?_, rfl, rfl, rfl, rfl⟩
  exact congrArg (fun v => Host.Outcome.next (s.reply v)) (setWidth_jobStateBits s.jobState)

/-- Settles O38: the number names the read-only register, and its write has no effect. -/
theorem readOnlyWritesAreIgnored : Obligations.ReadOnlyWritesAreIgnored :=
  fun _ r v => ⟨decodeAccess_write_number (.status r) v, rfl⟩

/-- Settles O39: an unlisted number names no register, so both accesses decode to UNLISTED. -/
theorem unlistedAccessIsRefused : Obligations.UnlistedAccessIsRefused := by
  intro s k v unlisted
  have noReg := (regOfNumber_eq_none_iff k).2 unlisted
  have read : decodeAccess (.read k) = .unlisted (.read k) := decodeAccess_of_unlisted noReg
  have write : decodeAccess (.write k v) = .unlisted (.write k v) := decodeAccess_of_unlisted noReg
  rw [read, write]
  exact ⟨rfl, rfl, rfl, rfl⟩

end Sys2Proof.Machine
end

section
/-!
The numbers in ERR_CODE (60_exceptions.md R310 to R312; 93_implementation_defined.md U7): what a
raise writes, the raise at an empty slot, and what a whole step can leave.
-/

namespace Sys2Proof.Machine

variable {s t : State}

/-- Settles O44: the definition of `raise`, and the table's numbers one by one. -/
theorem raiseWritesTheErrorRegisters : Obligations.RaiseWritesTheErrorRegisters :=
  ⟨fun _ _ _ => rfl, rfl⟩

theorem tableCode_of_none {c : Code} (empty : s.dict.get c = none) :
    tableCode c s = emptySlot c s := by
  rw [tableCode, empty]

/-- Settles O24: ROOT and DICT look up their own entry before they emit anything. -/
theorem emptySlotRaisesInvalidCode : Obligations.EmptySlotRaisesInvalidCode := by
  intro s c i hi empty
  rw [exec_tableCode hi, tableCode_of_none empty]
  rfl

/-- A number that 60_exceptions.md R311 lets ERR_CODE hold. -/
abbrev LegalErrCode (n : BitVec 8) : Prop := n ∉ [1, 3, 4] ∧ n.toNat ≤ 11

/-- R310's numbers of the kinds that the block raises are not those that R311 rules out. -/
theorem legalErrCode_errorNumber : ∀ e ∈ blockErrors, LegalErrCode (errorNumber e) := by decide

theorem State.inBlockError.legalErrCode (h : t.inBlockError) : LegalErrCode t.errCode := by
  obtain ⟨-, e, he, err⟩ := h
  exact err ▸ legalErrCode_errorNumber e he

theorem StatusChange.legalErrCode (h : StatusChange s t) (legal : LegalErrCode s.errCode) :
    LegalErrCode t.errCode := by
  have none_legal : LegalErrCode 0 := by decide
  cases h with
  | kept same => exact same.2 ▸ legal
  | block _ ends =>
    rcases ends with ⟨-, err⟩ | raised
    · exact err ▸ legal
    · exact raised.legalErrCode
  | start _ _ _ _ _ begins =>
    rcases begins with ⟨-, err⟩ | raised
    · exact err ▸ none_legal
    · exact raised.legalErrCode
  | reset _ _ _ err => exact err ▸ none_legal

/-- Settles O45: a step keeps ERR_CODE, clears it or raises one of the block's errors. -/
theorem onlyBlockErrorsAreRaised : Obligations.OnlyBlockErrorsAreRaised :=
  fun _ _ h listed bound => (step_status h).legalErrCode ⟨listed, bound⟩

end Sys2Proof.Machine
end

section
/-!
The host's job sequence (70_reset_and_hazards.md R354; 44_host_interface.md R286, R292): all of its
moves but the last store one register or one byte, so the run is a fold of stores.
-/

namespace Sys2Proof.Machine

/-- What a move of the job sequence before START stores. -/
inductive HostStore where
  | cfg (r : CfgReg) (v : Word)
  | pal (i : Byte) (v : Word)
  | input (offset : Nat) (b : Byte)
  | canvas (offset : Nat) (b : Byte)

/-- The move that makes the store. -/
def HostStore.move : HostStore → HostMove
  | .cfg r v => writeMove r.number v
  | .pal i v => writeMove (Reg.number (.pal i)) v
  | .input offset b => .inWrite offset b
  | .canvas offset b => .canvasWrite offset b

/-- The storage exists in some configuration (assumption log 5). -/
def HostStore.Reachable : HostStore → Prop
  | .cfg _ _ => True
  | .pal _ _ => True
  | .input offset _ => offset < Config.inCapacity
  | .canvas offset _ => offset < Config.canvasCapacity

/-- The state after the store. -/
def State.apply (s : State) : HostStore → State
  | .cfg r v => s.storeCfg r v
  | .pal i v => s.storePal i v
  | .input offset b => { s with input := s.input.write offset b }
  | .canvas offset b => { s with canvas := s.canvas.write offset b }

@[simp] theorem State.apply_jobState (s : State) (st : HostStore) :
    (s.apply st).jobState = s.jobState := by
  cases st <;> rfl

@[simp] theorem State.apply_host (s : State) (st : HostStore) : (s.apply st).host = s.host := by
  cases st <;> rfl

theorem State.apply_afterMove (s : State) (st : HostStore) (rest : List HostMove) :
    (s.apply st).afterMove rest = (s.afterMove rest).apply st := by
  cases st <;> rfl

theorem hostMove_store {s : State} {st : HostStore} (waiting : s.jobState ≠ .busy)
    (reach : st.Reachable) : hostMove st.move s = .next (s.apply st) := by
  cases st with
  | cfg r v =>
    have decoded : decodeAccess (.write r.number v) = .cfgWrite r v :=
      decodeAccess_write_number (.cfg r) v
    exact (congrArg (exec · s) decoded).trans (exec_cfgWrite_of_not_busy r v waiting)
  | pal i v =>
    have decoded : decodeAccess (.write (Reg.number (.pal i)) v) = .palWrite i v :=
      decodeAccess_write_number (.pal i) v
    exact (congrArg (exec · s) decoded).trans (exec_palWrite_of_not_busy i v waiting)
  | input offset b => exact hostInWrite_of_not_busy b waiting reach
  | canvas offset b => exact hostCanvasWrite_of_not_busy b waiting reach

/-- Moves that store, one step each, leave the fold of their stores and the moves after them. -/
theorem runSteps_stores (stores : List HostStore) {s : State} {rest : List HostMove}
    (waiting : s.jobState ≠ .busy) (reach : ∀ st ∈ stores, st.Reachable)
    (moves : s.host = stores.map HostStore.move ++ rest) :
    runSteps stores.length s = .next (stores.foldl State.apply (s.afterMove rest)) := by
  induction stores generalizing s with
  | nil =>
    obtain rfl : s.host = rest := moves
    rfl
  | cons st stores ih =>
    obtain ⟨reachHead, reachTail⟩ := List.forall_mem_cons.1 reach
    have first : step s = .next ((s.afterMove (stores.map HostStore.move ++ rest)).apply st) :=
      (step_of_host_cons moves).trans (hostMove_store waiting reachHead)
    rw [List.length_cons, runSteps_succ first, ih (by simpa using waiting) reachTail (by simp),
      State.apply_afterMove]
    rfl

/-! ### The stores of a job -/

/-- Step 2. -/
def Job.cfgStores (j : Job) : List HostStore := cfgRegs.map fun r => .cfg r (j.cfg.word r)

/-- The palette entries numbered below `n`. -/
def Job.palStores (j : Job) (n : Nat) : List HostStore :=
  (List.range n).map fun i =>
    .pal (BitVec.ofNat 8 i) ((palGet j.pal (BitVec.ofNat 8 i)).setWidth 32)

/-- Step 4. -/
def Job.inStores (j : Job) : List HostStore := j.input.zipIdx.map fun e => .input e.2 e.1

/-- Step 5. -/
def Job.canvasStores (j : Job) : List HostStore := j.canvas.zipIdx.map fun e => .canvas e.2 e.1

/-- Steps 2 to 5. -/
def Job.stores (j : Job) : List HostStore :=
  j.cfgStores ++ j.palStores j.cfg.palLen ++ j.inStores ++ j.canvasStores

theorem Cfg.palLen_le (c : Cfg) : c.palLen ≤ 256 := by
  rw [Cfg.palLen_eq]
  split
  · exact Nat.pow_le_pow_right (n := 2) (by decide) (Nat.succ_le_of_lt c.palSize.isLt)
  · exact Nat.zero_le _

theorem Job.palMoves_eq (j : Job) :
    j.palMoves = (j.palStores j.cfg.palLen).map HostStore.move := by
  rw [palMoves, palStores, List.map_map]
  refine List.map_congr_left fun i hi => ?_
  have small : i < 256 := (List.mem_range.1 hi).trans_le j.cfg.palLen_le
  simp [HostStore.move, Reg.number, Nat.mod_eq_of_lt small]

theorem Job.moves_eq (j : Job) : j.moves = j.stores.map HostStore.move ++ [startMove] := by
  simp only [moves, stores, List.map_append, ← palMoves_eq]
  simp [cfgMoves, cfgStores, inMoves, inStores, canvasMoves, canvasStores, HostStore.move,
    Function.comp_def]

theorem Job.stores_reachable {j : Job} (input : j.input.length ≤ Config.inCapacity)
    (canvas : j.canvas.length ≤ Config.canvasCapacity) : ∀ st ∈ j.stores, st.Reachable := by
  simp only [stores, cfgStores, palStores, inStores, canvasStores, List.forall_mem_append,
    List.forall_mem_map]
  exact ⟨⟨⟨fun _ _ => trivial, fun _ _ => trivial⟩,
    fun _ he => (List.snd_lt_of_mem_zipIdx he).trans_le input⟩,
    fun _ he => (List.snd_lt_of_mem_zipIdx he).trans_le canvas⟩

/-! ### What the stores leave -/

/-- Writing every field at its own place makes the configuration. -/
theorem Cfg.foldl_store_word (c c' : Cfg) :
    cfgRegs.foldl (fun d r => d.store r (c'.word r)) c = c' := by
  simp only [cfgRegs, List.foldl_cons, List.foldl_nil, Cfg.store, Cfg.word, flagsWord_getLsbD,
    flagsWord_palSize]
  simp

theorem Job.foldl_cfgStores (j : Job) (s : State) :
    j.cfgStores.foldl State.apply s = { s with cfg := j.cfg } := by
  rw [cfgStores, List.foldl_map]
  calc cfgRegs.foldl (fun u r => u.apply (.cfg r (j.cfg.word r))) s
    _ = { s with cfg := cfgRegs.foldl (fun c r => c.store r (j.cfg.word r)) s.cfg } :=
      List.foldl_hom (fun c => { s with cfg := c }) fun _ _ => rfl
    _ = { s with cfg := j.cfg } := by rw [Cfg.foldl_store_word]

theorem Memory.foldl_write_zipIdx (m : Memory) (bs : List Byte) (a : Nat) :
    (bs.zipIdx a).foldl (fun m e => m.write e.2 e.1) m = m.writeList a bs := by
  induction bs generalizing m a with
  | nil => rfl
  | cons b bs ih => exact ih (m.write a b) (a + 1)

theorem Job.foldl_inStores (j : Job) (s : State) :
    j.inStores.foldl State.apply s = { s with input := s.input.writeList 0 j.input } := by
  rw [inStores, List.foldl_map, ← Memory.foldl_write_zipIdx]
  refine List.foldl_hom (fun m => { s with input := m }) ?_
  exact fun _ _ => rfl

theorem Job.foldl_canvasStores (j : Job) (s : State) :
    j.canvasStores.foldl State.apply s = { s with canvas := s.canvas.writeList 0 j.canvas } := by
  rw [canvasStores, List.foldl_map, ← Memory.foldl_write_zipIdx]
  refine List.foldl_hom (fun m => { s with canvas := m }) ?_
  exact fun _ _ => rfl

/-- Each palette store leaves the entries stored before it as they are. -/
theorem Job.foldl_palStores (j : Job) (s : State) {n : Nat} (small : n ≤ 256) :
    ∃ p, (j.palStores n).foldl State.apply s = { s with pal := p } ∧
      ∀ i : Byte, i.toNat < n → palGet p i = palGet j.pal i := by
  induction n with
  | zero => exact ⟨s.pal, rfl, fun _ h => absurd h (Nat.not_lt_zero _)⟩
  | succ n ih =>
    obtain ⟨p, fold, below⟩ := ih (Nat.le_of_succ_le small)
    refine ⟨palSet p (BitVec.ofNat 8 n) (palGet j.pal (BitVec.ofNat 8 n)), ?_, fun i hi => ?_⟩
    · rw [palStores] at fold
      simp [palStores, List.range_succ, fold, State.apply, State.storePal]
    · by_cases last : i = BitVec.ofNat 8 n
      · rw [last, palGet_palSet_same]
      · have other : i.toNat ≠ n := fun same => last (by simp [← same])
        rw [palGet_palSet_other _ _ last, below i (by omega)]

/-- The state in which START is the next move: the job is in place, and nothing else has changed. -/
theorem Job.foldl_stores (j : Job) (s : State) :
    ∃ p, j.stores.foldl State.apply s =
        { s with
          cfg := j.cfg
          pal := p
          input := s.input.writeList 0 j.input
          canvas := s.canvas.writeList 0 j.canvas } ∧
      ∀ i : Byte, i.toNat < j.cfg.palLen → palGet p i = palGet j.pal i := by
  obtain ⟨p, fold, below⟩ := j.foldl_palStores { s with cfg := j.cfg } j.cfg.palLen_le
  refine ⟨p, ?_, below⟩
  simp only [stores, List.foldl_append, foldl_cfgStores, fold, foldl_inStores, foldl_canvasStores]

theorem hostMove_startMove (s : State) : hostMove startMove s = exec (.start 0) s := by
  have decoded : decodeAccess (.write (Reg.number .ctrl) 1) = .start 0 :=
    decodeAccess_write_number .ctrl 1
  exact congrArg (exec · s) decoded

/-- Settles O43: the run before START is the fold of the job's stores. -/
theorem jobSequenceLoadsTheJob : Obligations.JobSequenceLoadsTheJob := by
  intro s j waiting moves input canvas
  rw [j.moves_eq] at moves
  have run := runSteps_stores j.stores waiting (Job.stores_reachable input canvas) moves
  have length : j.moves.length - 1 = j.stores.length := by simp [j.moves_eq]
  obtain ⟨p, fold, below⟩ := j.foldl_stores (s.afterMove [startMove])
  rw [← length, fold] at run
  refine ⟨_, run, rfl, below, fun a h => ?_, fun a h => ?_, rfl,
    (step_of_host_cons rfl).trans (hostMove_startMove _)⟩
  · simpa using Memory.read_writeList_inside s.input 0 j.input h
  · simpa using Memory.read_writeList_inside s.canvas 0 j.canvas h

end Sys2Proof.Machine
end

section
/-!
The pixels of a running job and the state after reset (70_reset_and_hazards.md R350, R358).
-/

namespace Sys2Proof.Machine

/-- Settles O54: a step writes only the pixels of the ordinals it accepts, and pixels of different
ordinals share no byte. -/
theorem acceptedPixelsAreFinal : Obligations.AcceptedPixelsAreFinal := by
  intro s t hinv busy h p hp notAccepted k hk
  have effect := (blockStep_effect_of_next hinv busy h).pixel
  have job := hinv.job busy
  refine effect.outside _ fun q first last within => ?_
  have hq : q < s.cfg.pixels := last.trans_le (effect.bound job.pixels)
  have apart := Cfg.distinctPixels_of_fits job.fits p q hp hq (by omega)
  obtain ⟨lower, upper⟩ := within
  omega

theorem reset_inv : Inv State.reset where
  input := Memory.wf_nil
  canvas := Memory.wf_nil
  errCode := .inl rfl
  errState := by decide
  job := fun busy => by cases busy

/-- Settles O47: the values are those of the definition, and no job runs after reset. -/
theorem resetMeetsInvariant : Obligations.ResetMeetsInvariant :=
  ⟨rfl, rfl, rfl, rfl, rfl, reset_inv⟩

end Sys2Proof.Machine
end
